-- ==== Sys2Proof/Word.lean ====
section
/-! DEFINITION. The word types of monado-core (spec/00_scope.md R9, R11): bytes, the unsigned widths, the signed
64-bit timestamps as their two's-complement patterns, and byte strings. -/

namespace Sys2Proof

/-- A byte, u8 (R11). -/
abbrev Byte := BitVec 8

/-- An unsigned 16-bit value, u16 (R11). -/
abbrev U16 := BitVec 16

/-- An unsigned 32-bit value, u32 (R11). -/
abbrev U32 := BitVec 32

/-- An unsigned 64-bit value, u64 (R11). -/
abbrev U64 := BitVec 64

/-- A signed 64-bit value, i64, as its two's-complement pattern (R11, R93). Addition and subtraction of `BitVec 64` are
the wrapping `+64` and `-64` of R12. -/
abbrev I64 := BitVec 64

/-- A finite sequence of bytes, `bytes` (R11). `a ++ b` is `a ‖ b` (R10). -/
abbrev Bytes := List Byte

end Sys2Proof
end

