-- ==== Sys2Proof/Config.lean ====
section
/-! DEFINITION. What an instance of the block fixes (spec/00_scope.md R8): the parameter record, the constants that
the spec fixes, and the values that the spec leaves open, as constants with no body. -/

namespace Sys2Proof

/-- OFFSET_APPLY (R8): the sign with which CS_EXT applies `ns_offset`. -/
inductive OffsetApply where
  /-- -1, the spec's default: `ts_ns = ext_ns - ns_offset`. -/
  | subtract
  /-- +1: `ts_ns = ext_ns + ns_offset`. -/
  | add
deriving DecidableEq, Repr

/-- FecCoder (R8): the erasure-coding function of the instance. -/
inductive CoderChoice where
  /-- The reference coder of spec/44_fec_encoder.md R244 to R249, the spec's default. -/
  | reference
  /-- Another coder, known by a number only; what it answers is free within R243 (log 11). -/
  | custom (name : Nat)
deriving DecidableEq, Repr

/-- The parameters of an instance (R8). No command writes one. -/
structure Params where
  /-- SEG_CEILING, 1 .. 2^32 - 1. -/
  segCeiling : Nat
  /-- POSE_BYTES. -/
  poseBytes : Nat
  /-- PROTO_MAX_PAYLOAD, at least 1. -/
  protoMaxPayload : Nat
  /-- FS_MAX_SHARDS, 1 .. 2^32 - 1. -/
  fsMaxShards : Nat
  /-- ECHO_ID_BITS, 1 .. 32. -/
  echoIdBits : Nat
  /-- MT_ECHO; no command tests it (R114). -/
  mtEcho : BitVec 4
  /-- OFFSET_APPLY. -/
  offsetApply : OffsetApply
  /-- FecCoder. -/
  coder : CoderChoice
deriving DecidableEq, Repr

/-- VIEW_BYTES (R8): the size of a serialized `view_info` block. -/
def Params.viewBytes (p : Params) : Nat := 8 + p.poseBytes

/-- The ranges that R8 gives the parameters. -/
abbrev Params.Valid (p : Params) : Prop :=
  (1 ≤ p.segCeiling ∧ p.segCeiling < 2 ^ 32) ∧ 1 ≤ p.protoMaxPayload ∧
    (1 ≤ p.fsMaxShards ∧ p.fsMaxShards < 2 ^ 32) ∧ (1 ≤ p.echoIdBits ∧ p.echoIdBits ≤ 32)

/-- The instance that `State.reset` is (DESIGN CHOICE, unsafe, log 1): the sizes that spec/95_test_vectors.md uses in
its larger examples, and the spec's default where it has one. -/
def Params.atReset : Params where
  segCeiling := 4096
  poseBytes := 28
  protoMaxPayload := 1400
  fsMaxShards := 1024
  echoIdBits := 32
  mtEcho := 3
  offsetApply := .subtract
  coder := .reference

/-- What a coder answers when it can be constructed (R240): the symbol width it used, and the parity rows. -/
structure FecAnswer where
  fieldBits : Byte
  rows : List Bytes
deriving DecidableEq, Repr

/-- These are k rows of `len` bytes. -/
abbrev AreRows (k len : Nat) (rows : List Bytes) : Prop := rows.length = k ∧ ∀ row ∈ rows, row.length = len

/-- R243, recovery: wherever the coder answers, the rows at any k of the k + p places (data row i at place i, parity row j
at place k + j) determine the k data rows. -/
def RecoversFromAny (k p len : Nat) (answer : List Bytes → Option FecAnswer) : Prop :=
  ∀ (rows rows' : List Bytes) (a a' : FecAnswer) (places : Finset Nat),
    AreRows k len rows → AreRows k len rows' → answer rows = some a → answer rows' = some a' →
    places.card = k → (∀ i ∈ places, i < k + p ∧ (rows ++ a.rows)[i]? = (rows' ++ a'.rows)[i]?) →
    rows = rows'

/-- A coder that may be plugged in (R243): a function of (k, p, L, rows) alone; where it does not answer `unavailable` it
returns p rows of L bytes, and any k of the k + p rows recover the data. -/
structure FecCoder where
  answer : (k p len : Nat) → List Bytes → Option FecAnswer
  answers_rows : ∀ (k p len : Nat) (rows : List Bytes) (a : FecAnswer),
    AreRows k len rows → answer k p len rows = some a → AreRows p len a.rows
  recovers : ∀ k p len : Nat, RecoversFromAny k p len (answer k p len)

namespace Config

/-- FEC_NUM (R8), fixed. -/
def fecNum : Nat := 1

/-- FEC_DEN (R8), fixed. -/
def fecDen : Nat := 20

/-- FEC_MIN (R8), fixed. -/
def fecMin : Nat := 1

/-- The coder of this number: some coder that R243 allows, or none, and nothing else is known of it (free, safe, log 11). -/
opaque coder : Nat → Option FecCoder

/-- The `dlen` field of HI_ENC's response when 8 + len(payload) does not fit 32 bits (free, safe, log 10). -/
opaque overlongDlen : Bytes → U32

end Config

end Sys2Proof
end

