-- ==== Sys2Proof/Syntax.lean ====
section
/-! DEFINITION. The commands of the block (spec/30_encoding.md R91, R96 to R107): one constructor per row of
spec/opcode_table.json, its operands in the order of the command's format table, each as wide as its SLOT (R93). `dlen`
is no operand: it is the length of `data` (R120). -/

namespace Sys2Proof

/-- A command with its operands. -/
inductive Instr where
  /-- HI_ENC, 0x01 (R96). -/
  | hiEnc (messageType : Byte) (result : U16) (streamSize aux : U32) (data : Bytes)
  /-- HI_DEC, 0x02 (R97). -/
  | hiDec (data : Bytes)
  /-- ECHO_PACK, 0x03 (R98). -/
  | echoPack (org recv xmt offset : I64)
  /-- ECHO_UNPACK, 0x04 (R99). -/
  | echoUnpack (data : Bytes)
  /-- CS_SEND, 0x10 (R100). -/
  | csSend (nowNs : I64)
  /-- CS_REPLY, 0x11 (R101). -/
  | csReply (nowNs : I64) (id : U32) (org recv xmt : I64)
  /-- CS_EXT, 0x12 (R102). -/
  | csExt (ts32Us lastTs32 : U32) (lastTsNs : I64)
  /-- SR_BEGIN, 0x20 (R103). -/
  | srBegin (channel : Byte) (expectedLen : U32)
  /-- SR_FEED, 0x21 (R104). -/
  | srFeed (channel : Byte) (data : Bytes)
  /-- FS_PUSH, 0x30 (R105). -/
  | fsPush (streamIdx : Byte) (frameIdx : U64) (maxPayload : U32) (data : Bytes)
  /-- FS_FINAL, 0x31 (R106). -/
  | fsFinal (frameIdx : U64) (displayTime : I64) (pose : Bytes)
  /-- RESET, 0x7F (R107). -/
  | reset
deriving DecidableEq, Repr

/-- The twelve defined opcodes (R91). -/
inductive Opcode where
  | hiEnc | hiDec | echoPack | echoUnpack | csSend | csReply | csExt | srBegin | srFeed | fsPush | fsFinal | reset
deriving DecidableEq, Repr

/-- The opcode of a command. -/
def Instr.opcode : Instr → Opcode
  | .hiEnc .. => .hiEnc
  | .hiDec .. => .hiDec
  | .echoPack .. => .echoPack
  | .echoUnpack .. => .echoUnpack
  | .csSend .. => .csSend
  | .csReply .. => .csReply
  | .csExt .. => .csExt
  | .srBegin .. => .srBegin
  | .srFeed .. => .srFeed
  | .fsPush .. => .fsPush
  | .fsFinal .. => .fsFinal
  | .reset => .reset

end Sys2Proof
end

