-- ==== Sys2Proof/WellFormed.lean ====
section
/-! DEFINITION. Which commands have a packet: a `data` part must have a length that `dlen` (u32) can hold
(spec/30_encoding.md R90), and a pose must have exactly POSE_BYTES bytes (R106). Operand values that a command refuses
(a channel of 3 or more, a `max_payload` of 0) are well formed: they decode, and the command answers ArgError. -/

namespace Sys2Proof

/-- A `data` part that `dlen` can count (R90). -/
def dataFits (data : Bytes) : Bool := decide (data.length < 2 ^ 32)

/-- The command has a packet in an instance whose POSE_BYTES is `poseBytes`. -/
def Instr.wellFormed (poseBytes : Nat) : Instr → Bool
  | .hiEnc _ _ _ _ data => dataFits data
  | .hiDec data => dataFits data
  | .echoPack .. => true
  | .echoUnpack data => dataFits data
  | .csSend _ => true
  | .csReply .. => true
  | .csExt .. => true
  | .srBegin .. => true
  | .srFeed _ data => dataFits data
  | .fsPush _ _ _ data => dataFits data
  | .fsFinal _ _ pose => decide (pose.length = poseBytes)
  | .reset => true

end Sys2Proof
end

