-- ==== Sys2Proof/Decode.lean ====
section
/-! DEFINITION. Byte order, the packet formats, the decoder and the encoder (spec/30_encoding.md R90 to R107, R122;
spec/20_memory.md R64). The decoder is total: every byte string is a command, or a malformed packet of a defined opcode,
or a packet with no defined opcode. -/

namespace Sys2Proof

/-- `le_N(v)` of R11 for N = 8n: n bytes, the least significant first. -/
def le : Nat → Nat → Bytes
  | 0, _ => []
  | n + 1, v => BitVec.ofNat 8 v :: le n (v / 256)

/-- `from_le(b)` of R11, as a natural number. -/
def fromLe : Bytes → Nat
  | [] => 0
  | b :: bs => b.toNat + 256 * fromLe bs

/-- A 16-bit value as its two bytes (R64). -/
def le16 (v : U16) : Bytes := le 2 v.toNat

/-- A 32-bit value as its four bytes (R64). -/
def le32 (v : U32) : Bytes := le 4 v.toNat

/-- A 64-bit value as its eight bytes (R64, R93). -/
def le64 (v : BitVec 64) : Bytes := le 8 v.toNat

/-- The opcode byte of R91. -/
def Opcode.byte : Opcode → Byte
  | .hiEnc => 0x01
  | .hiDec => 0x02
  | .echoPack => 0x03
  | .echoUnpack => 0x04
  | .csSend => 0x10
  | .csReply => 0x11
  | .csExt => 0x12
  | .srBegin => 0x20
  | .srFeed => 0x21
  | .fsPush => 0x30
  | .fsFinal => 0x31
  | .reset => 0x7F

/-- Every defined opcode, in the table's order (R91). -/
def Opcode.all : List Opcode :=
  [.hiEnc, .hiDec, .echoPack, .echoUnpack, .csSend, .csReply, .csExt, .srBegin, .srFeed, .fsPush, .fsFinal, .reset]

/-- The opcode that a byte selects, by exact match of all 8 bits (R91); none for an illegal byte (R95). -/
def Opcode.ofByte? (b : Byte) : Option Opcode := Opcode.all.find? (fun op => op.byte == b)

/-- The widths in bytes of the fixed operand fields, in packet order (R96 to R107). FS_FINAL's pose follows its fixed
fields. -/
def Opcode.layout : Opcode → List Nat
  | .hiEnc => [1, 2, 4, 4, 4]
  | .hiDec => [4]
  | .echoPack => [8, 8, 8, 8]
  | .echoUnpack => [4]
  | .csSend => [8]
  | .csReply => [8, 4, 8, 8, 8]
  | .csExt => [4, 4, 8]
  | .srBegin => [1, 4]
  | .srFeed => [1, 4]
  | .fsPush => [1, 8, 4, 4]
  | .fsFinal => [8, 8]
  | .reset => []

/-- Whether the operand block ends with `dlen` (R122). -/
def Opcode.hasDlen : Opcode → Bool
  | .hiEnc | .hiDec | .echoUnpack | .srFeed | .fsPush => true
  | .echoPack | .csSend | .csReply | .csExt | .srBegin | .fsFinal | .reset => false

/-- The length of the operand block after the opcode byte (R122): FF is 16 + POSE_BYTES. -/
def Opcode.blockLen (poseBytes : Nat) (op : Opcode) : Nat :=
  op.layout.sum + (if op = .fsFinal then poseBytes else 0)

/-- The length of the fixed result block, `dlen` included (R96 to R107). -/
def Opcode.resultLen : Opcode → Nat
  | .hiEnc => 4
  | .hiDec => 15
  | .echoPack => 32
  | .echoUnpack => 32
  | .csSend => 12
  | .csReply => 40
  | .csExt => 16
  | .srBegin => 4
  | .srFeed => 5
  | .fsPush => 8
  | .fsFinal => 13
  | .reset => 0

/-- The values of consecutive little-endian fields of these widths. -/
def splitFields : List Nat → Bytes → List Nat
  | [], _ => []
  | n :: ns, bs => fromLe (bs.take n) :: splitFields ns (bs.drop n)

/-- The bytes of consecutive little-endian fields of these widths. -/
def packFields : List Nat → List Nat → Bytes
  | n :: ns, v :: vs => le n v ++ packFields ns vs
  | _, _ => []

/-- How many bytes must follow the fixed fields: `dlen` where the block ends with it, POSE_BYTES in FS_FINAL, else
none (R90, R106). -/
def Opcode.tailLen (poseBytes : Nat) (op : Opcode) (fields : List Nat) : Nat :=
  if op.hasDlen then fields.getLastD 0 else if op = .fsFinal then poseBytes else 0

/-- The command of an opcode with these field values and the bytes after them. -/
def Opcode.build : Opcode → List Nat → Bytes → Option Instr
  | .hiEnc, [mt, rs, ss, aux, _], d => some (.hiEnc (.ofNat 8 mt) (.ofNat 16 rs) (.ofNat 32 ss) (.ofNat 32 aux) d)
  | .hiDec, [_], d => some (.hiDec d)
  | .echoPack, [o, r, x, f], _ => some (.echoPack (.ofNat 64 o) (.ofNat 64 r) (.ofNat 64 x) (.ofNat 64 f))
  | .echoUnpack, [_], d => some (.echoUnpack d)
  | .csSend, [now], _ => some (.csSend (.ofNat 64 now))
  | .csReply, [now, id, o, r, x], _ =>
    some (.csReply (.ofNat 64 now) (.ofNat 32 id) (.ofNat 64 o) (.ofNat 64 r) (.ofNat 64 x))
  | .csExt, [t, l, ns], _ => some (.csExt (.ofNat 32 t) (.ofNat 32 l) (.ofNat 64 ns))
  | .srBegin, [c, n], _ => some (.srBegin (.ofNat 8 c) (.ofNat 32 n))
  | .srFeed, [c, _], d => some (.srFeed (.ofNat 8 c) d)
  | .fsPush, [st, fr, mp, _], d => some (.fsPush (.ofNat 8 st) (.ofNat 64 fr) (.ofNat 32 mp) d)
  | .fsFinal, [fr, dt], d => some (.fsFinal (.ofNat 64 fr) (.ofNat 64 dt) d)
  | .reset, [], _ => some .reset
  | _, _, _ => none

/-- What a packet is. -/
inductive Decoded where
  /-- A well-formed packet. -/
  | ok (i : Instr)
  /-- A packet whose length does not fit its opcode's format: refused with ArgError (R94). -/
  | malformed (op : Opcode)
  /-- An empty packet or an undefined opcode: refused with BadOpcode (R95, R281). -/
  | badOpcode
deriving DecidableEq, Repr

/-- The decoder of operand block and data, once the opcode is known (R94). -/
def decodeBlock (poseBytes : Nat) (op : Opcode) (rest : Bytes) : Decoded :=
  if rest.length < op.blockLen poseBytes then .malformed op
  else
    let fields := splitFields op.layout rest
    let tail := rest.drop op.layout.sum
    if tail.length ≠ op.tailLen poseBytes fields then .malformed op
    else
      match op.build fields tail with
      | some i => .ok i
      | none => .malformed op

/-- The decoder of a command packet (R90, R91, R94, R95; an empty packet is case 1 of R281). -/
def decode (poseBytes : Nat) : Bytes → Decoded
  | [] => .badOpcode
  | b :: rest =>
    match Opcode.ofByte? b with
    | none => .badOpcode
    | some op => decodeBlock poseBytes op rest

/-- The values of a command's fixed fields, `dlen` included. -/
def Instr.fieldValues : Instr → List Nat
  | .hiEnc mt rs ss aux d => [mt.toNat, rs.toNat, ss.toNat, aux.toNat, d.length]
  | .hiDec d => [d.length]
  | .echoPack o r x f => [o.toNat, r.toNat, x.toNat, f.toNat]
  | .echoUnpack d => [d.length]
  | .csSend now => [now.toNat]
  | .csReply now id o r x => [now.toNat, id.toNat, o.toNat, r.toNat, x.toNat]
  | .csExt t l ns => [t.toNat, l.toNat, ns.toNat]
  | .srBegin c n => [c.toNat, n.toNat]
  | .srFeed c d => [c.toNat, d.length]
  | .fsPush st fr mp d => [st.toNat, fr.toNat, mp.toNat, d.length]
  | .fsFinal fr dt _ => [fr.toNat, dt.toNat]
  | .reset => []

/-- The bytes of a command after its fixed fields: its data, or FS_FINAL's pose. -/
def Instr.tail : Instr → Bytes
  | .hiEnc _ _ _ _ d => d
  | .hiDec d => d
  | .echoPack .. => []
  | .echoUnpack d => d
  | .csSend _ => []
  | .csReply .. => []
  | .csExt .. => []
  | .srBegin .. => []
  | .srFeed _ d => d
  | .fsPush _ _ _ d => d
  | .fsFinal _ _ pose => pose
  | .reset => []

/-- The packet of a command (R90). -/
def encode (i : Instr) : Bytes := i.opcode.byte :: (packFields i.opcode.layout i.fieldValues ++ i.tail)

/-- The packet whose bytes are those of the number w below 2^nbits, byte 0 the opcode, and zero above: as many bytes as
its opcode and its `dlen` say (R122; log 17). An undefined opcode's packet is the nbits given. -/
def tablePacket (poseBytes nbits w : Nat) : Bytes :=
  let v := w % 2 ^ nbits
  match Opcode.ofByte? (BitVec.ofNat 8 v) with
  | none => le ((nbits + 7) / 8) v
  | some op =>
    let dlen := if op.hasDlen then v / 256 ^ (op.layout.sum - 3) % 2 ^ 32 else 0
    le (1 + op.blockLen poseBytes + dlen) v

/-- The instruction that the decoder reads from a table word, in the instance of `State.reset` (log 17). -/
def decodeTableWord (nbits w : Nat) : Option Instr :=
  match decode Params.atReset.poseBytes (tablePacket Params.atReset.poseBytes nbits w) with
  | .ok i => some i
  | .malformed _ => none
  | .badOpcode => none

end Sys2Proof
end

