-- ==== Sys2Proof/Machine/State.lean ====
section
/-! DEFINITION. The state of one instance of the block (spec/10_state.md R20 to R58), its ports, the reasons a step can
stop, and the machine right after reset. -/

namespace Sys2Proof.Machine

/-- Sparse data by a natural-number key, in rising order of the keys. -/
abbrev Cells (α : Type) := List (Nat × α)

/-- The keys rise strictly. -/
abbrev Cells.Rising {α : Type} (m : Cells α) : Prop := m.Pairwise (fun a b => a.1 < b.1)

/-- An internal byte space: (byte offset, byte) pairs (R56). An unlisted offset has no value: nothing has written it
since power-on, and reading it faults (R58, R59; log 6). -/
abbrev Memory := List Host.Cell

/-- The canonical form of a memory: addresses rise strictly. No entry can equal what an unlisted address reads as, since
that is no value. -/
abbrev Memory.wf (m : Memory) : Prop := Cells.Rising m

/-- The lengths of the shards of the frame in flight, by row. An unlisted row holds 0 (DESIGN CHOICE, unsafe, log 8). -/
abbrev RowLens := Cells U32

/-- The canonical form of the row lengths: rows rise strictly and no listed length is what an unlisted row holds. -/
abbrev RowLens.wf (r : RowLens) : Prop := Cells.Rising r ∧ ∀ e ∈ r, e.2 ≠ 0

/-- `st.cs.state` (R30). The value 3 never occurs. -/
inductive CsState where
  | idle
  | echoSent
  | settled
deriving DecidableEq, Repr

/-- `st.sr.seg[c].state` (R36). The value 3 never occurs. -/
inductive SegState where
  | empty
  | accumulating
  | complete
deriving DecidableEq, Repr

/-- The three channels (R180). -/
inductive Channel where
  | ch0
  | ch1
  | ch2
deriving DecidableEq, Repr

/-- The ClockSync registers (R30). -/
structure ClockSync where
  state : CsState
  /-- The id of the last request, W bits zero-extended to 32 (log 12). -/
  echoId : U32
  nsOffset : I64
  lastEchoSentNs : I64
  lastEchoRecvNs : I64
  lastXmt : I64
deriving DecidableEq, Repr

/-- The registers and the buffer SEG[c] of one channel (R36). -/
structure Segment where
  state : SegState
  validLen : U32
  expectedLen : U32
  capacity : U32
  buf : Memory
deriving DecidableEq, Repr

/-- The reassembler: its three segments, and the channel whose PKT_OUT transfer is open (R55, R57). -/
structure Reassembler where
  seg0 : Segment
  seg1 : Segment
  seg2 : Segment
  callout : Option Channel
deriving DecidableEq, Repr

/-- The frame context of the sharder and the FEC encoder (R43). `isOpen` is `st.fs.open`. STORE row i starts at offset
i * PROTO_MAX_PAYLOAD of `store` (log 15). -/
structure Sharder where
  isOpen : Bool
  frameIdx : U64
  streamIdx : Byte
  nextIdx : U32
  heldValid : Bool
  heldFlags : Byte
  rowlen : RowLens
  store : Memory
deriving DecidableEq, Repr

/-- The sideband `kind` of a TX packet (R53). -/
inductive TxKind where
  | data
  | parity
deriving DecidableEq, Repr

/-- What arrives at the block. -/
inductive PortIn where
  /-- A command packet on CMD (R52, R90). -/
  | command (packet : Bytes)
  /-- The handler on PKT_OUT signals its return (R55). -/
  | handlerReturn
deriving DecidableEq, Repr

/-- What leaves the block. -/
inductive PortOut where
  /-- A response packet on RESP (R92). -/
  | resp (packet : Bytes)
  /-- A packet on TX, with its sideband (R53). -/
  | tx (kind : TxKind) (parityIdx : Nat) (bytes : Bytes)
  /-- A PKT_OUT transfer: the channel, `len` and the view of the bytes (R52, R55). -/
  | pktOut (channel : Channel) (len : U32) (view : Bytes)
deriving DecidableEq, Repr

/-- The state of an instance. -/
structure State where
  /-- The parameters of the instance (R8; log 1). -/
  params : Params
  cs : ClockSync
  sr : Reassembler
  fs : Sharder
  /-- What has arrived and is not yet taken, oldest first (log 2). -/
  input : List PortIn
  /-- What has left the block, oldest first (log 5). -/
  output : List PortOut
deriving DecidableEq, Repr

/-- The internal byte spaces (R56). -/
inductive Space where
  | seg (c : Channel)
  | store
deriving DecidableEq, Repr

/-- Why the machine stops. No state that meets `Sys2Proof.Safety.Inv` reaches either. -/
inductive Fault where
  /-- Raised by an access outside the space, whose behaviour R62 leaves undefined: by SR_FEED, FS_PUSH and FS_FINAL
  through MemRead and MemWrite. Safe: the model stops (log 7). -/
  | outOfSpace (space : Space) (addr : Nat)
  /-- Raised by a read of bytes of which one has no value, which R59 says no rule makes: by SR_FEED, FS_PUSH and FS_FINAL
  through MemRead. Safe: the model stops (log 6). -/
  | unwritten (space : Space) (addr : Nat)
deriving DecidableEq, Repr

/-- Why an instruction has no meaning. -/
inductive Refusal where
  /-- Raised by an arm of `exec` for an instruction that has no meaning yet. Safe. No arm raises it now. -/
  | notModelled (mnemonic : String)
deriving DecidableEq, Repr

/-- A channel after reset (R58). -/
def Segment.atReset : Segment where
  state := .empty
  validLen := 0
  expectedLen := 0
  capacity := 0
  buf := []

/-- The ClockSync registers after reset (R58). -/
def ClockSync.atReset : ClockSync where
  state := .idle
  echoId := 0
  nsOffset := 0
  lastEchoSentNs := 0
  lastEchoRecvNs := 0
  lastXmt := 0

/-- The frame context after reset (R58). -/
def Sharder.atReset : Sharder where
  isOpen := false
  frameIdx := 0
  streamIdx := 0
  nextIdx := 0
  heldValid := false
  heldFlags := 0
  rowlen := []
  store := []

/-- An instance with these parameters right after power-on reset (R310). -/
def State.powerOn (p : Params) : State where
  params := p
  cs := .atReset
  sr := ⟨.atReset, .atReset, .atReset, none⟩
  fs := .atReset
  input := []
  output := []

/-- The machine right after reset: the instance of log 1, at the values of R58. -/
def State.reset : State := .powerOn .atReset

end Sys2Proof.Machine
end

