-- ==== Sys2Proof/Machine/Operands.lean ====
section
/-! DEFINITION. The operand forms: which channel an operand names, the truncation of an id to its width, and the wire
records that commands pack and unpack (spec/30_encoding.md R110 to R118). -/

namespace Sys2Proof.Machine

/-- The channel that a `channel` slot names: 0, 1 and 2, none for 3 to 255 (R109, R181). -/
def Channel.ofByte? (b : Byte) : Option Channel :=
  match b.toNat with
  | 0 => some .ch0
  | 1 => some .ch1
  | 2 => some .ch2
  | _ => none

/-- The index of a channel (R180). -/
def Channel.index : Channel → Nat
  | .ch0 => 0
  | .ch1 => 1
  | .ch2 => 2

/-- `trunc_W(v)` for W = ECHO_ID_BITS, zero-extended to 32 bits (R100, R152). -/
def truncId (w : Nat) (v : U32) : U32 := BitVec.ofNat 32 (v.toNat % 2 ^ w)

/-- The HostInfo header record (R51, R110). -/
structure HostInfo where
  messageType : BitVec 4
  result : BitVec 10
  streamSizeWords : BitVec 18
  aux : U32
deriving DecidableEq, Repr

/-- The header of HI_ENC's operands (R111): every operand is truncated to its field. -/
def HostInfo.ofOperands (messageType : Byte) (result : U16) (streamSize aux : U32) : HostInfo where
  messageType := messageType.setWidth 4
  result := result.setWidth 10
  streamSizeWords := (streamSize >>> 2).setWidth 18
  aux := aux

/-- The word w of the header (R111). -/
def HostInfo.word (h : HostInfo) : U32 :=
  h.messageType.setWidth 32 ||| (h.result.setWidth 32 <<< 4) ||| (h.streamSizeWords.setWidth 32 <<< 14)

/-- The header's 8 bytes (R110, R111). -/
def HostInfo.bytes (h : HostInfo) : Bytes := le32 h.word ++ le32 h.aux

/-- The header that 8 bytes hold (R110): `w[3:0]`, `w[13:4]`, `w[31:14]` and `aux`. -/
def HostInfo.ofBytes (b : Bytes) : HostInfo :=
  let w : U32 := BitVec.ofNat 32 (fromLe (b.take 4))
  { messageType := w.extractLsb' 0 4
    result := w.extractLsb' 4 10
    streamSizeWords := w.extractLsb' 14 18
    aux := BitVec.ofNat 32 (fromLe ((b.drop 4).take 4)) }

/-- `stream_size = zext_32(stream_size_words) << 2` (R111). -/
def HostInfo.streamSize (h : HostInfo) : U32 := h.streamSizeWords.setWidth 32 <<< 2

/-- The echo payload (R113). -/
def echoPayload (org recv xmt offset : I64) : Bytes := le64 org ++ le64 recv ++ le64 xmt ++ le64 offset

/-- The i64 at byte offset o of a byte string: `from_le_s(b[o..o+8))` as a bit pattern (R137). -/
def i64At (o : Nat) (b : Bytes) : I64 := BitVec.ofNat 64 (fromLe ((b.drop o).take 8))

/-- The view_info record (R50, R116). -/
structure ViewInfo where
  displayTime : I64
  pose : Bytes
deriving DecidableEq, Repr

/-- The Shard record (R50). -/
structure Shard where
  streamIdx : Byte
  frameIdx : U64
  shardIdx : U32
  flags : Byte
  payload : Bytes
  viewInfo : Option ViewInfo
deriving DecidableEq, Repr

/-- The ParityShard record (R50). -/
structure ParityShard where
  streamIdx : Byte
  frameIdx : U64
  dataShardCount : U32
  parityCount : U32
  payload : Bytes
deriving DecidableEq, Repr

/-- The bytes of the view_info block, and none where it is absent (R116). -/
def ViewInfo.bytes : Option ViewInfo → Bytes
  | none => []
  | some v => le64 v.displayTime ++ v.pose

/-- `ser_shard` (R115, R117): the 14-byte header, the view_info block if any, the payload. -/
def Shard.serialize (h : Shard) : Bytes :=
  [h.streamIdx] ++ le64 h.frameIdx ++ le32 h.shardIdx ++ [h.flags] ++ ViewInfo.bytes h.viewInfo ++ h.payload

/-- `ser_parity` (R118): the 17-byte header and the parity row. -/
def ParityShard.serialize (h : ParityShard) : Bytes :=
  [h.streamIdx] ++ le64 h.frameIdx ++ le32 h.dataShardCount ++ le32 h.parityCount ++ h.payload

/-- `ceil_div(a, b)` of R12, for b > 0. -/
def ceilDiv (a b : Nat) : Nat := (a + b - 1) / b

/-- `tdiv2(v)` of R12: division by 2 truncating toward zero. -/
def tdiv2 (v : I64) : I64 := v.sdiv 2

end Sys2Proof.Machine
end

