-- ==== Sys2Proof/Machine/Flags.lean ====
section
/-! DEFINITION. The shard flags and how they are computed (spec/10_state.md R24, spec/43_frame_sharder.md R211), the
status codes (spec/60_exceptions.md R270), and the codes of the two state enumerations (spec/10_state.md R30, R36). -/

namespace Sys2Proof.Machine

/-- START_OF_SLICE, bit 0 (R24). -/
def startOfSlice : Byte := 0x01

/-- END_OF_SLICE, bit 1 (R24). -/
def endOfSlice : Byte := 0x02

/-- END_OF_FRAME, bit 2 (R24). -/
def endOfFrame : Byte := 0x04

/-- The flags of shard j of the n shards of one push (R211). -/
def sliceFlags (j n : Nat) : Byte :=
  (if j = 0 then startOfSlice else 0) ||| (if j + 1 = n then endOfSlice else 0)

/-- The outcome of a command (R270). -/
inductive Status where
  | ok
  | framingError
  | capacityError
  | overrunError
  | fecUnavailable
  | staleEcho
  | argError
  | badOpcode
deriving DecidableEq, Repr

/-- The status byte (R270). -/
def Status.byte : Status → Byte
  | .ok => 0x00
  | .framingError => 0x01
  | .capacityError => 0x02
  | .overrunError => 0x03
  | .fecUnavailable => 0x04
  | .staleEcho => 0x05
  | .argError => 0x06
  | .badOpcode => 0x07

/-- The encoding of `st.cs.state` (R30). -/
def CsState.code : CsState → BitVec 2
  | .idle => 0
  | .echoSent => 1
  | .settled => 2

/-- The encoding of `st.sr.seg[c].state` (R36). -/
def SegState.code : SegState → BitVec 2
  | .empty => 0
  | .accumulating => 1
  | .complete => 2

/-- The encoding of the TX sideband `kind` (R53). -/
def TxKind.code : TxKind → BitVec 1
  | .data => 0
  | .parity => 1

end Sys2Proof.Machine
end

