-- ==== Sys2Proof/Machine/Ops.lean ====
section
/-! DEFINITION. The named operations over the state: buffers (spec/20_memory.md R60 to R62, R82), ports, the one way a
command ends with an error (`raise`, spec/00_scope.md R14, spec/60_exceptions.md R282) and the handler's return
(spec/10_state.md R55), and which arrived event is taken next (spec/20_memory.md R71, R72). -/

namespace Sys2Proof.Machine

/-! ### Sparse cells -/

/-- What the cells hold at a key, if anything. -/
def Cells.get? {α : Type} : Cells α → Nat → Option α
  | [], _ => none
  | (k, v) :: m, a => if k = a then some v else Cells.get? m a

/-- The cells of consecutive keys from a. -/
def Cells.run {α : Type} : Nat → List α → Cells α
  | _, [] => []
  | a, v :: vs => (a, v) :: Cells.run (a + 1) vs

/-- The cells with the n keys from a replaced by these cells. -/
def Cells.replace {α : Type} (m : Cells α) (a n : Nat) (new : Cells α) : Cells α :=
  m.filter (fun e => decide (e.1 < a)) ++ new ++ m.filter (fun e => decide (a + n ≤ e.1))

/-- The cells with the values vs at the consecutive keys from a. -/
def Cells.write {α : Type} (m : Cells α) (a : Nat) (vs : List α) : Cells α :=
  m.replace a vs.length (Cells.run a vs)

/-- The n values at the consecutive keys from a, if every one of those keys has a value, of cells whose keys rise. -/
def Cells.read {α : Type} : Cells α → Nat → Nat → Option (List α)
  | _, _, 0 => some []
  | [], _, _ + 1 => none
  | (k, v) :: m, a, n + 1 =>
    if k < a then Cells.read m a (n + 1)
    else if k = a then (Cells.read m (a + 1) n).map (fun vs => v :: vs)
    else none

/-- `rowlen[i]` (R43). An unlisted row holds 0 (log 8). -/
def RowLens.at (r : RowLens) (i : Nat) : U32 := (Cells.get? r i).getD 0

/-- `rowlen[i] <- v`, keeping the canonical form. -/
def RowLens.set (r : RowLens) (i : Nat) (v : U32) : RowLens :=
  Cells.replace r i 1 (if v = 0 then [] else [(i, v)])

/-! ### The units' registers -/

/-- The segment of a channel. -/
def State.seg (s : State) : Channel → Segment
  | .ch0 => s.sr.seg0
  | .ch1 => s.sr.seg1
  | .ch2 => s.sr.seg2

/-- The state with the segment of a channel replaced. -/
def State.setSeg (s : State) (c : Channel) (g : Segment) : State :=
  match c with
  | .ch0 => { s with sr := { s.sr with seg0 := g } }
  | .ch1 => { s with sr := { s.sr with seg1 := g } }
  | .ch2 => { s with sr := { s.sr with seg2 := g } }

/-- The state with the open PKT_OUT transfer replaced. -/
def State.setCallout (s : State) (o : Option Channel) : State := { s with sr := { s.sr with callout := o } }

/-- The state with the ClockSync registers replaced. -/
def State.setCs (s : State) (x : ClockSync) : State := { s with cs := x }

/-- The state with the frame context replaced. -/
def State.setFs (s : State) (x : Sharder) : State := { s with fs := x }

/-- The state with the arrived events replaced. -/
def State.setInput (s : State) (i : List PortIn) : State := { s with input := i }

/-- The segment after completion or an overrun: EMPTY, both lengths 0, the capacity and the buffer kept (R187, R188). -/
def Segment.emptied (g : Segment) : Segment := { g with state := .empty, validLen := 0, expectedLen := 0 }

/-- The segment after a reset: all four registers at their reset values, the buffer kept (R311, R312). -/
def Segment.cleared (g : Segment) : Segment := { g with state := .empty, validLen := 0, expectedLen := 0, capacity := 0 }

/-! ### Ports -/

/-- Packets leave the block, in this order. -/
def State.emit (s : State) (os : List PortOut) : State := { s with output := s.output ++ os }

/-- The response of a command: `status ‖ results ‖ data` (R92). -/
def State.respond (s : State) (status : Status) (results : Bytes) : State := s.emit [.resp (status.byte :: results)]

/-- `raise` (R14): the command ends with an error status and a zero result block (R108). What else changes is what its
caller has changed, as R282 lists; nothing is saved and nothing is vectored (R282). -/
def State.raise (s : State) (status : Status) (op : Opcode) : State :=
  s.respond status (List.replicate op.resultLen 0)

/-- The refusal of a packet with no defined opcode: the single byte 0x07 (R95, R278). -/
def State.raiseBadOpcode (s : State) : State := s.respond .badOpcode []

/-- The handler's return (R55, R188): the open transfer ends, its segment becomes EMPTY, and SR_FEED's response is sent,
`completed` 1 and `valid_len` 0 (R186). With no transfer open nothing happens (log 4). -/
def State.handlerReturn (s : State) : State :=
  match s.sr.callout with
  | none => s
  | some c => ((s.setSeg c (s.seg c).emptied).setCallout none).respond .ok (le 1 1 ++ le32 0)

/-! ### Buffers -/

/-- `MemWrite(SEG[c], addr, n, v)` (R62). -/
def State.segWrite (s : State) (c : Channel) (addr : Nat) (v : Bytes) : Except Fault State :=
  if s.params.segCeiling < addr + v.length then .error (.outOfSpace (.seg c) addr)
  else .ok (s.setSeg c { s.seg c with buf := Cells.write (s.seg c).buf addr v })

/-- `MemRead(SEG[c], addr, n)` (R62). -/
def State.segRead (s : State) (c : Channel) (addr n : Nat) : Except Fault Bytes :=
  if s.params.segCeiling < addr + n then .error (.outOfSpace (.seg c) addr)
  else
    match Cells.read (s.seg c).buf addr n with
    | none => .error (.unwritten (.seg c) addr)
    | some bs => .ok bs

/-- The offset of STORE row i in `store` (log 15). -/
def State.rowBase (s : State) (i : Nat) : Nat := i * s.params.protoMaxPayload

/-- An access of n bytes from the start of row i lies inside STORE and inside the row (R61, R62). -/
def State.rowFits (s : State) (i n : Nat) : Bool :=
  decide (i < s.params.fsMaxShards) && decide (n ≤ s.params.protoMaxPayload)

/-- `MemWrite(STORE, (i, 0), n, v)` (R62). -/
def State.storeWrite (s : State) (i : Nat) (v : Bytes) : Except Fault State :=
  if s.rowFits i v.length then .ok (s.setFs { s.fs with store := Cells.write s.fs.store (s.rowBase i) v })
  else .error (.outOfSpace .store (s.rowBase i))

/-- `MemRead(STORE, (i, 0), rowlen[i])` (R82): the payload of shard i of the frame in flight. -/
def State.storeRow (s : State) (i : Nat) : Except Fault Bytes :=
  let n := (s.fs.rowlen.at i).toNat
  if s.rowFits i n then
    match Cells.read s.fs.store (s.rowBase i) n with
    | none => .error (.unwritten .store (s.rowBase i))
    | some bs => .ok bs
  else .error (.outOfSpace .store (s.rowBase i))

/-- A computation over the buffers as the outcome of a command. -/
def ofExcept : Except Fault State → Host.Outcome State Fault Refusal
  | .ok s => .next s
  | .error f => .fault f

/-! ### Which event is taken next -/

/-- What holds commands back (log 3): nothing, an open callout, or an open callout with a RESET waiting behind it. -/
inductive Gate where
  | free
  | callout
  | resetWaits
deriving DecidableEq, Repr

/-- Whether a packet is addressed to the SR unit, by its opcode byte (R91), well formed or not (DESIGN CHOICE, log 3). -/
def toReassembler (packet : Bytes) : Bool :=
  packet.head? == some Opcode.srBegin.byte || packet.head? == some Opcode.srFeed.byte

/-- Whether a packet is addressed to the whole block, by its opcode byte (R91), well formed or not: during a callout `7F 00`
waits as RESET does, and holds back what is behind it (DESIGN CHOICE, log 3; the spec does not say). -/
def toWholeBlock (packet : Bytes) : Bool := packet.head? == some Opcode.reset.byte

/-- Whether an event must wait: while a callout is open the SR unit is busy (R57, R193), a RESET waits for the command in
progress (R324), and a command that arrives after a RESET is ordered after it (R311). DESIGN CHOICE (log 3), where the spec
is silent: a malformed packet with the opcode byte of SR_BEGIN, SR_FEED or RESET waits as that command does, a packet of an
undefined opcode and an empty packet do not wait for the callout, and every packet waits behind a waiting 0x7F. -/
def Gate.holds : Gate → PortIn → Bool
  | .free, _ => false
  | .callout, .command p => toReassembler p || toWholeBlock p
  | .resetWaits, .command _ => true
  | .callout, .handlerReturn => false
  | .resetWaits, .handlerReturn => false

/-- The gate for the events behind one that waits. -/
def Gate.behind : Gate → PortIn → Gate
  | .callout, .command p => if toWholeBlock p then .resetWaits else .callout
  | g, _ => g

/-- The oldest arrived event that need not wait, and the others in their order. -/
def takeEvent : Gate → List PortIn → Option (PortIn × List PortIn)
  | _, [] => none
  | g, e :: rest =>
    if g.holds e then (takeEvent (g.behind e) rest).map (fun r => (r.1, e :: r.2)) else some (e, rest)

/-- The gate of a state. -/
def State.gate (s : State) : Gate := if s.sr.callout.isSome then .callout else .free

/-- The event that the next step takes, and the state with it taken; none if no event can be taken. -/
def State.nextEvent (s : State) : Option (PortIn × State) :=
  (takeEvent s.gate s.input).map (fun r => (r.1, s.setInput r.2))

end Sys2Proof.Machine
end

