-- ==== Sys2Proof/Machine/ClockSync.lean ====
section
/-! DEFINITION. The ClockSync commands CS_SEND, CS_REPLY, CS_EXT (spec/41_clock_sync.md). -/

namespace Sys2Proof.Machine

/-- The registers after CS_SEND (R152): the id is incremented first, and `org` is recorded. -/
def ClockSync.sent (w : Nat) (nowNs : I64) (x : ClockSync) : ClockSync :=
  { x with echoId := truncId w (x.echoId + 1), lastEchoSentNs := nowNs, state := .echoSent }

/-- CS_SEND (R152). -/
def execCsSend (nowNs : I64) (s : State) : Host.Outcome State Fault Refusal :=
  let x := s.cs.sent s.params.echoIdBits nowNs
  .next ((s.setCs x).respond .ok (le32 x.echoId ++ le64 nowNs))

/-- The round-trip delay of `echo_math` (R156). -/
def echoRtt (now org recv xmt : I64) : I64 := (now - org) - (xmt - recv)

/-- The offset of `echo_math` (R156). -/
def echoOffset (now org recv xmt : I64) : I64 := tdiv2 ((recv - org) + (xmt - now))

/-- The tests of CS_REPLY (R155): an exchange is pending and the id is its id. -/
def ClockSync.matchesReply (w : Nat) (id : U32) (x : ClockSync) : Bool :=
  decide (x.state = .echoSent) && decide (truncId w id = x.echoId) && decide (id.toNat < 2 ^ w)

/-- The registers after an accepted reply (R157). -/
def ClockSync.accepted (nowNs xmt offset : I64) (x : ClockSync) : ClockSync :=
  { x with nsOffset := offset, lastEchoRecvNs := nowNs, lastXmt := xmt, state := .settled }

/-- CS_REPLY (R155, R157). -/
def execCsReply (nowNs : I64) (id : U32) (org recv xmt : I64) (s : State) : Host.Outcome State Fault Refusal :=
  if s.cs.matchesReply s.params.echoIdBits id then
    let offset := echoOffset nowNs org recv xmt
    .next ((s.setCs (s.cs.accepted nowNs xmt offset)).respond .ok
      (le64 (echoRtt nowNs org recv xmt) ++ le64 org ++ le64 recv ++ le64 xmt ++ le64 offset))
  else .next (s.raise .staleEcho .csReply)

/-- `delta` of CS_EXT (R161, R162): a drop of more than 2^31 is a wrap. -/
def extDelta (t l : U32) : Int :=
  if t.toNat < l.toNat ∧ 2 ^ 31 < l.toNat - t.toNat then (t.toNat : Int) - l.toNat + 2 ^ 32
  else (t.toNat : Int) - l.toNat

/-- `ext_ns` of CS_EXT (R161). -/
def extendNs (t l : U32) (lastTsNs : I64) : I64 := lastTsNs + BitVec.ofInt 64 (extDelta t l * 1000)

/-- `ns_offset` applied to an extended time (R161). -/
def applyOffset : OffsetApply → I64 → I64 → I64
  | .subtract, ext, off => ext - off
  | .add, ext, off => ext + off

/-- CS_EXT (R161). -/
def execCsExt (ts32Us lastTs32 : U32) (lastTsNs : I64) (s : State) : Host.Outcome State Fault Refusal :=
  let ext := extendNs ts32Us lastTs32 lastTsNs
  .next (s.respond .ok (le64 ext ++ le64 (applyOffset s.params.offsetApply ext s.cs.nsOffset)))

end Sys2Proof.Machine
end

