-- ==== Sys2Proof/Machine/Fec.lean ====
section
/-! DEFINITION. The FecEncoder (spec/44_fec_encoder.md): the parity count, the rows, the reference coder R244 to R249, and
`fec_finalize` R240. -/

namespace Sys2Proof.Machine

/-- The parity count p of k data shards (R241). -/
def parityCount (k : Nat) : Nat := max Config.fecMin (ceilDiv (k * Config.fecNum) Config.fecDen)

/-! ### The field (R244, R245) -/

/-- POLY_m (R15). -/
def fieldPoly (m : Nat) : BitVec (m + 1) := if m = 8 then BitVec.ofNat (m + 1) 0x11D else BitVec.ofNat (m + 1) 0x1100B

/-- `a <- a << 1` to m+1 bits, reduced by POLY_m where bit m is set (R244). -/
def gfDouble {m : Nat} (a : BitVec m) : BitVec m :=
  let a2 : BitVec (m + 1) := a.setWidth (m + 1) <<< 1
  (if a2.getLsbD m then a2 ^^^ fieldPoly m else a2).setWidth m

/-- The loop of `gmul_m` (R244), for n more bits of b. -/
def gmulLoop {m : Nat} : Nat → BitVec m → BitVec m → BitVec m → BitVec m
  | 0, _, _, r => r
  | n + 1, a, b, r => gmulLoop n (gfDouble a) (b >>> 1) (if b.getLsbD 0 then r ^^^ a else r)

/-- `gmul_m(a, b)` (R244): b has m bits, so m rounds exhaust it. -/
def gmul {m : Nat} (a b : BitVec m) : BitVec m := gmulLoop m a b 0

/-- a raised to the power e by square-and-multiply, for e below 2^n (R245). -/
def gpow {m : Nat} : Nat → BitVec m → Nat → BitVec m
  | 0, _, _ => BitVec.ofNat m 1
  | n + 1, a, e =>
    let h := gpow n (gmul a a) (e / 2)
    if e % 2 = 1 then gmul a h else h

/-- `ginv_m(a)` (R245): a raised to the power 2^m - 2. -/
def ginv {m : Nat} (a : BitVec m) : BitVec m := gpow m a (2 ^ m - 2)

/-! ### The reference coder (R246 to R249) -/

/-- The 16-bit symbols of a row of even length (R246). -/
def symbols16 : Bytes → List (BitVec 16)
  | lo :: hi :: rest => (hi ++ lo) :: symbols16 rest
  | _ => []

/-- The bytes of 16-bit symbols, low byte first (R246). -/
def bytes16 : List (BitVec 16) → Bytes
  | [] => []
  | x :: xs => x.extractLsb' 0 8 :: x.extractLsb' 8 8 :: bytes16 xs

/-- The coefficient C[j][i] of the Cauchy matrix for k data rows (R248). -/
def cauchy (m k j i : Nat) : BitVec m := ginv (BitVec.ofNat m i ^^^ BitVec.ofNat m (k + j))

/-- Column by column, the terms of one data row added to a parity row (R249). -/
def addTerms {m : Nat} (c : BitVec m) (par row : List (BitVec m)) : List (BitVec m) :=
  List.zipWith (fun x y => x ^^^ gmul c y) par row

/-- Parity row j from the data rows from index i on, added to the terms of the rows before (R249). -/
def parityFrom {m : Nat} (k j : Nat) : Nat → List (List (BitVec m)) → List (BitVec m) → List (BitVec m)
  | _, [], par => par
  | i, row :: rows, par => parityFrom k j (i + 1) rows (addTerms (cauchy m k j i) par row)

/-- Parity row j of k rows of n symbols each (R249). -/
def parityRow {m : Nat} (k n j : Nat) (rows : List (List (BitVec m))) : List (BitVec m) :=
  parityFrom k j 0 rows (List.replicate n 0)

/-- The reference coder (R247 to R249): none is `unavailable`. -/
def referenceCoder (k p len : Nat) (rows : List Bytes) : Option FecAnswer :=
  if k + p ≤ 256 then some ⟨8, (List.range p).map (fun j => parityRow k len j rows)⟩
  else if k + p ≤ 65536 ∧ len % 2 = 0 then
    some ⟨16, (List.range p).map (fun j => bytes16 (parityRow k (len / 2) j (rows.map symbols16)))⟩
  else none

/-- A coder known by a number: it meets R243, and nothing else is known of it; a number that names no coder is `unavailable`
for every frame (log 11). -/
def customCoder (name k p len : Nat) (rows : List Bytes) : Option FecAnswer :=
  match Config.coder name with
  | none => none
  | some c => c.answer k p len rows

/-- FecCoder of the instance (R8). -/
def fecCoder : CoderChoice → (k p len : Nat) → List Bytes → Option FecAnswer
  | .reference, k, p, len, rows => referenceCoder k p len rows
  | .custom name, k, p, len, rows => customCoder name k p len rows

/-! ### The finalize step (R240) -/

/-- L, the length of the longest of the first k shards (R240, R242). -/
def State.paddedLen (s : State) (k : Nat) : Nat :=
  ((List.range k).map (fun i => (s.fs.rowlen.at i).toNat)).foldl max 0

/-- A payload followed by zero bytes up to len (R242). -/
def padRow (len : Nat) (payload : Bytes) : Bytes := payload ++ List.replicate (len - payload.length) 0

/-- The payloads of n shards from shard i on. -/
def State.storeRows (s : State) (i : Nat) : Nat → Except Fault (List Bytes)
  | 0 => .ok []
  | n + 1 =>
    match s.storeRow i with
    | .error f => .error f
    | .ok row =>
      match s.storeRows (i + 1) n with
      | .error f => .error f
      | .ok rows => .ok (row :: rows)

/-- The PARITY packets of the rows, in increasing index (R118, R251). -/
def parityPackets (streamIdx : Byte) (frameIdx : U64) (k p : Nat) (rows : List Bytes) : List PortOut :=
  rows.mapIdx (fun j row => .tx .parity j
    (ParityShard.serialize ⟨streamIdx, frameIdx, BitVec.ofNat 32 k, BitVec.ofNat 32 p, row⟩))

/-- What `fec_finalize` decides: the status, the result block and the parity packets. -/
structure FecResult where
  status : Status
  results : Bytes
  packets : List PortOut
deriving DecidableEq, Repr

/-- The result block of FS_FINAL (R106). -/
def finalResults (k p len : Nat) (fieldBits : Byte) : Bytes := le 4 k ++ le 4 p ++ le 4 len ++ [fieldBits]

/-- `fec_finalize` on the k rows of length `len` (R240, R250). -/
def fecResult (coder : CoderChoice) (streamIdx : Byte) (frameIdx : U64) (k len : Nat) (payloads : List Bytes) :
    FecResult :=
  let p := parityCount k
  match fecCoder coder k p len (payloads.map (padRow len)) with
  | none => ⟨.fecUnavailable, finalResults k p len 0, []⟩
  | some a => ⟨.ok, finalResults k p len a.fieldBits, parityPackets streamIdx frameIdx k p a.rows⟩

end Sys2Proof.Machine
end

