-- ==== Sys2Proof/Machine/FrameSharder.lean ====
section
/-! DEFINITION. The FrameSharder and the FS_FINAL command (spec/43_frame_sharder.md). -/

namespace Sys2Proof.Machine

/-- The index of the last shard created, `next_idx - 1` (R44). -/
def Sharder.lastIdx (x : Sharder) : U32 := x.nextIdx - 1

/-- The held shard with this payload (R44, R215). -/
def Sharder.heldShard (x : Sharder) (view : Option ViewInfo) (payload : Bytes) : Shard :=
  ⟨x.streamIdx, x.frameIdx, x.lastIdx, x.heldFlags, payload, view⟩

/-- `release_held(view)` (R215). -/
def State.releaseHeld (s : State) (view : Option ViewInfo) : Except Fault State :=
  match s.storeRow s.fs.lastIdx.toNat with
  | .error f => .error f
  | .ok payload =>
    .ok ((s.emit [.tx .data 0 (s.fs.heldShard view payload).serialize]).setFs { s.fs with heldValid := false })

/-- The first step of `new_shard` (R214): the shard in the delay, if any, is released without view_info. -/
def State.releaseIfHeld (s : State) : Except Fault State := if s.fs.heldValid then s.releaseHeld none else .ok s

/-- The other steps of `new_shard` (R214): the shard is stored and held. -/
def State.holdShard (s : State) (flags : Byte) (payload : Bytes) : Except Fault State :=
  match s.storeWrite s.fs.nextIdx.toNat payload with
  | .error f => .error f
  | .ok s1 =>
    .ok (s1.setFs { s1.fs with
      rowlen := s1.fs.rowlen.set s.fs.nextIdx.toNat (BitVec.ofNat 32 payload.length)
      nextIdx := s.fs.nextIdx + 1
      heldFlags := flags
      heldValid := true })

/-- `new_shard(flags, payload)` (R214). -/
def State.newShard (s : State) (flags : Byte) (payload : Bytes) : Except Fault State :=
  match s.releaseIfHeld with
  | .error f => .error f
  | .ok s1 => s1.holdShard flags payload

/-- The first n pieces of at most `maxPayload` bytes (R211, R213). -/
def cut (maxPayload : Nat) : Nat → Bytes → List Bytes
  | 0, _ => []
  | n + 1, d => d.take maxPayload :: cut maxPayload n (d.drop maxPayload)

/-- n of FS_PUSH: the number of shards that a push of `len` bytes creates (R211). -/
def shardCount (len maxPayload : Nat) : Nat := ceilDiv len maxPayload

/-- The payloads of the shards of one push (R211, R213). -/
def pieces (maxPayload : Nat) (data : Bytes) : List Bytes := cut maxPayload (shardCount data.length maxPayload) data

/-- The loop of FS_PUSH (R211): the shards from number j of the n of this push. -/
def State.pushFrom (s : State) (n : Nat) : Nat → List Bytes → Except Fault State
  | _, [] => .ok s
  | j, d :: ds =>
    match s.newShard (sliceFlags j n) d with
    | .error f => .error f
    | .ok s1 => s1.pushFrom n (j + 1) ds

/-- `check_push` (R212): true where the push is accepted. -/
def State.pushAccepted (s : State) (streamIdx : Byte) (frameIdx : U64) (maxPayload : U32) (len : Nat) : Bool :=
  decide (maxPayload ≠ 0) && decide (maxPayload.toNat ≤ s.params.protoMaxPayload) &&
    (!s.fs.isOpen || (decide (frameIdx = s.fs.frameIdx) && decide (streamIdx = s.fs.streamIdx))) &&
    decide ((if s.fs.isOpen then s.fs.nextIdx.toNat else 0) + shardCount len maxPayload.toNat + 1 ≤ s.params.fsMaxShards)

/-- The frame is opened if none is in flight (R210, R211). -/
def State.openFrame (s : State) (streamIdx : Byte) (frameIdx : U64) : State :=
  if s.fs.isOpen then s
  else
    s.setFs { s.fs with
      isOpen := true, frameIdx := frameIdx, streamIdx := streamIdx, nextIdx := 0, heldValid := false, heldFlags := 0 }

/-- `res.released` of FS_PUSH (R211). -/
def releasedCount (before : Bool) (n : Nat) : Nat := if n = 0 then 0 else (if before then 1 else 0) + n - 1

/-- FS_PUSH once `check_push` has passed and the frame is open (R211). -/
def State.push (s : State) (maxPayload : Nat) (data : Bytes) : Except Fault State :=
  let n := shardCount data.length maxPayload
  match s.pushFrom n 0 (pieces maxPayload data) with
  | .error f => .error f
  | .ok s1 => .ok (s1.respond .ok (le 4 n ++ le 4 (releasedCount s.fs.heldValid n)))

/-- FS_PUSH (R211 to R217). -/
def execFsPush (streamIdx : Byte) (frameIdx : U64) (maxPayload : U32) (data : Bytes) (s : State) :
    Host.Outcome State Fault Refusal :=
  if s.pushAccepted streamIdx frameIdx maxPayload data.length then
    ofExcept ((s.openFrame streamIdx frameIdx).push maxPayload.toNat data)
  else .next (s.raise .argError .fsPush)

/-- Whether FS_FINAL makes one more, empty shard: the frame has none yet, or the last has no room for the view_info
(R218 to R220). -/
def State.needsExtraShard (s : State) : Bool :=
  !s.fs.heldValid ||
    decide (s.params.protoMaxPayload < (s.fs.rowlen.at s.fs.lastIdx.toNat).toNat + s.params.viewBytes)

/-- The extra empty shard, where it is needed (R219, R220). -/
def State.extraShard (s : State) : Except Fault State :=
  if s.needsExtraShard then s.newShard (startOfSlice ||| endOfSlice) [] else .ok s

/-- END_OF_FRAME is set on the held shard (R218). -/
def State.markEndOfFrame (s : State) : State := s.setFs { s.fs with heldFlags := s.fs.heldFlags ||| endOfFrame }

/-- The frame context is closed (R218). -/
def State.closeFrame (s : State) : State :=
  s.setFs { s.fs with isOpen := false, nextIdx := 0, heldValid := false, heldFlags := 0 }

/-- The parity half of FS_FINAL (R240), the close of the frame, and the response (R218). -/
def State.finishFrame (s : State) : Except Fault State :=
  let k := s.fs.nextIdx.toNat
  match s.storeRows 0 k with
  | .error f => .error f
  | .ok payloads =>
    let r := fecResult s.params.coder s.fs.streamIdx s.fs.frameIdx k (s.paddedLen k) payloads
    .ok ((s.emit r.packets).closeFrame.respond r.status r.results)

/-- FS_FINAL once its test has passed (R218). -/
def State.final (s : State) (view : ViewInfo) : Except Fault State :=
  match s.extraShard with
  | .error f => .error f
  | .ok s1 =>
    match s1.markEndOfFrame.releaseHeld (some view) with
    | .error f => .error f
    | .ok s2 => s2.finishFrame

/-- FS_FINAL (R218 to R220, R240). -/
def execFsFinal (frameIdx : U64) (displayTime : I64) (pose : Bytes) (s : State) : Host.Outcome State Fault Refusal :=
  if s.fs.isOpen && decide (frameIdx = s.fs.frameIdx) then ofExcept (s.final ⟨displayTime, pose⟩)
  else .next (s.raise .argError .fsFinal)

end Sys2Proof.Machine
end

