-- ==== Sys2Proof/Machine/HeaderCodec.lean ====
section
/-! DEFINITION. The HeaderCodec commands HI_ENC, HI_DEC, ECHO_PACK, ECHO_UNPACK (spec/40_header_codec.md). They read and
write no register (R130): the next state differs in the response alone. -/

namespace Sys2Proof.Machine

/-- The encoded packet of HI_ENC: header, then payload (R112, R131). -/
def hiEncPacket (messageType : Byte) (result : U16) (streamSize aux : U32) (data : Bytes) : Bytes :=
  (HostInfo.ofOperands messageType result streamSize aux).bytes ++ data

/-- `res.dlen` of HI_ENC, 8 + len(payload) (R131); a free value where that does not fit 32 bits (DESIGN CHOICE, safe,
log 10). -/
def hiEncDlen (data : Bytes) : U32 :=
  if 8 + data.length < 2 ^ 32 then BitVec.ofNat 32 (8 + data.length) else Config.overlongDlen data

/-- HI_ENC (R131). -/
def execHiEnc (messageType : Byte) (result : U16) (streamSize aux : U32) (data : Bytes) (s : State) :
    Host.Outcome State Fault Refusal :=
  .next (s.respond .ok (le32 (hiEncDlen data) ++ hiEncPacket messageType result streamSize aux data))

/-- The result block and data of HI_DEC on at least 8 bytes (R97, R133). -/
def hiDecResults (data : Bytes) : Bytes :=
  let h := HostInfo.ofBytes data
  [h.messageType.setWidth 8] ++ le16 (h.result.setWidth 16) ++ le32 h.streamSize ++ le32 h.aux ++
    le 4 (data.length - 8) ++ data.drop 8

/-- HI_DEC (R133). -/
def execHiDec (data : Bytes) (s : State) : Host.Outcome State Fault Refusal :=
  if data.length < 8 then .next (s.raise .framingError .hiDec) else .next (s.respond .ok (hiDecResults data))

/-- ECHO_PACK (R136). -/
def execEchoPack (org recv xmt offset : I64) (s : State) : Host.Outcome State Fault Refusal :=
  .next (s.respond .ok (echoPayload org recv xmt offset))

/-- ECHO_UNPACK (R137). -/
def execEchoUnpack (data : Bytes) (s : State) : Host.Outcome State Fault Refusal :=
  if data.length < 32 then .next (s.raise .framingError .echoUnpack)
  else .next (s.respond .ok (le64 (i64At 0 data) ++ le64 (i64At 8 data) ++ le64 (i64At 16 data) ++ le64 (i64At 24 data)))

end Sys2Proof.Machine
end

