-- ==== Sys2Proof/Machine/Reassembler.lean ====
section
/-! DEFINITION. The SegmentedPacketReassembler commands SR_BEGIN and SR_FEED (spec/42_reassembler.md). -/

namespace Sys2Proof.Machine

/-- The segment after an accepted SR_BEGIN (R182): `capacity` grows to `expected_len` where that is larger. -/
def Segment.begun (expectedLen : U32) (g : Segment) : Segment :=
  { g with
    capacity := if g.capacity < expectedLen then expectedLen else g.capacity
    expectedLen := expectedLen
    validLen := 0
    state := .accumulating }

/-- SR_BEGIN (R181 to R185). -/
def execSrBegin (channel : Byte) (expectedLen : U32) (s : State) : Host.Outcome State Fault Refusal :=
  match Channel.ofByte? channel with
  | none => .next (s.raise .argError .srBegin)
  | some c =>
    if s.params.segCeiling < expectedLen.toNat then .next (s.raise .capacityError .srBegin)
    else
      let g := (s.seg c).begun expectedLen
      .next ((s.setSeg c g).respond .ok (le32 g.capacity))

/-- `expected_len - valid_len` (R186), never negative by R37. -/
def Segment.room (g : Segment) : Nat := g.expectedLen.toNat - g.validLen.toNat

/-- The end of SR_FEED once the bytes are appended (R186, R188): where the segment is full it becomes COMPLETE and its
view goes out on PKT_OUT, and the response waits for the handler's return (`State.handlerReturn`; R55, R335). -/
def State.feedDone (s : State) (c : Channel) (validLen : U32) : Except Fault State :=
  let g := s.seg c
  if validLen = g.expectedLen then
    let s1 := s.setSeg c { g with validLen := validLen, state := .complete }
    match s1.segRead c 0 g.expectedLen.toNat with
    | .error f => .error f
    | .ok view => .ok ((s1.setCallout (some c)).emit [.pktOut c g.expectedLen view])
  else .ok ((s.setSeg c { g with validLen := validLen }).respond .ok (le 1 0 ++ le32 validLen))

/-- The append of SR_FEED (R186). -/
def State.feed (s : State) (c : Channel) (data : Bytes) : Except Fault State :=
  match s.segWrite c (s.seg c).validLen.toNat data with
  | .error f => .error f
  | .ok s1 => s1.feedDone c ((s.seg c).validLen + BitVec.ofNat 32 data.length)

/-- SR_FEED (R181, R186 to R191). -/
def execSrFeed (channel : Byte) (data : Bytes) (s : State) : Host.Outcome State Fault Refusal :=
  match Channel.ofByte? channel with
  | none => .next (s.raise .argError .srFeed)
  | some c =>
    if (s.seg c).state = .empty then
      if data = [] then .next (s.respond .ok (le 1 0 ++ le32 0)) else .next (s.raise .overrunError .srFeed)
    else if (s.seg c).room < data.length then
      .next ((s.setSeg c (s.seg c).emptied).raise .overrunError .srFeed)
    else ofExcept (s.feed c data)

end Sys2Proof.Machine
end

