-- ==== Sys2Proof/Machine/System.lean ====
section
/-! DEFINITION. The system command RESET (spec/70_reset_and_hazards.md R311, R312). -/

namespace Sys2Proof.Machine

/-- The registers after RESET (R311): every register that R311 lists is at its reset value; the buffers and the row
lengths keep their contents (R312; log 9), the parameters too; no transfer is open. -/
def State.resetRegisters (s : State) : State :=
  { s with
    cs := .atReset
    sr := ⟨s.sr.seg0.cleared, s.sr.seg1.cleared, s.sr.seg2.cleared, none⟩
    fs := { s.fs with
      isOpen := false, frameIdx := 0, streamIdx := 0, nextIdx := 0, heldValid := false, heldFlags := 0 } }

/-- RESET (R311). -/
def execReset (s : State) : Host.Outcome State Fault Refusal := .next (s.resetRegisters.respond .ok [])

end Sys2Proof.Machine
end

