-- ==== Sys2Proof/Machine/Dispatch.lean ====
section
/-! DEFINITION. Which meaning each command has: one arm per constructor of `Instr`. -/

namespace Sys2Proof.Machine

def exec (i : Instr) (s : State) : Host.Outcome State Fault Refusal :=
  match i with
  | .hiEnc mt rs ss aux d => Sys2Proof.Machine.execHiEnc mt rs ss aux d s
  | .hiDec d => Sys2Proof.Machine.execHiDec d s
  | .echoPack o r x f => Sys2Proof.Machine.execEchoPack o r x f s
  | .echoUnpack d => Sys2Proof.Machine.execEchoUnpack d s
  | .csSend now => Sys2Proof.Machine.execCsSend now s
  | .csReply now id o r x => Sys2Proof.Machine.execCsReply now id o r x s
  | .csExt t l ns => Sys2Proof.Machine.execCsExt t l ns s
  | .srBegin c n => Sys2Proof.Machine.execSrBegin c n s
  | .srFeed c d => Sys2Proof.Machine.execSrFeed c d s
  | .fsPush st fr mp d => Sys2Proof.Machine.execFsPush st fr mp d s
  | .fsFinal fr dt pose => Sys2Proof.Machine.execFsFinal fr dt pose s
  | .reset => Sys2Proof.Machine.execReset s

end Sys2Proof.Machine
end

