-- ==== Sys2Proof/Machine/Step.lean ====
section
/-! DEFINITION. One step of the block: it takes one arrived event (spec/20_memory.md R71, spec/70_reset_and_hazards.md
R335) and does what the event asks. -/

namespace Sys2Proof.Machine

/-- A command packet is answered (R92): its command is executed, or it is refused (R94, R95, R281). -/
def runPacket (packet : Bytes) (s : State) : Host.Outcome State Fault Refusal :=
  match decode s.params.poseBytes packet with
  | .ok i => exec i s
  | .malformed op => .next (s.raise .argError op)
  | .badOpcode => .next s.raiseBadOpcode

/-- One step. With no event to take the block is idle and keeps its state (R288; log 13). -/
def step (s : State) : Host.Outcome State Fault Refusal :=
  match s.nextEvent with
  | none => .next s
  | some (.command packet, s1) => runPacket packet s1
  | some (.handlerReturn, s1) => .next s1.handlerReturn

/-- The state with the packet of a table word arrived ahead of every other event, and no callout open, so that the next
step takes exactly it (log 2, 17). -/
def State.withFetchWord (s : State) (nbits w : Nat) : State :=
  (s.setCallout none).setInput (.command (tablePacket s.params.poseBytes nbits w) :: s.input)

end Sys2Proof.Machine
end

