-- ==== Sys2Proof/Machine/Issuer.lean ====
section
/-! DEFINITION. What an issuer of commands does around the block: the pseudo-commands (spec/30_encoding.md R121), each a
fixed sequence of commands whose later operands are earlier results, and the TopicPacket record of the framing layer
below (spec/10_state.md R49). No step of the block uses anything of this file. -/

namespace Sys2Proof.Machine

/-- The newest response among these outputs, empty if there is none. -/
def newestResponse : List PortOut → Bytes
  | [] => []
  | .resp p :: os => if newestResponse os = [] then p else newestResponse os
  | .tx .. :: os => newestResponse os
  | .pktOut .. :: os => newestResponse os

/-- A sequence goes on after the statuses OK and FecUnavailable alone (R121). -/
def sequenceGoesOn (response : Bytes) : Bool :=
  response.head? == some Status.ok.byte || response.head? == some Status.fecUnavailable.byte

/-- A command, and then the rest of its sequence with the result bytes of its response (R121). -/
def thenWith (i : Instr) (rest : Bytes → State → Host.Outcome State Fault Refusal) (s : State) :
    Host.Outcome State Fault Refusal :=
  match exec i s with
  | .fault f => .fault f
  | .refused r => .refused r
  | .next t =>
    if sequenceGoesOn (newestResponse t.output) then rest ((newestResponse t.output).drop 1) t else .next t

/-- A little-endian field of n bytes at offset o of a result block. -/
def resultField (o n : Nat) (results : Bytes) : Nat := fromLe ((results.drop o).take n)

/-- ECHO_BUILD (R121): CS_SEND, ECHO_PACK, HI_ENC with the id in `aux` and `message_type` MT_ECHO (R114). -/
def echoBuild (nowNs : I64) (s : State) : Host.Outcome State Fault Refusal :=
  thenWith (.csSend nowNs)
    (fun sent => thenWith (.echoPack (i64At 4 sent) 0 0 0)
      (fun payload t => exec (.hiEnc (t.params.mtEcho.setWidth 8) 0 32 (BitVec.ofNat 32 (resultField 0 4 sent)) payload) t))
    s

/-- ECHO_TAKE (R121): HI_DEC, ECHO_UNPACK, CS_REPLY with the id from `aux` (R114). -/
def echoTake (nowNs : I64) (message : Bytes) (s : State) : Host.Outcome State Fault Refusal :=
  thenWith (.hiDec message)
    (fun header => thenWith (.echoUnpack (header.drop 15))
      (fun echo => exec
        (.csReply nowNs (BitVec.ofNat 32 (resultField 7 4 header)) (i64At 0 echo) (i64At 8 echo) (i64At 16 echo))))
    s

/-- SR_PACKET (R121): SR_BEGIN for the length of the bytes, SR_FEED of all of them. -/
def srPacket (channel : Byte) (data : Bytes) (s : State) : Host.Outcome State Fault Refusal :=
  thenWith (.srBegin channel (BitVec.ofNat 32 data.length)) (fun _ => exec (.srFeed channel data)) s

/-- The TopicPacket record (R49): the block holds none, and no command takes one. -/
structure TopicPacket where
  topic : Byte
  sequenceNum : U16
  payload : Bytes
  payloadValid : U32
  remainderOffs : U32
  missingBytes : U32
  recvNs : I64
deriving DecidableEq, Repr

/-- The one rule that R49 gives for it: `missing_bytes < 0` (an i32) says that more data is expected, so the issuer goes
on feeding the current segment. -/
def TopicPacket.expectsMore (p : TopicPacket) : Bool := decide (p.missingBytes.toInt < 0)

end Sys2Proof.Machine
end

