-- ==== Sys2Proof/Safety.lean ====
section
/-! DEFINITION. What a safe state and a safe run are: the invariants that spec/10_state.md R37, R38, R45 and R59 state,
and the outcomes that R283 and R334 rule out. -/

namespace Sys2Proof.Safety

open Sys2Proof.Machine

/-- The n keys from a all have a value. -/
abbrev Written {α : Type} (m : Cells α) (a n : Nat) : Prop := ∀ o, o < n → Cells.get? m (a + o) ≠ none

/-- R37 and R38 for one channel, the canonical form of its buffer, and R59: every byte below `valid_len` is written. -/
structure SegInv (ceiling : Nat) (g : Segment) : Prop where
  valid_le : g.validLen.toNat ≤ g.expectedLen.toNat
  expected_le : g.expectedLen.toNat ≤ g.capacity.toNat
  capacity_le : g.capacity.toNat ≤ ceiling
  empty_lens : g.state = .empty → g.validLen = 0 ∧ g.expectedLen = 0
  complete_full : g.state = .complete → g.validLen = g.expectedLen
  buf_wf : Memory.wf g.buf
  buf_inside : ∀ e ∈ g.buf, e.1 < ceiling
  written : Written g.buf 0 g.validLen.toNat

/-- R57 item 2: a segment is COMPLETE exactly while its PKT_OUT transfer is open. -/
abbrev CalloutInv (s : State) : Prop := ∀ c, (s.seg c).state = .complete ↔ s.sr.callout = some c

/-- R45, R220 and R212 item 3 for the frame context, the canonical forms, and R59: every byte of a row below its length
is written. -/
structure ShardInv (p : Params) (x : Sharder) : Prop where
  closed : x.isOpen = false → x.heldValid = false ∧ x.nextIdx = 0
  held : x.heldValid = true → x.isOpen = true ∧ x.nextIdx ≠ 0
  unheld : x.heldValid = false → x.nextIdx = 0
  room : x.nextIdx.toNat + 1 ≤ p.fsMaxShards
  flags : x.heldFlags &&& 0xF8 = 0
  rowlen_wf : RowLens.wf x.rowlen
  rowlen_inside : ∀ e ∈ x.rowlen, e.1 < p.fsMaxShards
  rowlen_le : ∀ i, i < x.nextIdx.toNat → (x.rowlen.at i).toNat ≤ p.protoMaxPayload
  store_wf : Memory.wf x.store
  store_inside : ∀ e ∈ x.store, e.1 < p.fsMaxShards * p.protoMaxPayload
  written : ∀ i, i < x.nextIdx.toNat → Written x.store (i * p.protoMaxPayload) (x.rowlen.at i).toNat

/-- The invariant of the machine. -/
structure Inv (s : State) : Prop where
  params : s.params.Valid
  echo_id : s.cs.echoId.toNat < 2 ^ s.params.echoIdBits
  segs : ∀ c, SegInv s.params.segCeiling (s.seg c)
  callout : CalloutInv s
  shards : ShardInv s.params s.fs

/-- A step goes on: it neither faults nor refuses (R283, R334). -/
def GoesOn (o : Host.Outcome State Fault Refusal) : Prop := ∃ t, o = .next t

/-- The state after k steps, if every one of them goes on. -/
def runFrom : Nat → State → Option State
  | 0, s => some s
  | k + 1, s =>
    match step s with
    | .next t => runFrom k t
    | .fault _ => none
    | .refused _ => none

/-! ### The words of the statements -/

/-- Every register, every buffer, the parameters and the arrived events are as they were. -/
structure SameState (s t : State) : Prop where
  params : t.params = s.params
  cs : t.cs = s.cs
  sr : t.sr = s.sr
  fs : t.fs = s.fs
  input : t.input = s.input

/-- Every channel but c is as it was, and so is everything outside the SR unit. -/
structure SameOutsideChannel (c : Channel) (s t : State) : Prop where
  params : t.params = s.params
  cs : t.cs = s.cs
  fs : t.fs = s.fs
  input : t.input = s.input
  others : ∀ d, d ≠ c → t.seg d = s.seg d

/-- Everything outside the FS and FE unit is as it was. -/
structure SameOutsideSharder (s t : State) : Prop where
  params : t.params = s.params
  cs : t.cs = s.cs
  sr : t.sr = s.sr
  input : t.input = s.input

/-- From s to t the block puts out one response, of this status and with these bytes after it, and nothing else. -/
abbrev Answers (s t : State) (status : Byte) (results : Bytes) : Prop := t.output = s.output ++ [.resp (status :: results)]

/-- Commands one after another, each on the state that the one before left. -/
def execAll : List Instr → State → Host.Outcome State Fault Refusal
  | [], s => .next s
  | i :: is, s =>
    match exec i s with
    | .next t => execAll is t
    | .fault f => .fault f
    | .refused r => .refused r

/-- A command to its response: where it opened a callout, the handler has returned too. -/
def execToResponse (i : Instr) (s : State) : Host.Outcome State Fault Refusal :=
  match exec i s with
  | .next t => .next t.handlerReturn
  | .fault f => .fault f
  | .refused r => .refused r

/-- The bytes of the DATA packets among these outputs, in order. -/
def dataPackets (os : List PortOut) : List Bytes :=
  os.filterMap (fun o => match o with
    | .tx .data _ b => some b
    | .tx .parity _ _ => none
    | .resp _ => none
    | .pktOut .. => none)

/-- The PKT_OUT transfers among these outputs, in order. -/
def transfers (os : List PortOut) : List (Channel × U32 × Bytes) :=
  os.filterMap (fun o => match o with
    | .pktOut c n v => some (c, n, v)
    | .tx .. => none
    | .resp _ => none)

/-- Every one of these arrived events waits while a callout is open (R193, R324; DESIGN CHOICE of log 3): it is a packet with
the opcode byte of SR_BEGIN, SR_FEED or RESET, or a packet behind one with the opcode byte of RESET. -/
def AllWait (events : List PortIn) : Prop :=
  ∀ (before after : List PortIn) (e : PortIn), events = before ++ e :: after →
    ∃ p, e = .command p ∧ (p.head? = some 0x20 ∨ p.head? = some 0x21 ∨ p.head? = some 0x7F ∨
      ∃ q, .command q ∈ before ∧ q.head? = some 0x7F)

/-- The units of the block (R2, R91). -/
inductive Agent where
  | hc
  | cs
  | sr
  | fs
  | block
deriving DecidableEq, Repr

/-- The unit that executes a command (R91). -/
def agentOf : Opcode → Agent
  | .hiEnc | .hiDec | .echoPack | .echoUnpack => .hc
  | .csSend | .csReply | .csExt => .cs
  | .srBegin | .srFeed => .sr
  | .fsPush | .fsFinal => .fs
  | .reset => .block

/-- The channel operand of a command of the SR unit. -/
def channelOf : Instr → Option Byte
  | .srBegin c _ => some c
  | .srFeed c _ => some c
  | .hiEnc .. | .hiDec _ | .echoPack .. | .echoUnpack _ | .csSend _ | .csReply .. | .csExt .. | .fsPush ..
  | .fsFinal .. | .reset => none

/-- The statuses that a well-formed command can return (R271). -/
def statusesOf : Opcode → List Byte
  | .hiEnc | .echoPack | .csSend | .csExt | .reset => [0x00]
  | .hiDec | .echoUnpack => [0x00, 0x01]
  | .csReply => [0x00, 0x05]
  | .srBegin => [0x00, 0x02, 0x06]
  | .srFeed => [0x00, 0x03, 0x06]
  | .fsPush => [0x00, 0x06]
  | .fsFinal => [0x00, 0x04, 0x06]

/-- Shard j of the pieces of at most mp bytes that a byte string is cut into (R213). -/
def pieceAt (mp : Nat) (data : Bytes) (j : Nat) : Bytes := (data.drop (j * mp)).take mp

/-- The bytes of a DATA packet (R115, R117). -/
def dataPacket (streamIdx : Byte) (frameIdx : U64) (shardIdx : Nat) (flags : Byte) (view payload : Bytes) : Bytes :=
  [streamIdx] ++ le 8 frameIdx.toNat ++ le 4 shardIdx ++ [flags] ++ view ++ payload

/-- The bytes of a PARITY packet (R118). -/
def parityPacket (streamIdx : Byte) (frameIdx : U64) (k p : Nat) (row : Bytes) : Bytes :=
  [streamIdx] ++ le 8 frameIdx.toNat ++ le 4 k ++ le 4 p ++ row

/-- STORE row i holds exactly these bytes, and `rowlen[i]` is their number. -/
def RowIs (s : State) (i : Nat) (payload : Bytes) : Prop :=
  (s.fs.rowlen.at i).toNat = payload.length ∧
    ∀ o, o < payload.length → Cells.get? s.fs.store (s.rowBase i + o) = payload[o]?

end Sys2Proof.Safety
end

