-- ==== Sys2Proof/Certificates/Slice0/Obligations.lean ====
section
/-! DEFINITION. The statements for the provers: one proposition each, over the model's own names, from the numbered rules
of the spec. -/

open Sys2Proof Sys2Proof.Machine Sys2Proof.Safety

/-! ### Packets (spec/30_encoding.md) -/

/-- R90, R96 to R107: the packet of a well-formed command decodes to that command, whatever its operands and data. -/
def Obligations.DecodeInvertsEncode : Prop :=
  ∀ (poseBytes : Nat) (i : Instr), i.wellFormed poseBytes = true → decode poseBytes (encode i) = .ok i

/-- R90, R96 to R107: a packet that decodes is the packet of the command it decodes to, bit for bit, and that command is
well formed. -/
def Obligations.EncodeInvertsDecode : Prop :=
  ∀ (poseBytes : Nat) (b : Bytes) (i : Instr),
    decode poseBytes b = .ok i → encode i = b ∧ i.wellFormed poseBytes = true

/-- R96, R101, R103, R105 to R107: packets written out in spec/95_test_vectors.md P1 to P4 decode to the commands they
stand for. -/
def Obligations.PacketsOfTheSpecDecode : Prop :=
  decode 4 [0x01, 0x02, 0, 0, 0x08, 0, 0, 0, 0x07, 0, 0, 0, 0x08, 0, 0, 0, 0xDE, 0xAD, 0xBE, 0xEF, 0x01, 0x02, 0x03, 0x04] =
      .ok (.hiEnc 2 0 8 7 [0xDE, 0xAD, 0xBE, 0xEF, 0x01, 0x02, 0x03, 0x04]) ∧
    decode 4 [0x11, 0xE0, 0x66, 0xDC, 0x3B, 0, 0, 0, 0, 1, 0, 0, 0, 0, 0xCA, 0x9A, 0x3B, 0, 0, 0, 0, 0x80, 0x40, 0xBF,
        0x65, 0x01, 0, 0, 0, 0x60, 0xD4, 0xC3, 0x65, 0x01, 0, 0, 0] =
      .ok (.csReply 1004300000 1 1000000000 6002000000 6002300000) ∧
    decode 4 [0x20, 0x01, 0x10, 0, 0, 0] = .ok (.srBegin 1 16) ∧
    decode 4 [0x30, 0x01, 0x01, 0, 0, 0, 0, 0, 0, 0, 0x04, 0, 0, 0, 0x03, 0, 0, 0, 0x71, 0x72, 0x73] =
      .ok (.fsPush 1 1 4 [0x71, 0x72, 0x73]) ∧
    decode 4 [0x31, 0x01, 0, 0, 0, 0, 0, 0, 0, 0x05, 0, 0, 0, 0, 0, 0, 0, 0x09, 0x09, 0x09, 0x09] =
      .ok (.fsFinal 1 5 [0x09, 0x09, 0x09, 0x09]) ∧
    decode 4 [0x7F] = .ok .reset

/-- R94: a packet of a defined opcode that is shorter than its operand block, or whose length does not fit its `dlen`, is
refused: ArgError, the result block of the opcode all zero, and no other change. -/
def Obligations.MalformedPacketIsRefused : Prop :=
  ∀ (s s1 : State) (b : Byte) (rest : Bytes) (op : Opcode),
    s.nextEvent = some (.command (b :: rest), s1) → op.byte = b →
    (rest.length < op.blockLen s.params.poseBytes ∨
      rest.length ≠ op.blockLen s.params.poseBytes +
        (if op.hasDlen then fromLe ((rest.drop (op.blockLen s.params.poseBytes - 4)).take 4) else 0)) →
    ∃ t, step s = .next t ∧ SameState s1 t ∧
      t.output = s1.output ++ [.resp (0x06 :: List.replicate op.resultLen 0)]

/-- R95, R278 and the empty packet of R281: a packet whose first byte is none of the twelve opcodes, and the empty packet,
are answered with the single byte 0x07, and nothing else changes. -/
def Obligations.UndefinedOpcodeIsRefused : Prop :=
  ∀ (s s1 : State) (p : Bytes), s.nextEvent = some (.command p, s1) →
    (∀ b, p.head? = some b → b ∉ ([0x01, 0x02, 0x03, 0x04, 0x10, 0x11, 0x12, 0x20, 0x21, 0x30, 0x31, 0x7F] : List Byte)) →
    ∃ t, step s = .next t ∧ SameState s1 t ∧ t.output = s1.output ++ [.resp [0x07]]

/-! ### Steps (spec/20_memory.md R71, spec/70_reset_and_hazards.md R335) -/

/-- A step that takes a packet which decodes to a command is that command's meaning on the state with the packet taken;
taking it removes it from the arrived events and changes nothing else; with no callout open it is the oldest event. (That
arrived events wait in State is the DESIGN CHOICE of log 2.) -/
def Obligations.StepRunsDecodedCommand : Prop :=
  ∀ (s s1 : State) (p : Bytes) (i : Instr),
    s.nextEvent = some (.command p, s1) → decode s.params.poseBytes p = .ok i →
    step s = exec i s1 ∧
      ∃ pre post, s.input = pre ++ .command p :: post ∧ s1 = s.setInput (pre ++ post) ∧
        (s.sr.callout = none → pre = [])

/-- R57, R193, R321: while a callout is open, commands to the SR unit wait (the model runs the three channels as one agent,
log 3), and a command of another unit that arrived after them is executed. -/
def Obligations.BusyReassemblerLetsOthersPass : Prop :=
  ∀ (s : State) (c : Channel) (pre post : List PortIn) (p : Bytes) (i : Instr),
    s.sr.callout = some c → s.input = pre ++ .command p :: post →
    (∀ e ∈ pre, ∃ q, e = .command q ∧ (q.head? = some 0x20 ∨ q.head? = some 0x21)) →
    decode s.params.poseBytes p = .ok i → agentOf i.opcode ≠ .sr → agentOf i.opcode ≠ .block →
    step s = exec i (s.setInput (pre ++ post))

/-- R193, R311, R324: while a callout is open and the handler does not return, no step changes a segment, a buffer of the
reassembler or the open transfer, whatever has arrived; and where a RESET has arrived, the event that the next step takes is
the handler's return or arrived before the RESET: the RESET and every packet behind it, of whatever unit, are still there.
DESIGN CHOICE of log 3: the three channels are one agent, and a packet with the opcode byte of RESET waits, well formed or
not. -/
def Obligations.OpenCalloutFreezesReassembler : Prop :=
  (∀ (s t : State) (c : Channel),
    s.sr.callout = some c → .handlerReturn ∉ s.input → step s = .next t → t.sr = s.sr) ∧
  (∀ (s s1 : State) (c : Channel) (pre post : List PortIn) (r : Bytes) (e : PortIn),
    s.sr.callout = some c → s.input = pre ++ .command r :: post → r.head? = some 0x7F → s.nextEvent = some (e, s1) →
    e = .handlerReturn ∨ ∃ a b, pre = a ++ e :: b ∧ s1 = s.setInput (a ++ b ++ .command r :: post))

/-- R188, R55, R321: when the handler returns, at once or behind events that all wait for it, the open segment becomes EMPTY
with both lengths 0, its capacity and its buffer kept, and SR_FEED's response is sent; the events that waited are still there
in their order (that the return is an arrived event is the DESIGN CHOICE of log 2, which events wait that of log 3). -/
def Obligations.HandlerReturnEndsFeed : Prop :=
  ∀ (s : State) (c : Channel) (pre rest : List PortIn),
    s.sr.callout = some c → AllWait pre → s.input = pre ++ .handlerReturn :: rest →
    ∃ t, step s = .next t ∧
      (t.seg c).state = .empty ∧ (t.seg c).validLen = 0 ∧ (t.seg c).expectedLen = 0 ∧
      (t.seg c).capacity = (s.seg c).capacity ∧ (t.seg c).buf = (s.seg c).buf ∧
      t.sr.callout = none ∧ SameOutsideChannel c (s.setInput (pre ++ rest)) t ∧
      t.output = s.output ++ [.resp [0x00, 0x01, 0, 0, 0, 0]]

/-! ### The invariant (spec/10_state.md R37, R38, R45, R59) -/

/-- R37, R45, R58: every instance meets the invariant right after power-on, the one of `State.reset` among them (the
parameters of `State.reset` are the DESIGN CHOICE of log 1). -/
def Obligations.PowerOnMeetsInvariant : Prop :=
  (∀ p : Params, p.Valid → Inv (State.powerOn p)) ∧ Inv State.reset

/-- R37, R38, R45, R220: every step keeps the invariant. -/
def Obligations.StepKeepsInvariant : Prop :=
  ∀ s t : State, Inv s → step s = .next t → Inv t

/-- R59, R62, R283, R334: from a state that meets the invariant no step stops: no access leaves its space, no unwritten
byte is read, no command is without a meaning. -/
def Obligations.StepNeverStops : Prop :=
  ∀ s : State, Inv s → GoesOn (step s)

/-- R283, R313, R334: whatever arrives at a valid instance after power-on, it goes on for every number of steps and meets
the invariant. -/
def Obligations.EveryEventSequenceRuns : Prop :=
  ∀ (p : Params) (arrived : List PortIn) (k : Nat), p.Valid →
    ∃ t, runFrom k ((State.powerOn p).setInput arrived) = some t ∧ Inv t

/-- R8: no step changes a parameter. -/
def Obligations.ParametersNeverChange : Prop :=
  ∀ s t : State, step s = .next t → t.params = s.params

/-- R37, R312: a step that makes a capacity smaller is a RESET. -/
def Obligations.CapacityShrinksOnlyByReset : Prop :=
  ∀ (s t : State) (c : Channel), step s = .next t → (t.seg c).capacity < (s.seg c).capacity →
    ∃ s1, s.nextEvent = some (.command [0x7F], s1)

/-- R31, R159: a step that changes `ns_offset` is a RESET, or a CS_REPLY with the pending id in state ECHO_SENT. -/
def Obligations.OffsetChangesOnlyByReplyOrReset : Prop :=
  ∀ s t : State, step s = .next t → t.cs.nsOffset ≠ s.cs.nsOffset →
    ∃ p s1, s.nextEvent = some (.command p, s1) ∧
      (p = [0x7F] ∨
        ∃ now org recv xmt, decode s.params.poseBytes p = .ok (.csReply now s.cs.echoId org recv xmt) ∧
          s.cs.state = .echoSent)

/-! ### Responses (spec/30_encoding.md R92, R108; spec/60_exceptions.md R271, R282) -/

/-- R71 item 3, R92, R188: a command sends one response, after its TX packets and nothing else; or it is an SR_FEED that
opens a callout, and its response waits. -/
def Obligations.OneResponseAndItComesLast : Prop :=
  ∀ (i : Instr) (s t : State), exec i s = .next t →
    (∃ pre r, t.output = s.output ++ pre ++ [.resp r] ∧ ∀ o ∈ pre, ∃ k j b, o = .tx k j b) ∨
      (∃ c n v, i.opcode = .srFeed ∧ t.sr.callout = some c ∧ t.output = s.output ++ [.pktOut c n v])

/-- R271: a command returns none but the statuses of its row. -/
def Obligations.StatusesOfEachCommand : Prop :=
  ∀ (i : Instr) (s t : State) (pre : List PortOut) (status : Byte) (r : Bytes),
    exec i s = .next t → t.output = s.output ++ pre ++ [.resp (status :: r)] → status ∈ statusesOf i.opcode

/-- R108, R282: a command that ends with a status other than OK and FecUnavailable emits nothing else, has a zero result
block and changes nothing, but that OverrunError discards the segment of its channel. -/
def Obligations.ErrorsLeaveTheState : Prop :=
  ∀ (i : Instr) (s t : State) (pre : List PortOut) (status : Byte) (r : Bytes),
    exec i s = .next t → t.output = s.output ++ pre ++ [.resp (status :: r)] → status ≠ 0x00 → status ≠ 0x04 →
    pre = [] ∧ r = List.replicate i.opcode.resultLen 0 ∧
      (status ≠ 0x03 → SameState s t) ∧
      (status = 0x03 → ∃ b c, channelOf i = some b ∧ Channel.ofByte? b = some c ∧ SameOutsideChannel c s t ∧
        t.sr.callout = s.sr.callout ∧ (t.seg c).state = .empty ∧
        (t.seg c).capacity = (s.seg c).capacity ∧ (t.seg c).buf = (s.seg c).buf ∧
        (if (s.seg c).state = .empty then t.seg c = s.seg c
          else (t.seg c).validLen = 0 ∧ (t.seg c).expectedLen = 0))

/-! ### HeaderCodec (spec/40_header_codec.md) -/

/-- R131 with R111: HI_ENC answers the packed header and the payload, and changes nothing else. Where 8 + len(payload)
does not fit `dlen`, the four length bytes are open (log 10) and the rest stands. -/
def Obligations.HiEncPacksHeader : Prop :=
  ∀ (s : State) (mt : Byte) (rs : U16) (ss aux : U32) (d : Bytes),
    ∃ t dlen, exec (.hiEnc mt rs ss aux d) s = .next t ∧ SameState s t ∧
      (8 + d.length < 2 ^ 32 → dlen = 8 + d.length) ∧
      Answers s t 0x00 (le 4 dlen ++
        (le 4 (mt.toNat % 2 ^ 4 + rs.toNat % 2 ^ 10 * 2 ^ 4 + ss.toNat / 4 % 2 ^ 18 * 2 ^ 14) ++ le 4 aux.toNat ++ d))

/-- R133 with R110, R111, R112: HI_DEC of at least 8 bytes answers the fields of the header and the bytes from offset 8. -/
def Obligations.HiDecUnpacksHeader : Prop :=
  ∀ (s : State) (d : Bytes), 8 ≤ d.length →
    ∃ t, exec (.hiDec d) s = .next t ∧ SameState s t ∧
      Answers s t 0x00 (le 1 (fromLe (d.take 4) % 2 ^ 4) ++ le 2 (fromLe (d.take 4) / 2 ^ 4 % 2 ^ 10) ++
          le 4 (fromLe (d.take 4) / 2 ^ 14 * 4) ++ (d.drop 4).take 4 ++ le 4 (d.length - 8) ++ d.drop 8)

/-- R272: HI_DEC of fewer than 8 bytes and ECHO_UNPACK of fewer than 32 answer FramingError and a zero result block, and
change nothing. -/
def Obligations.UndersizedBytesAreFramingErrors : Prop :=
  ∀ (s : State) (d : Bytes),
    (d.length < 8 → ∃ t, exec (.hiDec d) s = .next t ∧ SameState s t ∧
      Answers s t 0x01 (List.replicate 15 0)) ∧
    (d.length < 32 → ∃ t, exec (.echoUnpack d) s = .next t ∧ SameState s t ∧
      Answers s t 0x01 (List.replicate 32 0))

/-- R134, both directions: decoding what HI_ENC answers gives the operands back, `stream_size` with its low two bits clear;
and every byte string of at least 8 bytes is what HI_ENC answers for the fields and the payload that HI_DEC gives. -/
def Obligations.HeaderRoundTrips : Prop :=
  (∀ (s u : State) (mt : Byte) (rs : U16) (ss aux : U32) (d : Bytes),
    mt.toNat < 16 → rs.toNat < 1024 → ss.toNat < 2 ^ 20 → 8 + d.length < 2 ^ 32 →
    ∃ t v packet, exec (.hiEnc mt rs ss aux d) s = .next t ∧
      Answers s t 0x00 (le 4 packet.length ++ packet) ∧
      exec (.hiDec packet) u = .next v ∧
      Answers u v 0x00 (le 1 mt.toNat ++ le 2 rs.toNat ++ le 4 (ss.toNat - ss.toNat % 4) ++
        le 4 aux.toNat ++ le 4 d.length ++ d)) ∧
  (∀ (s u : State) (b : Bytes), 8 ≤ b.length → b.length < 2 ^ 32 →
    ∃ t v, ∃ (mt : Byte) (rs : U16) (ss aux : U32) (d : Bytes), exec (.hiDec b) s = .next t ∧
      Answers s t 0x00 (le 1 mt.toNat ++ le 2 rs.toNat ++ le 4 ss.toNat ++ le 4 aux.toNat ++
        le 4 d.length ++ d) ∧
      exec (.hiEnc mt rs ss aux d) u = .next v ∧ Answers u v 0x00 (le 4 b.length ++ b))

/-- R136, R137 with R113: ECHO_PACK answers the four integers in order, eight bytes each; ECHO_UNPACK of at least 32 bytes
answers the four integers of the first 32, which is those bytes, and ignores the rest. -/
def Obligations.EchoPayloadLayout : Prop :=
  (∀ (s : State) (org recv xmt offset : I64),
    ∃ t, exec (.echoPack org recv xmt offset) s = .next t ∧ SameState s t ∧
      Answers s t 0x00 (le 8 org.toNat ++ le 8 recv.toNat ++ le 8 xmt.toNat ++ le 8 offset.toNat)) ∧
  (∀ (s : State) (d : Bytes), 32 ≤ d.length →
    ∃ t, exec (.echoUnpack d) s = .next t ∧ SameState s t ∧ Answers s t 0x00 (d.take 32))

/-- R138: unpacking what ECHO_PACK answers gives the four integers back, and every 32 bytes are what ECHO_PACK answers for
the integers that ECHO_UNPACK gives. -/
def Obligations.EchoPayloadRoundTrips : Prop :=
  (∀ (s u : State) (o r x f : I64), ∃ t v packet, exec (.echoPack o r x f) s = .next t ∧
    Answers s t 0x00 packet ∧ exec (.echoUnpack packet) u = .next v ∧
    Answers u v 0x00 (le64 o ++ le64 r ++ le64 x ++ le64 f)) ∧
  (∀ (s u : State) (b : Bytes), b.length = 32 → ∃ t v, ∃ o r x f : I64, exec (.echoUnpack b) s = .next t ∧
    Answers s t 0x00 (le64 o ++ le64 r ++ le64 x ++ le64 f) ∧
    exec (.echoPack o r x f) u = .next v ∧ Answers u v 0x00 b)

/-- R130: the four commands of the HeaderCodec read no state and write none, and answer the same command with the same
response every time, with nothing on TX or PKT_OUT. -/
def Obligations.HeaderCodecIsPure : Prop :=
  ∀ i : Instr, agentOf i.opcode = .hc →
    ∃ r, ∀ s, ∃ t, exec i s = .next t ∧ SameState s t ∧ t.output = s.output ++ [.resp r]

/-! ### ClockSync (spec/41_clock_sync.md) -/

/-- R152, R154: CS_SEND increments the id modulo 2^W, records `now_ns`, enters ECHO_SENT, and answers the new id and
`now_ns`; nothing else changes. -/
def Obligations.CsSendStartsExchange : Prop :=
  ∀ (s : State) (now : I64), s.params.echoIdBits ≤ 32 →
    ∃ t, exec (.csSend now) s = .next t ∧
      t.cs.echoId.toNat = (s.cs.echoId.toNat + 1) % 2 ^ s.params.echoIdBits ∧
      t.cs.state = .echoSent ∧ t.cs.lastEchoSentNs = now ∧
      t.cs.nsOffset = s.cs.nsOffset ∧ t.cs.lastEchoRecvNs = s.cs.lastEchoRecvNs ∧ t.cs.lastXmt = s.cs.lastXmt ∧
      t.params = s.params ∧ t.sr = s.sr ∧ t.fs = s.fs ∧ t.input = s.input ∧
      Answers s t 0x00 (le 4 ((s.cs.echoId.toNat + 1) % 2 ^ s.params.echoIdBits) ++ le 8 now.toNat)

/-- R155, R156, R157: a CS_REPLY in state ECHO_SENT with the pending id sets `ns_offset` to the offset of `echo_math`,
records `now_ns` and `xmt`, settles, and answers `rtt` and the EchoSample; nothing else changes. -/
def Obligations.CsReplySettlesExchange : Prop :=
  ∀ (s : State) (now org recv xmt : I64),
    s.cs.state = .echoSent → s.cs.echoId.toNat < 2 ^ s.params.echoIdBits →
    ∃ t, exec (.csReply now s.cs.echoId org recv xmt) s = .next t ∧
      t.cs.nsOffset.toInt =
        (((recv.toInt - org.toInt) + (xmt.toInt - now.toInt)).bmod (2 ^ 64)).tdiv 2 ∧
      t.cs.lastEchoRecvNs = now ∧ t.cs.lastXmt = xmt ∧ t.cs.state = .settled ∧
      t.cs.echoId = s.cs.echoId ∧ t.cs.lastEchoSentNs = s.cs.lastEchoSentNs ∧
      t.params = s.params ∧ t.sr = s.sr ∧ t.fs = s.fs ∧ t.input = s.input ∧
      Answers s t 0x00 (le64 (BitVec.ofInt 64 ((now.toInt - org.toInt) - (xmt.toInt - recv.toInt))) ++
          le64 org ++ le64 recv ++ le64 xmt ++ le64 t.cs.nsOffset)

/-- R155, R276: a CS_REPLY with no exchange pending, or whose id is not the pending one, answers StaleEcho and changes
nothing. -/
def Obligations.CsReplyIgnoresStaleReplies : Prop :=
  ∀ (s : State) (now : I64) (id : U32) (org recv xmt : I64),
    (s.cs.state ≠ .echoSent ∨ id ≠ s.cs.echoId ∨ 2 ^ s.params.echoIdBits ≤ id.toNat) →
    ∃ t, exec (.csReply now id org recv xmt) s = .next t ∧ SameState s t ∧
      Answers s t 0x05 (List.replicate 40 0)

/-- R158, R160: where the device clock is the local clock plus Δ and the one-way delays are d1 and d2, an accepted reply
sets `ns_offset` to the truncated half of 2Δ + d1 - d2 and answers the delay d1 + d2; the error is at most half the
asymmetry and 1, and it is 0 where the delays are equal. -/
def Obligations.EchoOffsetConverges : Prop :=
  ∀ (s : State) (delta d1 d2 hold org : Int),
    s.cs.state = .echoSent → s.cs.echoId.toNat < 2 ^ s.params.echoIdBits →
    |delta| < 2 ^ 58 → |d1| < 2 ^ 58 → |d2| < 2 ^ 58 → |hold| < 2 ^ 58 → |org| < 2 ^ 58 →
    ∃ t, exec (.csReply (BitVec.ofInt 64 (org + d1 + hold + d2)) s.cs.echoId (BitVec.ofInt 64 org)
        (BitVec.ofInt 64 (org + d1 + delta)) (BitVec.ofInt 64 (org + d1 + delta + hold))) s = .next t ∧
      t.cs.nsOffset.toInt = (2 * delta + d1 - d2).tdiv 2 ∧
      |t.cs.nsOffset.toInt - delta| ≤ |d1 - d2| / 2 + 1 ∧
      (d1 = d2 → t.cs.nsOffset.toInt = delta) ∧
      ∃ r, Answers s t 0x00 (le64 (BitVec.ofInt 64 (d1 + d2)) ++ r)

/-- R161, R162: CS_EXT answers the extended time and the time on the shared timeline, and changes nothing. -/
def Obligations.CsExtExtendsTimestamp : Prop :=
  ∀ (s : State) (t l : U32) (lastNs : I64) (delta : Int),
    delta = (if t.toNat < l.toNat ∧ 2 ^ 31 < l.toNat - t.toNat then (t.toNat : Int) - l.toNat + 2 ^ 32
      else (t.toNat : Int) - l.toNat) →
    ∃ u ext ts, exec (.csExt t l lastNs) s = .next u ∧ SameState s u ∧
      ext = BitVec.ofInt 64 (lastNs.toInt + delta * 1000) ∧
      ts = (match s.params.offsetApply with
        | .subtract => BitVec.ofInt 64 (lastNs.toInt + delta * 1000 - s.cs.nsOffset.toInt)
        | .add => BitVec.ofInt 64 (lastNs.toInt + delta * 1000 + s.cs.nsOffset.toInt)) ∧
      Answers s u 0x00 (le64 ext ++ le64 ts)

/-- R163: two calls with the same operands answer the same, and where two samples of a device time that does not decrease
are less than 2^31 microseconds apart, the extended time moves forward by exactly their distance. -/
def Obligations.CsExtNeverMovesBackward : Prop :=
  (∀ (s u v : State) (t l : U32) (lastNs : I64) (x : List PortOut),
    exec (.csExt t l lastNs) s = .next u → exec (.csExt t l lastNs) u = .next v → u.output = s.output ++ x →
    v.output = u.output ++ x) ∧
  (∀ (s : State) (time0 time1 : Nat) (lastNs : I64),
    time0 ≤ time1 → time1 - time0 < 2 ^ 31 → lastNs.toInt + 2 ^ 31 * 1000 < 2 ^ 63 →
    ∃ u ext ts, exec (.csExt (BitVec.ofNat 32 time1) (BitVec.ofNat 32 time0) lastNs) s = .next u ∧
      Answers s u 0x00 (le64 ext ++ le64 ts) ∧
      ext.toInt = lastNs.toInt + (time1 - time0 : Nat) * 1000 ∧ lastNs.toInt ≤ ext.toInt)

/-! ### Reassembler (spec/42_reassembler.md) -/

/-- R182, R184, R185: SR_BEGIN on a channel, for a length up to the ceiling, whatever the segment's state: ACCUMULATING,
nothing valid, the capacity grown to the length where that is larger; its buffer, the other channels and everything else
unchanged. -/
def Obligations.SrBeginOpensSegment : Prop :=
  ∀ (s : State) (b : Byte) (c : Channel) (n : U32),
    b.toNat = c.index → n.toNat ≤ s.params.segCeiling →
    ∃ t, exec (.srBegin b n) s = .next t ∧
      (t.seg c).state = .accumulating ∧ (t.seg c).validLen = 0 ∧ (t.seg c).expectedLen = n ∧
      (t.seg c).capacity.toNat = max (s.seg c).capacity.toNat n.toNat ∧ (t.seg c).buf = (s.seg c).buf ∧
      t.sr.callout = s.sr.callout ∧ SameOutsideChannel c s t ∧
      Answers s t 0x00 (le 4 (max (s.seg c).capacity.toNat n.toNat))

/-- R181, R183, R281: a channel of 3 or more is ArgError, whatever the other operand; on a channel, a length above the
ceiling is CapacityError; neither changes anything. -/
def Obligations.SrRefusalsChangeNothing : Prop :=
  ∀ (s : State) (b : Byte) (n : U32) (d : Bytes),
    (3 ≤ b.toNat → ∃ t, exec (.srBegin b n) s = .next t ∧ SameState s t ∧
      Answers s t 0x06 (List.replicate 4 0)) ∧
    (3 ≤ b.toNat → ∃ t, exec (.srFeed b d) s = .next t ∧ SameState s t ∧
      Answers s t 0x06 (List.replicate 5 0)) ∧
    (b.toNat < 3 → s.params.segCeiling < n.toNat → ∃ t, exec (.srBegin b n) s = .next t ∧ SameState s t ∧
      Answers s t 0x02 (List.replicate 4 0))

/-- R186, R191: bytes fed to an ACCUMULATING segment that they do not fill are stored from `valid_len` on, and no other
byte of the buffer changes; `valid_len` grows by their number, and nothing else changes. -/
def Obligations.SrFeedAppends : Prop :=
  ∀ (s : State) (b : Byte) (c : Channel) (d : Bytes),
    b.toNat = c.index → SegInv s.params.segCeiling (s.seg c) → (s.seg c).state = .accumulating →
    (s.seg c).validLen.toNat + d.length < (s.seg c).expectedLen.toNat →
    ∃ t, exec (.srFeed b d) s = .next t ∧
      (t.seg c).state = .accumulating ∧ (t.seg c).validLen.toNat = (s.seg c).validLen.toNat + d.length ∧
      (t.seg c).expectedLen = (s.seg c).expectedLen ∧ (t.seg c).capacity = (s.seg c).capacity ∧
      (∀ a, Cells.get? (t.seg c).buf a =
        if (s.seg c).validLen.toNat ≤ a ∧ a < (s.seg c).validLen.toNat + d.length
        then d[a - (s.seg c).validLen.toNat]? else Cells.get? (s.seg c).buf a) ∧
      t.sr.callout = s.sr.callout ∧ SameOutsideChannel c s t ∧
      Answers s t 0x00 (0x00 :: le 4 ((s.seg c).validLen.toNat + d.length))

/-- R186, R188, R189: bytes that exactly fill an ACCUMULATING segment are stored, the segment becomes COMPLETE, and the
handler is called with the channel, the length and a view of the bytes of the segment in order; the response waits. -/
def Obligations.SrFeedCompletesSegment : Prop :=
  ∀ (s : State) (b : Byte) (c : Channel) (d : Bytes),
    b.toNat = c.index → SegInv s.params.segCeiling (s.seg c) → (s.seg c).state = .accumulating →
    (s.seg c).validLen.toNat + d.length = (s.seg c).expectedLen.toNat →
    ∃ t earlier, exec (.srFeed b d) s = .next t ∧
      (t.seg c).state = .complete ∧ (t.seg c).validLen = (s.seg c).expectedLen ∧
      (t.seg c).expectedLen = (s.seg c).expectedLen ∧ (t.seg c).capacity = (s.seg c).capacity ∧
      (∀ a, Cells.get? (t.seg c).buf a =
        if (s.seg c).validLen.toNat ≤ a ∧ a < (s.seg c).validLen.toNat + d.length
        then d[a - (s.seg c).validLen.toNat]? else Cells.get? (s.seg c).buf a) ∧
      t.sr.callout = some c ∧ SameOutsideChannel c s t ∧
      earlier.length = (s.seg c).validLen.toNat ∧
      (∀ a, a < earlier.length → Cells.get? (s.seg c).buf a = earlier[a]?) ∧
      t.output = s.output ++ [.pktOut c (s.seg c).expectedLen (earlier ++ d)]

/-- R187, R190: bytes that pass the end of an ACCUMULATING segment are not stored, and the segment is discarded, its
capacity and buffer kept; on an EMPTY channel no bytes do nothing, and bytes are OverrunError with no change. -/
def Obligations.SrFeedOverrunsAndEmptyFeeds : Prop :=
  ∀ (s : State) (b : Byte) (c : Channel) (d : Bytes), b.toNat = c.index →
    ((s.seg c).state = .accumulating → (s.seg c).validLen.toNat ≤ (s.seg c).expectedLen.toNat →
      (s.seg c).expectedLen.toNat - (s.seg c).validLen.toNat < d.length →
      ∃ t, exec (.srFeed b d) s = .next t ∧
        (t.seg c).state = .empty ∧ (t.seg c).validLen = 0 ∧ (t.seg c).expectedLen = 0 ∧
        (t.seg c).capacity = (s.seg c).capacity ∧ (t.seg c).buf = (s.seg c).buf ∧
        t.sr.callout = s.sr.callout ∧ SameOutsideChannel c s t ∧
        Answers s t 0x03 (List.replicate 5 0)) ∧
    ((s.seg c).state = .empty → d = [] →
      ∃ t, exec (.srFeed b d) s = .next t ∧ SameState s t ∧
        Answers s t 0x00 (List.replicate 5 0)) ∧
    ((s.seg c).state = .empty → d ≠ [] →
      ∃ t, exec (.srFeed b d) s = .next t ∧ SameState s t ∧
        Answers s t 0x03 (List.replicate 5 0))

/-- R188, R189, R191: a segment begun for the length of some pieces and fed those pieces, the last of which completes it,
is handed to the handler once, and its bytes are the pieces in order, whatever the pieces' lengths. -/
def Obligations.SegmentIsDeliveredWhole : Prop :=
  ∀ (s : State) (b : Byte) (c : Channel) (n : U32) (first : List Bytes) (last : Bytes),
    Inv s → s.sr.callout = none → b.toNat = c.index → n.toNat ≤ s.params.segCeiling →
    n.toNat = (first ++ [last]).flatten.length → (first = [] ∨ last ≠ []) →
    ∃ t, execAll (.srBegin b n :: (first ++ [last]).map (fun d => .srFeed b d)) s = .next t ∧
      t.sr.callout = some c ∧ SameOutsideChannel c s t ∧
      transfers t.output = transfers s.output ++ [(c, n, (first ++ [last]).flatten)]

/-- R40, R72: two commands on different channels, each run to its response, leave the same state in either order, and each
emits the same. -/
def Obligations.ChannelsCommute : Prop :=
  ∀ (s a b : State) (i j : Instr) (ci cj : Byte),
    channelOf i = some ci → channelOf j = some cj → ci ≠ cj → s.sr.callout = none →
    execToResponse i s = .next a → execToResponse j a = .next b →
    ∃ a' b' x y, execToResponse j s = .next a' ∧ execToResponse i a' = .next b' ∧ SameState b b' ∧
      a.output = s.output ++ x ∧ b.output = a.output ++ y ∧ a'.output = s.output ++ y ∧ b'.output = a'.output ++ x

/-- R20, R71 item 2: commands of different units never interfere: in either order they leave the same state, and each emits
the same, its response included. -/
def Obligations.UnitsNeverInterfere : Prop :=
  ∀ (s a b : State) (i j : Instr),
    agentOf i.opcode ≠ agentOf j.opcode → agentOf i.opcode ≠ .block → agentOf j.opcode ≠ .block →
    exec i s = .next a → exec j a = .next b →
    ∃ a' b' x y, exec j s = .next a' ∧ exec i a' = .next b' ∧ SameState b b' ∧
      a.output = s.output ++ x ∧ b.output = a.output ++ y ∧ a'.output = s.output ++ y ∧ b'.output = a'.output ++ x

/-! ### FrameSharder (spec/43_frame_sharder.md) -/

/-- R211, R213, R214, R216: an accepted FS_PUSH opens the frame if none is open, and stores piece j of its data in the j-th
next row; the last piece is held, with its flags; no other byte of STORE and no other row length changes, and nothing
outside the unit. (Where a row lies in STORE is the DESIGN CHOICE of log 15.) -/
def Obligations.PushStoresItsShards : Prop :=
  ∀ (s : State) (st : Byte) (fr : U64) (mp : U32) (data : Bytes) (base n : Nat),
    Inv s → mp ≠ 0 → mp.toNat ≤ s.params.protoMaxPayload →
    (s.fs.isOpen = true → fr = s.fs.frameIdx ∧ st = s.fs.streamIdx) →
    base = (if s.fs.isOpen then s.fs.nextIdx.toNat else 0) →
    n = (data.length + mp.toNat - 1) / mp.toNat → base + n + 1 ≤ s.params.fsMaxShards →
    ∃ t, exec (.fsPush st fr mp data) s = .next t ∧ SameOutsideSharder s t ∧
      t.fs.isOpen = true ∧ t.fs.frameIdx = fr ∧ t.fs.streamIdx = st ∧ t.fs.nextIdx.toNat = base + n ∧
      t.fs.heldValid = (s.fs.heldValid || decide (0 < n)) ∧
      t.fs.heldFlags = (if n = 0 then (if s.fs.isOpen then s.fs.heldFlags else 0) else if n = 1 then 0x03 else 0x02) ∧
      (∀ j, j < n → RowIs t (base + j) (pieceAt mp.toNat data j)) ∧
      (∀ i, ¬(base ≤ i ∧ i < base + n) → t.fs.rowlen.at i = s.fs.rowlen.at i) ∧
      (∀ a, (∀ j, j < n → ¬(s.rowBase (base + j) ≤ a ∧
          a < s.rowBase (base + j) + (pieceAt mp.toNat data j).length)) →
        Cells.get? t.fs.store a = Cells.get? s.fs.store a)

/-- R211, R214, R215, R217: on TX an accepted FS_PUSH that creates shards releases the shard held before, without
view_info, and then its own shards but the last, in order, START_OF_SLICE on the first; its response counts the shards
created and the packets released. -/
def Obligations.PushReleasesAllButTheLast : Prop :=
  ∀ (s : State) (st : Byte) (fr : U64) (mp : U32) (data : Bytes) (base n : Nat),
    Inv s → mp ≠ 0 → mp.toNat ≤ s.params.protoMaxPayload →
    (s.fs.isOpen = true → fr = s.fs.frameIdx ∧ st = s.fs.streamIdx) →
    base = (if s.fs.isOpen then s.fs.nextIdx.toNat else 0) →
    n = (data.length + mp.toNat - 1) / mp.toNat → base + n + 1 ≤ s.params.fsMaxShards →
    ∃ t held, exec (.fsPush st fr mp data) s = .next t ∧
      (s.fs.heldValid = true → RowIs s (base - 1) held) ∧
      t.output = s.output ++
        (if s.fs.heldValid = true ∧ 0 < n
          then [.tx .data 0 (dataPacket st fr (base - 1) s.fs.heldFlags [] held)] else []) ++
        (List.range (n - 1)).map (fun j => .tx .data 0
          (dataPacket st fr (base + j) (if j = 0 then 0x01 else 0x00) [] (pieceAt mp.toNat data j))) ++
        [.resp (0x00 :: (le 4 n ++ le 4 (if n = 0 then 0 else (if s.fs.heldValid then 1 else 0) + n - 1)))]

/-- R213: the pieces of a push are `ceil_div(len, max_payload)` many, all but the last are of `max_payload` bytes, the
last has between 1 and `max_payload`, and one after another they are the data. -/
def Obligations.PiecesRejoinToTheData : Prop :=
  ∀ (mp : Nat) (data : Bytes), 0 < mp →
    (pieces mp data).flatten = data ∧ (pieces mp data).length = (data.length + mp - 1) / mp ∧
      ∀ (j : Nat) (p : Bytes), (pieces mp data)[j]? = some p →
        (j + 1 < (pieces mp data).length → p.length = mp) ∧
          (j + 1 = (pieces mp data).length →
            p.length = data.length - ((pieces mp data).length - 1) * mp ∧ 1 ≤ p.length ∧ p.length ≤ mp)

/-- R212: FS_PUSH is refused with ArgError, changing nothing and emitting nothing, exactly when `max_payload` is 0 or above
the protocol's maximum, or the open frame is another, or the shard store would not keep one row free. -/
def Obligations.PushIsRefusedExactlyByItsChecks : Prop :=
  ∀ (s : State) (st : Byte) (fr : U64) (mp : U32) (data : Bytes), 1 ≤ s.params.fsMaxShards →
    ((mp = 0 ∨ s.params.protoMaxPayload < mp.toNat ∨
        (s.fs.isOpen = true ∧ (fr ≠ s.fs.frameIdx ∨ st ≠ s.fs.streamIdx)) ∨
        s.params.fsMaxShards - 1 <
          (if s.fs.isOpen then s.fs.nextIdx.toNat else 0) + (data.length + mp.toNat - 1) / mp.toNat) ↔
      ∃ t, exec (.fsPush st fr mp data) s = .next t ∧ SameState s t ∧
        Answers s t 0x06 (List.replicate 8 0))

/-- R218, R277: FS_FINAL with no frame in flight, or for another frame, is ArgError and changes nothing. -/
def Obligations.FinalIsRefusedWithoutItsFrame : Prop :=
  ∀ (s : State) (fr : U64) (dt : I64) (pose : Bytes), (s.fs.isOpen = false ∨ fr ≠ s.fs.frameIdx) →
    ∃ t, exec (.fsFinal fr dt pose) s = .next t ∧ SameState s t ∧
      Answers s t 0x06 (List.replicate 13 0)

/-- R218 to R220, R240, R242, R250, R251: FS_FINAL of the frame in flight. An empty shard is added where the frame has none
or the last has no room for the view_info; on TX come the held shard, if a shard was added, then the last shard with
END_OF_FRAME and the view_info, then the parity shards of the coder on the padded rows, in order; where the coder is
unavailable there are none and the status is FecUnavailable. The frame is closed, no byte of STORE changes, the added row
has length 0, and nothing outside the unit changes. -/
def Obligations.FinalEndsTheFrame : Prop :=
  ∀ (s : State) (dt : I64) (pose : Bytes) (next k p : Nat) (extra : Bool),
    Inv s → s.fs.isOpen = true → next = s.fs.nextIdx.toNat →
    extra = (!s.fs.heldValid ||
      decide (s.params.protoMaxPayload < (s.fs.rowlen.at (next - 1)).toNat + (8 + s.params.poseBytes))) →
    k = next + (if extra then 1 else 0) → p = max 1 ((k + 19) / 20) →
    ∃ (t : State) (payloads rows : List Bytes) (len : Nat) (status fieldBits : Byte),
      exec (.fsFinal s.fs.frameIdx dt pose) s = .next t ∧ SameOutsideSharder s t ∧
      t.fs.isOpen = false ∧ t.fs.nextIdx = 0 ∧ t.fs.heldValid = false ∧ t.fs.heldFlags = 0 ∧
      t.fs.frameIdx = s.fs.frameIdx ∧ t.fs.streamIdx = s.fs.streamIdx ∧ t.fs.store = s.fs.store ∧
      (∀ i, t.fs.rowlen.at i = if extra = true ∧ i = next then 0 else s.fs.rowlen.at i) ∧
      payloads.length = k ∧ (∀ i x, i < next → payloads[i]? = some x → RowIs s i x) ∧
      (extra = true → payloads[next]? = some []) ∧
      (∀ x ∈ payloads, x.length ≤ len) ∧ (∃ x ∈ payloads, x.length = len) ∧
      (match fecCoder s.params.coder k p len (payloads.map (fun x => x ++ List.replicate (len - x.length) 0)) with
        | none => status = 0x04 ∧ fieldBits = 0 ∧ rows = []
        | some a => status = 0x00 ∧ fieldBits = a.fieldBits ∧ rows = a.rows) ∧
      (status = 0x00 → rows.length = p ∧ ∀ row ∈ rows, row.length = len) ∧
      t.output = s.output ++
        (if extra = true ∧ s.fs.heldValid = true then [.tx .data 0 (dataPacket s.fs.streamIdx s.fs.frameIdx (next - 1)
          s.fs.heldFlags [] (payloads.getD (next - 1) []))] else []) ++
        [.tx .data 0 (dataPacket s.fs.streamIdx s.fs.frameIdx (k - 1)
          ((if extra then 0x03 else s.fs.heldFlags) ||| 0x04) (le 8 dt.toNat ++ pose) (payloads.getD (k - 1) []))] ++
        rows.mapIdx (fun j row => .tx .parity j (parityPacket s.fs.streamIdx s.fs.frameIdx k p row)) ++
        [.resp (status :: (le 4 k ++ le 4 p ++ le 4 len ++ [fieldBits]))]

/-- R213, R221: a whole frame, pushed slice by slice and finished: on TX its data shards have the indices 0, 1, … in order,
exactly the last has END_OF_FRAME and carries the view_info, no payload is longer than the protocol's maximum, and the
payloads one after another are the slices' data one after another. -/
def Obligations.FrameCarriesItsBytes : Prop :=
  ∀ (s : State) (st : Byte) (fr : U64) (slices : List (U32 × Bytes)) (dt : I64) (pose : Bytes),
    Inv s → s.fs.isOpen = false → slices ≠ [] →
    (∀ x ∈ slices, x.1 ≠ 0 ∧ x.1.toNat ≤ s.params.protoMaxPayload) →
    (slices.map (fun x => (x.2.length + x.1.toNat - 1) / x.1.toNat)).sum + 1 ≤ s.params.fsMaxShards →
    ∃ (t : State) (new : List PortOut) (shards : List (Byte × Bytes)),
      execAll (slices.map (fun x => .fsPush st fr x.1 x.2) ++ [.fsFinal fr dt pose]) s = .next t ∧
      t.output = s.output ++ new ∧ shards ≠ [] ∧
      dataPackets new = shards.mapIdx (fun i x => dataPacket st fr i x.1
        (if i + 1 = shards.length then le 8 dt.toNat ++ pose else []) x.2) ∧
      (∀ (i : Nat) (x : Byte × Bytes), shards[i]? = some x →
        x.1 &&& 0x04 = (if i + 1 = shards.length then 0x04 else 0x00) ∧ x.2.length ≤ s.params.protoMaxPayload) ∧
      (shards.map (fun x => x.2)).flatten = (slices.map (fun x => x.2)).flatten

/-! ### FecEncoder (spec/44_fec_encoder.md) -/

/-- R241: the parity count is the least number, at least 1, of which twenty times is no less than the number of data
shards. -/
def Obligations.ParityCountIsFivePercent : Prop :=
  ∀ k : Nat, 1 ≤ parityCount k ∧ k ≤ 20 * parityCount k ∧
    ∀ q : Nat, 1 ≤ q → k ≤ 20 * q → parityCount k ≤ q

/-- R247, R250, R275: with the reference coder FS_FINAL's response says 8 where k + p is at most 256, else 16 where k + p is
at most 65536 and L is even, else FecUnavailable and 0. -/
def Obligations.FieldChoiceOfTheReferenceCoder : Prop :=
  ∀ (s t : State) (fr : U64) (dt : I64) (pose : Bytes) (pre : List PortOut) (status fieldBits : Byte) (k p len : Nat),
    s.params.coder = .reference →
    exec (.fsFinal fr dt pose) s = .next t → k < 2 ^ 32 → p < 2 ^ 32 → len < 2 ^ 32 →
    t.output = s.output ++ pre ++ [.resp (status :: (le 4 k ++ le 4 p ++ le 4 len ++ [fieldBits]))] →
    status ≠ 0x06 →
    (status, fieldBits) = (if k + p ≤ 256 then (0x00, 8) else if k + p ≤ 65536 ∧ len % 2 = 0 then (0x00, 16)
      else ((0x04, 0) : Byte × Byte))

/-- R249, R254 for byte symbols: byte t of parity row j is the sum over the data rows i of the coefficient C[j][i] times
byte t of row i. -/
def Obligations.ParityByteIsItsColumnSum : Prop :=
  ∀ (k p len : Nat) (rows : List Bytes) (j t : Nat),
    k + p ≤ 256 → rows.length = k → (∀ row ∈ rows, row.length = len) → j < p → t < len →
    ∃ (a : FecAnswer) (row : Bytes), referenceCoder k p len rows = some a ∧ a.rows.length = p ∧
      a.rows[j]? = some row ∧ row.length = len ∧
      row[t]? = some (((List.range k).map (fun i =>
        gmul (ginv (BitVec.ofNat 8 i ^^^ BitVec.ofNat 8 (k + j))) ((rows.getD i []).getD t 0))).foldl
          (fun x y => x ^^^ y) 0)

/-- R246, R248, R249, R254 for 16-bit symbols: bytes 2t and 2t + 1 of parity row j are, the low byte first, the sum over the
data rows i of the coefficient C[j][i] times the symbol that bytes 2t and 2t + 1 of row i are, the low byte first. -/
def Obligations.ParityWordIsItsColumnSum : Prop :=
  ∀ (k p len : Nat) (rows : List Bytes) (j t : Nat),
    256 < k + p → k + p ≤ 65536 → rows.length = k → (∀ row ∈ rows, row.length = 2 * len) → j < p → t < len →
    ∃ (a : FecAnswer) (row : Bytes) (x : BitVec 16), referenceCoder k p (2 * len) rows = some a ∧ a.rows.length = p ∧
      a.rows[j]? = some row ∧ row.length = 2 * len ∧
      row[2 * t]? = some (x.extractLsb' 0 8) ∧ row[2 * t + 1]? = some (x.extractLsb' 8 8) ∧
      x = ((List.range k).map (fun i =>
        gmul (ginv (BitVec.ofNat 16 i ^^^ BitVec.ofNat 16 (k + j)))
          ((rows.getD i []).getD (2 * t + 1) 0 ++ (rows.getD i []).getD (2 * t) 0))).foldl (fun x y => x ^^^ y) 0

/-- R245, R244 in GF(2^8): every nonzero element has exactly one inverse, and it is `ginv`. -/
def Obligations.FieldInverseIsUnique : Prop :=
  ∀ a b : BitVec 8, a ≠ 0 → (gmul a b = 1 ↔ b = ginv a)

/-- R245, R244 in GF(2^16): every nonzero element has exactly one inverse, and it is `ginv`. -/
def Obligations.WordFieldInverseIsUnique : Prop :=
  ∀ a b : BitVec 16, a ≠ 0 → (gmul a b = 1 ↔ b = ginv a)

/-- R244: multiplication distributes over addition, on both sides, in both fields. -/
def Obligations.FieldMultiplicationDistributes : Prop :=
  (∀ a b c : BitVec 8, gmul a (b ^^^ c) = gmul a b ^^^ gmul a c ∧ gmul (b ^^^ c) a = gmul b a ^^^ gmul c a) ∧
    (∀ a b c : BitVec 16, gmul a (b ^^^ c) = gmul a b ^^^ gmul a c ∧ gmul (b ^^^ c) a = gmul b a ^^^ gmul c a)

/-- R243 for every FecCoder of an instance, the reference coder with byte symbols: it answers p rows of L bytes, and any k of
the k + p rows determine the k data rows: two frames of k rows of one length whose data and parity rows agree at k places are
the same rows. (That a coder other than the reference coder meets R243 is how the model takes it: log 11.) -/
def Obligations.AnyRowsRecoverTheData : Prop :=
  ∀ (c : CoderChoice) (k p len : Nat), (c = .reference → k + p ≤ 256) →
    (∀ rows a, AreRows k len rows → fecCoder c k p len rows = some a → AreRows p len a.rows) ∧
    RecoversFromAny k p len (fecCoder c k p len)

/-- R243 for the reference coder with 16-bit symbols: it answers p rows of L bytes, and any k of the k + p rows determine the
k data rows. -/
def Obligations.AnyRowsRecoverTheDataOfLongFrames : Prop :=
  ∀ k p len : Nat, 256 < k + p →
    (∀ rows a, AreRows k len rows → referenceCoder k p len rows = some a → AreRows p len a.rows) ∧
    RecoversFromAny k p len (referenceCoder k p len)

/-! ### RESET (spec/70_reset_and_hazards.md) -/

/-- R311, R312: RESET puts every register that R311 lists at its reset value, emits its response alone, and keeps the
parameters and what has arrived. That it keeps every byte of the buffers and every row length is DEDUCED (log 9): R312 says
that the buffers are not cleared, and R310 counts the row lengths among them. -/
def Obligations.ResetClearsRegisters : Prop :=
  ∀ s : State, ∃ t, exec .reset s = .next t ∧
    t.cs = ⟨.idle, 0, 0, 0, 0, 0⟩ ∧
    (∀ c, (t.seg c).state = .empty ∧ (t.seg c).validLen = 0 ∧ (t.seg c).expectedLen = 0 ∧ (t.seg c).capacity = 0 ∧
      (t.seg c).buf = (s.seg c).buf) ∧
    t.fs.isOpen = false ∧ t.fs.frameIdx = 0 ∧ t.fs.streamIdx = 0 ∧ t.fs.nextIdx = 0 ∧ t.fs.heldValid = false ∧
    t.fs.heldFlags = 0 ∧ t.fs.rowlen = s.fs.rowlen ∧ t.fs.store = s.fs.store ∧
    t.params = s.params ∧ t.input = s.input ∧ t.output = s.output ++ [.resp [0x00]]

/-- R59, R311, R312: after RESET the block answers every sequence of events exactly as an instance with the same parameters
right after power-on does: what the buffers still hold cannot be seen. That RESET also ends an open transfer, so that the
same holds of a state with one, is DEDUCED (log 9). -/
def Obligations.ResetActsAsPowerOn : Prop :=
  ∀ (s t u : State) (arrived : List PortIn) (k : Nat),
    Inv s → exec .reset s = .next t → runFrom k (t.setInput arrived) = some u →
    ∃ v, runFrom k ((State.powerOn s.params).setInput arrived) = some v ∧ u.output = t.output ++ v.output

/-! ### The issuer's sequences (spec/30_encoding.md R114, R121) -/

/-- R114, R121: ECHO_BUILD starts an exchange and its third response is the echo message: the header with MT_ECHO, result 0,
`stream_size` 32 and the new id in `aux`, then `now_ns` and three zero integers. The three commands run with no other command
between them (DESIGN CHOICE, log 16). -/
def Obligations.EchoBuildMakesTheRequest : Prop :=
  ∀ (s : State) (now : I64) (id : Nat), s.params.echoIdBits ≤ 32 →
    id = (s.cs.echoId.toNat + 1) % 2 ^ s.params.echoIdBits →
    ∃ t r1 r2, echoBuild now s = .next t ∧ t.cs.echoId.toNat = id ∧ t.cs.state = .echoSent ∧ t.sr = s.sr ∧ t.fs = s.fs ∧
      t.output = s.output ++ [.resp r1, .resp r2, .resp (0x00 :: (le 4 40 ++
        (le 4 (s.params.mtEcho.toNat + 8 * 2 ^ 14) ++ le 4 id ++ le 8 now.toNat ++ List.replicate 24 0)))]

/-- R114, R121: ECHO_TAKE of a message whose payload is at least the 32 bytes of an echo payload leaves the state that CS_REPLY
with the header's `aux` as id and the payload's `org`, `recv` and `xmt` leaves, and its third response is CS_REPLY's, whatever
the other fields of the header and the payload's `offset`. The three commands run with no other command between them (DESIGN
CHOICE, log 16). -/
def Obligations.EchoTakeActsAsReply : Prop :=
  ∀ (s : State) (now : I64) (w : Nat) (id : U32) (org recv xmt offset : I64) (more : Bytes),
    ∃ t u, echoTake now (le 4 w ++ le32 id ++ le64 org ++ le64 recv ++ le64 xmt ++ le64 offset ++ more) s = .next t ∧
      exec (.csReply now id org recv xmt) s = .next u ∧ SameState u t ∧
      ∃ r1 r2 r3, t.output = s.output ++ [.resp r1, .resp r2, r3] ∧ u.output = s.output ++ [r3]
end

