-- ==== Sys2Proof/Laws/Cells.lean ====
section
/-! SUPPORT. What the sparse cells hold after an update, what a read of several cells answers, and that every update keeps
the canonical form. -/

namespace Sys2Proof.Machine

variable {α : Type}

@[simp] theorem Cells.get?_nil (a : Nat) : Cells.get? ([] : Cells α) a = none := rfl

@[simp] theorem Cells.get?_cons (k : Nat) (v : α) (m : Cells α) (a : Nat) :
    Cells.get? ((k, v) :: m) a = if k = a then some v else Cells.get? m a := rfl

theorem Cells.get?_append (m n : Cells α) (a : Nat) :
    Cells.get? (m ++ n) a = (Cells.get? m a).or (Cells.get? n a) := by
  induction m with
  | nil => rfl
  | cons e m ih =>
    obtain ⟨k, v⟩ := e
    simp only [List.cons_append, Cells.get?_cons]
    split
    · rfl
    · exact ih

theorem Cells.get?_filter (p : Nat → Bool) (m : Cells α) (a : Nat) :
    Cells.get? (m.filter (fun e => p e.1)) a = if p a then Cells.get? m a else none := by
  induction m with
  | nil => simp
  | cons e m ih =>
    obtain ⟨k, v⟩ := e
    by_cases hk : k = a
    · subst hk
      cases hp : p k <;> simp [hp, ih]
    · cases hp : p k <;> simp [hp, hk, ih]

theorem Cells.get?_run (vs : List α) (a b : Nat) :
    Cells.get? (Cells.run a vs) b = if a ≤ b then vs[b - a]? else none := by
  induction vs generalizing a with
  | nil => simp [Cells.run]
  | cons v vs ih =>
    simp only [Cells.run, Cells.get?_cons, ih]
    rcases Nat.lt_trichotomy a b with h | h | h
    · rw [if_neg (by omega), if_pos (by omega), if_pos (by omega), show b - a = (b - (a + 1)) + 1 by omega,
        List.getElem?_cons_succ]
    · subst h
      simp
    · rw [if_neg (by omega), if_neg (by omega), if_neg (by omega)]

/-- A key outside the replaced ones holds what it held; a replaced key holds what the new cells hold there. -/
theorem Cells.get?_replace {m new : Cells α} {a n : Nat} (b : Nat)
    (hnew : ∀ b, Cells.get? new b ≠ none → a ≤ b ∧ b < a + n) :
    Cells.get? (m.replace a n new) b = if a ≤ b ∧ b < a + n then Cells.get? new b else Cells.get? m b := by
  have h1 := Cells.get?_filter (fun k => decide (k < a)) m b
  have h2 := Cells.get?_filter (fun k => decide (a + n ≤ k)) m b
  simp only [decide_eq_true_eq] at h1 h2
  rw [Cells.replace, Cells.get?_append, Cells.get?_append, h1, h2]
  by_cases hb : a ≤ b ∧ b < a + n
  · rw [if_neg (by omega), if_neg (by omega), if_pos hb]
    simp
  · have hn : Cells.get? new b = none := by
      by_contra hne
      exact hb (hnew b hne)
    rw [hn, if_neg hb]
    by_cases hlt : b < a
    · rw [if_pos hlt, if_neg (by omega)]
      cases Cells.get? m b <;> rfl
    · rw [if_neg hlt, if_pos (by omega)]
      rfl

theorem Cells.run_inside (vs : List α) (a b : Nat) (h : Cells.get? (Cells.run a vs) b ≠ none) :
    a ≤ b ∧ b < a + vs.length := by
  rw [Cells.get?_run] at h
  split at h
  · refine ⟨‹_›, ?_⟩
    by_contra hb
    exact h (List.getElem?_eq_none (by omega))
  · exact absurd rfl h

/-- What one key holds after a write (R62): the written value inside, what it held outside. -/
theorem Cells.get?_write (m : Cells α) (a : Nat) (vs : List α) (b : Nat) :
    Cells.get? (m.write a vs) b = if a ≤ b ∧ b < a + vs.length then vs[b - a]? else Cells.get? m b := by
  rw [Cells.write, Cells.get?_replace b (Cells.run_inside vs a)]
  split
  · rw [Cells.get?_run, if_pos (by omega)]
  · rfl

theorem Cells.get?_write_outside (m : Cells α) (a : Nat) (vs : List α) (b : Nat) (h : ¬(a ≤ b ∧ b < a + vs.length)) :
    Cells.get? (m.write a vs) b = Cells.get? m b := by
  rw [Cells.get?_write, if_neg h]

theorem Cells.mem_run {vs : List α} {a : Nat} {e : Nat × α} (h : e ∈ Cells.run a vs) :
    (a ≤ e.1 ∧ e.1 < a + vs.length) ∧ e.2 ∈ vs := by
  induction vs generalizing a with
  | nil => simp [Cells.run] at h
  | cons v vs ih =>
    simp only [Cells.run, List.mem_cons] at h
    rcases h with rfl | h
    · simp
    · obtain ⟨hr, hv⟩ := ih h
      simp only [List.length_cons, List.mem_cons]
      exact ⟨by omega, Or.inr hv⟩

theorem Cells.get?_eq_none_of_lt {m : Cells α} {a : Nat} (h : ∀ e ∈ m, a < e.1) : Cells.get? m a = none := by
  induction m with
  | nil => rfl
  | cons e m ih =>
    obtain ⟨k, v⟩ := e
    have hk : a < k := h (k, v) (by simp)
    rw [Cells.get?_cons, if_neg (by omega)]
    exact ih (fun e he => h e (by simp [he]))

/-- Of cells whose keys rise, a read answers exactly when every key has a value, and answers those values in order. -/
theorem Cells.read_eq_some_iff {m : Cells α} (hm : Cells.Rising m) (a n : Nat) (vs : List α) :
    Cells.read m a n = some vs ↔ vs.length = n ∧ ∀ i, i < n → Cells.get? m (a + i) = vs[i]? := by
  induction m generalizing a n vs with
  | nil =>
    cases n with
    | zero => simp [Cells.read, eq_comm]
    | succ n =>
      simp only [Cells.read, Cells.get?_nil, reduceCtorEq, false_iff, not_and]
      intro hl hall
      have h0 := hall 0 (by omega)
      rw [List.getElem?_eq_getElem (by omega)] at h0
      exact absurd h0 (by simp)
  | cons e m ih =>
    obtain ⟨k, v⟩ := e
    have hm' := (List.pairwise_cons.mp hm)
    cases n with
    | zero => simp [Cells.read, eq_comm]
    | succ n =>
      rw [Cells.read]
      rcases Nat.lt_trichotomy k a with h | h | h
      · rw [if_pos h, ih hm'.2]
        refine and_congr_right (fun _ => forall_congr' (fun i => imp_congr_right (fun _ => ?_)))
        rw [Cells.get?_cons, if_neg (by omega)]
      · subst h
        rw [if_neg (by omega), if_pos rfl, Option.map_eq_some_iff]
        constructor
        · rintro ⟨ws, hws, rfl⟩
          obtain ⟨hl, hall⟩ := (ih hm'.2 _ _ _).mp hws
          refine ⟨by simp [hl], fun i hi => ?_⟩
          cases i with
          | zero => simp
          | succ i =>
            rw [Cells.get?_cons, if_neg (by omega), List.getElem?_cons_succ, ← hall i (by omega)]
            congr 1
            omega
        · rintro ⟨hl, hall⟩
          cases vs with
          | nil => simp at hl
          | cons w ws =>
            have h0 := hall 0 (by omega)
            simp only [Nat.add_zero, Cells.get?_cons, if_true, List.getElem?_cons_zero, Option.some.injEq] at h0
            subst h0
            refine ⟨ws, (ih hm'.2 _ _ _).mpr ⟨by simpa using hl, fun i hi => ?_⟩, rfl⟩
            have hi' := hall (i + 1) (by omega)
            rw [Cells.get?_cons, if_neg (by omega), List.getElem?_cons_succ] at hi'
            rw [← hi']
            congr 1
            omega
      · rw [if_neg (by omega), if_neg (by omega)]
        simp only [reduceCtorEq, false_iff, not_and]
        intro hl hall
        have h0 := hall 0 (by omega)
        rw [Nat.add_zero, Cells.get?_cons, if_neg (by omega),
          Cells.get?_eq_none_of_lt (fun e he => Nat.lt_trans h (hm'.1 e he)),
          List.getElem?_eq_getElem (by omega)] at h0
        exact absurd h0 (by simp)

/-- A read of keys that all have a value answers. -/
theorem Cells.read_of_written {m : Cells α} (hm : Cells.Rising m) {a n : Nat}
    (h : ∀ o, o < n → Cells.get? m (a + o) ≠ none) :
    ∃ vs, Cells.read m a n = some vs ∧ vs.length = n ∧ ∀ i, i < n → Cells.get? m (a + i) = vs[i]? := by
  have hex : ∃ vs : List α, vs.length = n ∧ ∀ i, i < n → Cells.get? m (a + i) = vs[i]? := by
    induction n with
    | zero => exact ⟨[], rfl, fun i hi => absurd hi (by omega)⟩
    | succ n ih =>
      obtain ⟨vs, hl, hall⟩ := ih (fun o ho => h o (by omega))
      obtain ⟨v, hv⟩ := Option.ne_none_iff_exists'.mp (h n (by omega))
      refine ⟨vs ++ [v], by simp [hl], fun i hi => ?_⟩
      rcases Nat.lt_or_ge i n with hin | hin
      · rw [List.getElem?_append_left (by omega)]
        exact hall i hin
      · obtain rfl : i = n := by omega
        rw [hv, List.getElem?_append_right (by omega)]
        simp [hl]
  obtain ⟨vs, hl, hall⟩ := hex
  exact ⟨vs, (Cells.read_eq_some_iff hm a n vs).mpr ⟨hl, hall⟩, hl, hall⟩

theorem Cells.rising_run (vs : List α) (a : Nat) : Cells.Rising (Cells.run a vs) := by
  induction vs generalizing a with
  | nil => exact List.Pairwise.nil
  | cons v vs ih => exact List.pairwise_cons.mpr ⟨fun e he => by have := (Cells.mem_run he).1; simp; omega, ih _⟩

/-- A replacement by rising cells inside the replaced keys keeps the canonical form. -/
theorem Cells.rising_replace {m new : Cells α} {a n : Nat} (hm : Cells.Rising m) (hnew : Cells.Rising new)
    (hin : ∀ e ∈ new, a ≤ e.1 ∧ e.1 < a + n) : Cells.Rising (m.replace a n new) := by
  rw [Cells.replace, Cells.Rising, List.pairwise_append, List.pairwise_append]
  refine ⟨⟨hm.filter _, hnew, ?_⟩, hm.filter _, ?_⟩
  · intro e he f hf
    have h1 := (List.mem_filter.mp he).2
    have h2 := hin f hf
    simp only [decide_eq_true_eq] at h1
    omega
  · intro e he f hf
    have h2 := (List.mem_filter.mp hf).2
    simp only [decide_eq_true_eq] at h2
    rcases List.mem_append.mp he with he | he
    · have h1 := (List.mem_filter.mp he).2
      simp only [decide_eq_true_eq] at h1
      omega
    · have h1 := hin e he
      omega

/-- A write keeps the canonical form of a memory. -/
theorem Cells.rising_write {m : Cells α} (hm : Cells.Rising m) (a : Nat) (vs : List α) :
    Cells.Rising (m.write a vs) :=
  Cells.rising_replace hm (Cells.rising_run vs a) (fun _ he => (Cells.mem_run he).1)

theorem Cells.mem_replace {m new : Cells α} {a n : Nat} {e : Nat × α} (h : e ∈ m.replace a n new) :
    e ∈ m ∨ e ∈ new := by
  simp only [Cells.replace, List.mem_append, List.mem_filter] at h
  tauto

theorem Cells.mem_write {m : Cells α} {a : Nat} {vs : List α} {e : Nat × α} (h : e ∈ m.write a vs) :
    e ∈ m ∨ (a ≤ e.1 ∧ e.1 < a + vs.length) :=
  (Cells.mem_replace h).imp_right (fun he => (Cells.mem_run he).1)

/-- A write of no values changes nothing. -/
theorem Cells.write_nil {m : Cells α} (hm : Cells.Rising m) (a : Nat) : Cells.write m a [] = m := by
  simp only [Cells.write, Cells.replace, Cells.run, List.append_nil, List.length_nil, Nat.add_zero]
  induction m with
  | nil => rfl
  | cons e m ih =>
    obtain ⟨h1, h2⟩ := List.pairwise_cons.mp hm
    by_cases he : e.1 < a
    · rw [List.filter_cons_of_pos (by simpa using he), List.filter_cons_of_neg (by simp; omega), List.cons_append,
        ih h2]
    · have e1 : m.filter (fun e => decide (e.1 < a)) = [] :=
        List.filter_eq_nil_iff.mpr (fun f hf => by have := h1 f hf; simp; omega)
      have e2 : m.filter (fun e => decide (a ≤ e.1)) = m :=
        List.filter_eq_self.mpr (fun f hf => by have := h1 f hf; simp; omega)
      rw [List.filter_cons_of_neg (by simpa using he), List.filter_cons_of_pos (by simp; omega), e1, e2]
      rfl

/-- What a row holds after a row length is written (R43). -/
theorem RowLens.at_set (r : RowLens) (i : Nat) (v : U32) (j : Nat) :
    (r.set i v).at j = if j = i then v else r.at j := by
  have hnew : ∀ b, Cells.get? (if v = 0 then ([] : RowLens) else [(i, v)]) b ≠ none → i ≤ b ∧ b < i + 1 := by
    intro b hb
    split at hb
    · exact absurd rfl hb
    · simp only [Cells.get?_cons, Cells.get?_nil] at hb
      split at hb
      · omega
      · exact absurd rfl hb
  rw [RowLens.at, RowLens.set, Cells.get?_replace j hnew, RowLens.at]
  by_cases hj : j = i
  · subst hj
    rw [if_pos (by omega), if_pos rfl]
    split
    · simp_all
    · simp
  · rw [if_neg (by omega), if_neg hj]

/-- A row length that is written keeps the canonical form. -/
theorem RowLens.wf_set {r : RowLens} (hr : RowLens.wf r) (i : Nat) (v : U32) : RowLens.wf (r.set i v) := by
  refine ⟨Cells.rising_replace hr.1 ?_ ?_, ?_⟩
  · split <;> simp [Cells.Rising]
  · intro e he
    split at he
    · simp at he
    · obtain rfl : e = (i, v) := by simpa using he
      simp
  · intro e he
    rcases Cells.mem_replace he with he | he
    · exact hr.2 e he
    · split at he
      · simp at he
      · obtain rfl : e = (i, v) := by simpa using he
        assumption

theorem RowLens.mem_set {r : RowLens} {i : Nat} {v : U32} {e : Nat × U32} (h : e ∈ r.set i v) :
    e ∈ r ∨ e.1 = i := by
  refine (Cells.mem_replace h).imp_right (fun he => ?_)
  split at he
  · simp at he
  · simp_all

end Sys2Proof.Machine
end

