-- ==== Sys2Proof/Laws/Codec.lean ====
section
/-! SUPPORT. Little-endian fields and the opcode map: what packing and splitting give back. -/

namespace Sys2Proof

@[simp] theorem le_length (n v : Nat) : (le n v).length = n := by
  induction n generalizing v with
  | zero => rfl
  | succ n ih => simp [le, ih]

/-- Reading back n bytes gives the value modulo 2^(8n). -/
theorem fromLe_le (n v : Nat) : fromLe (le n v) = v % 256 ^ n := by
  induction n generalizing v with
  | zero => simp [le, fromLe, Nat.mod_one]
  | succ n ih =>
    have hp : (256 : Nat) ^ (n + 1) = 256 * 256 ^ n := by rw [Nat.pow_succ, Nat.mul_comm]
    rw [le, fromLe, ih, BitVec.toNat_ofNat, hp, Nat.mod_mul]

theorem fromLe_le_of_lt {n v : Nat} (h : v < 256 ^ n) : fromLe (le n v) = v := by
  rw [fromLe_le, Nat.mod_eq_of_lt h]

theorem fromLe_lt (bs : Bytes) : fromLe bs < 256 ^ bs.length := by
  induction bs with
  | nil => simp [fromLe]
  | cons b bs ih =>
    have hb := b.isLt
    rw [fromLe, List.length_cons, Nat.pow_succ]
    omega

/-- Writing back what was read gives the bytes. -/
theorem le_fromLe (bs : Bytes) : le bs.length (fromLe bs) = bs := by
  induction bs with
  | nil => rfl
  | cons b bs ih =>
    have hb := b.isLt
    rw [fromLe, List.length_cons, le]
    congr 1
    · apply BitVec.eq_of_toNat_eq
      rw [BitVec.toNat_ofNat]
      omega
    · rw [show (b.toNat + 256 * fromLe bs) / 256 = fromLe bs by omega, ih]

@[simp] theorem take_le_append (n v : Nat) (bs : Bytes) : (le n v ++ bs).take n = le n v := by
  simp

@[simp] theorem drop_le_append (n v : Nat) (bs : Bytes) : (le n v ++ bs).drop n = bs := by
  simp

/-- The fields have the lengths of their layout. -/
theorem packFields_length {ws vs : List Nat} (h : ws.length = vs.length) : (packFields ws vs).length = ws.sum := by
  induction ws generalizing vs with
  | nil => simp [packFields]
  | cons w ws ih =>
    cases vs with
    | nil => simp at h
    | cons v vs => simp [packFields, ih (by simpa using h)]

/-- Splitting packed fields gives their values, each modulo its width. -/
theorem splitFields_packFields {ws vs : List Nat} (h : ws.length = vs.length) (t : Bytes) :
    splitFields ws (packFields ws vs ++ t) = List.zipWith (fun w v => v % 256 ^ w) ws vs := by
  induction ws generalizing vs with
  | nil => cases vs <;> simp_all [splitFields]
  | cons w ws ih =>
    cases vs with
    | nil => simp at h
    | cons v vs =>
      rw [packFields, splitFields, List.append_assoc, take_le_append, drop_le_append, fromLe_le,
        ih (by simpa using h), List.zipWith_cons_cons]

/-- Packing the fields that were split gives the bytes of the layout. -/
theorem packFields_splitFields (ws : List Nat) (bs : Bytes) (h : ws.sum ≤ bs.length) :
    packFields ws (splitFields ws bs) = bs.take ws.sum := by
  induction ws generalizing bs with
  | nil => simp [packFields]
  | cons w ws ih =>
    rw [List.sum_cons] at h
    have hl : (bs.take w).length = w := by rw [List.length_take]; omega
    rw [splitFields, packFields, ih _ (by rw [List.length_drop]; omega), List.sum_cons, List.take_add]
    congr 1
    have := le_fromLe (bs.take w)
    rwa [hl] at this

@[simp] theorem splitFields_length (ws : List Nat) (bs : Bytes) : (splitFields ws bs).length = ws.length := by
  induction ws generalizing bs with
  | nil => rfl
  | cons w ws ih => simp [splitFields, ih]

@[simp] theorem ofByte?_byte (op : Opcode) : Opcode.ofByte? op.byte = some op := by
  cases op <;> rfl

/-- The opcode map selects by exact match (R91). -/
theorem ofByte?_eq_some_iff (b : Byte) (op : Opcode) : Opcode.ofByte? b = some op ↔ op.byte = b := by
  constructor
  · intro h
    have := List.find?_some h
    simpa using this
  · rintro rfl
    exact ofByte?_byte op

/-- A command has as many field values as its format has fields. -/
theorem fieldValues_length (i : Instr) : i.fieldValues.length = i.opcode.layout.length := by
  cases i <;> rfl

/-- What an opcode builds is one of its commands. -/
theorem build_opcode {op : Opcode} {fields : List Nat} {d : Bytes} {i : Instr} (h : op.build fields d = some i) :
    i.opcode = op := by
  revert h
  simp only [Opcode.build]
  split <;> intro h <;> simp only [Option.some.injEq, reduceCtorEq] at h <;> subst h <;> rfl

/-- What the decoder answers for a packet that begins with a command's opcode (R94). -/
theorem decodeBlock_eq_ok {poseBytes : Nat} {op : Opcode} {rest : Bytes} {i : Instr}
    (h : decodeBlock poseBytes op rest = .ok i) :
    op.blockLen poseBytes ≤ rest.length ∧
      (rest.drop op.layout.sum).length = op.tailLen poseBytes (splitFields op.layout rest) ∧
      op.build (splitFields op.layout rest) (rest.drop op.layout.sum) = some i := by
  simp only [decodeBlock] at h
  split at h
  · cases h
  · split at h
    · cases h
    · rename_i h1 h2
      split at h
      · simp only [Decoded.ok.injEq] at h
        subst h
        exact ⟨by omega, not_not.mp h2, ‹_›⟩
      · cases h

/-- A packet that decodes begins with the opcode byte of its command. -/
theorem decode_head {poseBytes : Nat} {p : Bytes} {i : Instr} (h : decode poseBytes p = .ok i) :
    p.head? = some i.opcode.byte := by
  cases p with
  | nil => cases h
  | cons b rest =>
    simp only [decode] at h
    split at h
    · cases h
    · rename_i op hop
      rw [build_opcode (decodeBlock_eq_ok h).2.2, (ofByte?_eq_some_iff b op).mp hop]
      rfl

end Sys2Proof
end

