-- ==== Sys2Proof/Laws/State.lean ====
section
/-! SUPPORT. One lemma per field per update of the state, so that no proof unfolds a record update. -/

namespace Sys2Proof.Machine

section Updates

variable (s : State) (c d : Channel) (g : Segment) (o : Option Channel) (x : ClockSync) (y : Sharder)
  (i : List PortIn) (os : List PortOut) (st : Status) (r : Bytes) (op : Opcode)

@[simp] theorem setSeg_params : (s.setSeg c g).params = s.params := by cases c <;> rfl
@[simp] theorem setSeg_cs : (s.setSeg c g).cs = s.cs := by cases c <;> rfl
@[simp] theorem setSeg_fs : (s.setSeg c g).fs = s.fs := by cases c <;> rfl
@[simp] theorem setSeg_input : (s.setSeg c g).input = s.input := by cases c <;> rfl
@[simp] theorem setSeg_output : (s.setSeg c g).output = s.output := by cases c <;> rfl
@[simp] theorem setSeg_callout : (s.setSeg c g).sr.callout = s.sr.callout := by cases c <;> rfl
@[simp] theorem setSeg_seg_self : (s.setSeg c g).seg c = g := by cases c <;> rfl
theorem setSeg_seg : (s.setSeg c g).seg d = if d = c then g else s.seg d := by cases c <;> cases d <;> rfl
@[simp] theorem setSeg_setSeg (g' : Segment) : (s.setSeg c g).setSeg c g' = s.setSeg c g' := by cases c <;> rfl
@[simp] theorem setSeg_self : s.setSeg c (s.seg c) = s := by cases c <;> rfl

theorem setSeg_seg_of_ne {c d : Channel} (h : d ≠ c) : (s.setSeg c g).seg d = s.seg d := by
  rw [setSeg_seg, if_neg h]

@[simp] theorem setCallout_params : (s.setCallout o).params = s.params := rfl
@[simp] theorem setCallout_cs : (s.setCallout o).cs = s.cs := rfl
@[simp] theorem setCallout_fs : (s.setCallout o).fs = s.fs := rfl
@[simp] theorem setCallout_input : (s.setCallout o).input = s.input := rfl
@[simp] theorem setCallout_output : (s.setCallout o).output = s.output := rfl
@[simp] theorem setCallout_callout : (s.setCallout o).sr.callout = o := rfl
@[simp] theorem setCallout_seg : (s.setCallout o).seg c = s.seg c := by cases c <;> rfl

@[simp] theorem setCs_params : (s.setCs x).params = s.params := rfl
@[simp] theorem setCs_cs : (s.setCs x).cs = x := rfl
@[simp] theorem setCs_sr : (s.setCs x).sr = s.sr := rfl
@[simp] theorem setCs_fs : (s.setCs x).fs = s.fs := rfl
@[simp] theorem setCs_input : (s.setCs x).input = s.input := rfl
@[simp] theorem setCs_output : (s.setCs x).output = s.output := rfl
@[simp] theorem setCs_seg : (s.setCs x).seg c = s.seg c := by cases c <;> rfl

@[simp] theorem setFs_params : (s.setFs y).params = s.params := rfl
@[simp] theorem setFs_cs : (s.setFs y).cs = s.cs := rfl
@[simp] theorem setFs_sr : (s.setFs y).sr = s.sr := rfl
@[simp] theorem setFs_fs : (s.setFs y).fs = y := rfl
@[simp] theorem setFs_input : (s.setFs y).input = s.input := rfl
@[simp] theorem setFs_output : (s.setFs y).output = s.output := rfl
@[simp] theorem setFs_seg : (s.setFs y).seg c = s.seg c := by cases c <;> rfl
@[simp] theorem setFs_setFs (y' : Sharder) : (s.setFs y).setFs y' = s.setFs y' := rfl

@[simp] theorem setInput_params : (s.setInput i).params = s.params := rfl
@[simp] theorem setInput_cs : (s.setInput i).cs = s.cs := rfl
@[simp] theorem setInput_sr : (s.setInput i).sr = s.sr := rfl
@[simp] theorem setInput_fs : (s.setInput i).fs = s.fs := rfl
@[simp] theorem setInput_input : (s.setInput i).input = i := rfl
@[simp] theorem setInput_output : (s.setInput i).output = s.output := rfl
@[simp] theorem setInput_seg : (s.setInput i).seg c = s.seg c := by cases c <;> rfl

@[simp] theorem emit_params : (s.emit os).params = s.params := rfl
@[simp] theorem emit_cs : (s.emit os).cs = s.cs := rfl
@[simp] theorem emit_sr : (s.emit os).sr = s.sr := rfl
@[simp] theorem emit_fs : (s.emit os).fs = s.fs := rfl
@[simp] theorem emit_input : (s.emit os).input = s.input := rfl
@[simp] theorem emit_output : (s.emit os).output = s.output ++ os := rfl
@[simp] theorem emit_seg : (s.emit os).seg c = s.seg c := by cases c <;> rfl

@[simp] theorem respond_params : (s.respond st r).params = s.params := rfl
@[simp] theorem respond_cs : (s.respond st r).cs = s.cs := rfl
@[simp] theorem respond_sr : (s.respond st r).sr = s.sr := rfl
@[simp] theorem respond_fs : (s.respond st r).fs = s.fs := rfl
@[simp] theorem respond_input : (s.respond st r).input = s.input := rfl
@[simp] theorem respond_output : (s.respond st r).output = s.output ++ [.resp (st.byte :: r)] := rfl
@[simp] theorem respond_seg : (s.respond st r).seg c = s.seg c := by cases c <;> rfl

@[simp] theorem raise_params : (s.raise st op).params = s.params := rfl
@[simp] theorem raise_cs : (s.raise st op).cs = s.cs := rfl
@[simp] theorem raise_sr : (s.raise st op).sr = s.sr := rfl
@[simp] theorem raise_fs : (s.raise st op).fs = s.fs := rfl
@[simp] theorem raise_input : (s.raise st op).input = s.input := rfl
@[simp] theorem raise_output :
    (s.raise st op).output = s.output ++ [.resp (st.byte :: List.replicate op.resultLen 0)] := rfl
@[simp] theorem raise_seg : (s.raise st op).seg c = s.seg c := by cases c <;> rfl

end Updates

/-- Two states with equal registers, buffers and ports are equal. -/
theorem State.ext_fields {s t : State} (hp : s.params = t.params) (hc : s.cs = t.cs) (hg : ∀ c, s.seg c = t.seg c)
    (ho : s.sr.callout = t.sr.callout) (hf : s.fs = t.fs) (hi : s.input = t.input) (hx : s.output = t.output) :
    s = t := by
  obtain ⟨p, c, ⟨g0, g1, g2, o⟩, f, i, x⟩ := s
  obtain ⟨p', c', ⟨g0', g1', g2', o'⟩, f', i', x'⟩ := t
  have h0 := hg .ch0
  have h1 := hg .ch1
  have h2 := hg .ch2
  simp only [State.seg] at h0 h1 h2 hp hc ho hf hi hx
  subst h0 h1 h2 hp hc ho hf hi hx
  rfl

end Sys2Proof.Machine
end

