-- ==== Sys2Proof/Laws/Ops.lean ====
section
/-! SUPPORT. Once for each shared operation: everything it can do. -/

namespace Sys2Proof.Machine

/-! ### Outcomes -/

@[simp] theorem ofExcept_eq_next {x : Except Fault State} {t : State} : ofExcept x = .next t ↔ x = .ok t := by
  cases x <;> simp [ofExcept]

@[simp] theorem ofExcept_ne_refused {x : Except Fault State} {r : Refusal} : ofExcept x ≠ .refused r := by
  cases x <;> simp [ofExcept]

/-! ### Ports -/

/-- The handler's return with a transfer open on channel c (R188). -/
theorem handlerReturn_of_open {s : State} {c : Channel} (h : s.sr.callout = some c) :
    s.handlerReturn = ((s.setSeg c (s.seg c).emptied).setCallout none).respond .ok (le 1 1 ++ le32 0) := by
  rw [State.handlerReturn, h]

/-- The handler's return with no transfer open (log 4). -/
theorem handlerReturn_of_none {s : State} (h : s.sr.callout = none) : s.handlerReturn = s := by
  rw [State.handlerReturn, h]

/-! ### Buffers -/

theorem segWrite_eq_ok {s t : State} {c : Channel} {a : Nat} {v : Bytes} (h : s.segWrite c a v = .ok t) :
    a + v.length ≤ s.params.segCeiling ∧
      t = s.setSeg c { s.seg c with buf := Cells.write (s.seg c).buf a v } := by
  rw [State.segWrite] at h
  split at h
  · cases h
  · exact ⟨by omega, by simpa using h.symm⟩

theorem segWrite_of_inside {s : State} {c : Channel} {a : Nat} {v : Bytes} (h : a + v.length ≤ s.params.segCeiling) :
    s.segWrite c a v = .ok (s.setSeg c { s.seg c with buf := Cells.write (s.seg c).buf a v }) := by
  rw [State.segWrite, if_neg (by omega)]

theorem segRead_eq_ok {s : State} {c : Channel} {a n : Nat} {v : Bytes} (h : s.segRead c a n = .ok v) :
    a + n ≤ s.params.segCeiling ∧ Cells.read (s.seg c).buf a n = some v := by
  rw [State.segRead] at h
  split at h
  · cases h
  · split at h
    · cases h
    · simp only [Except.ok.injEq] at h
      subst h
      exact ⟨by omega, ‹_›⟩

theorem segRead_of_read {s : State} {c : Channel} {a n : Nat} {v : Bytes} (h : a + n ≤ s.params.segCeiling)
    (hv : Cells.read (s.seg c).buf a n = some v) : s.segRead c a n = .ok v := by
  rw [State.segRead, if_neg (by omega), hv]

theorem rowFits_iff {s : State} {i n : Nat} :
    s.rowFits i n = true ↔ i < s.params.fsMaxShards ∧ n ≤ s.params.protoMaxPayload := by
  simp [State.rowFits]

theorem storeWrite_eq_ok {s t : State} {i : Nat} {v : Bytes} (h : s.storeWrite i v = .ok t) :
    (i < s.params.fsMaxShards ∧ v.length ≤ s.params.protoMaxPayload) ∧
      t = s.setFs { s.fs with store := Cells.write s.fs.store (s.rowBase i) v } := by
  rw [State.storeWrite] at h
  split at h
  · exact ⟨rowFits_iff.mp ‹_›, by simpa using h.symm⟩
  · cases h

theorem storeWrite_of_fits {s : State} {i : Nat} {v : Bytes}
    (h : i < s.params.fsMaxShards ∧ v.length ≤ s.params.protoMaxPayload) :
    s.storeWrite i v = .ok (s.setFs { s.fs with store := Cells.write s.fs.store (s.rowBase i) v }) := by
  rw [State.storeWrite, if_pos (rowFits_iff.mpr h)]

theorem storeRow_eq_ok {s : State} {i : Nat} {v : Bytes} (h : s.storeRow i = .ok v) :
    (i < s.params.fsMaxShards ∧ (s.fs.rowlen.at i).toNat ≤ s.params.protoMaxPayload) ∧
      Cells.read s.fs.store (s.rowBase i) (s.fs.rowlen.at i).toNat = some v := by
  simp only [State.storeRow] at h
  split at h
  · split at h
    · cases h
    · simp only [Except.ok.injEq] at h
      subst h
      exact ⟨rowFits_iff.mp ‹_›, ‹_›⟩
  · cases h

theorem storeRow_of_read {s : State} {i : Nat} {v : Bytes}
    (h : i < s.params.fsMaxShards ∧ (s.fs.rowlen.at i).toNat ≤ s.params.protoMaxPayload)
    (hv : Cells.read s.fs.store (s.rowBase i) (s.fs.rowlen.at i).toNat = some v) : s.storeRow i = .ok v := by
  simp only [State.storeRow]
  rw [if_pos (rowFits_iff.mpr h), hv]

/-- Every buffer operation keeps the canonical form of every segment buffer. -/
theorem segWrite_keeps_wf {s t : State} {c : Channel} {a : Nat} {v : Bytes} (h : s.segWrite c a v = .ok t)
    (hs : ∀ d, Memory.wf (s.seg d).buf) : ∀ d, Memory.wf (t.seg d).buf := by
  obtain ⟨_, rfl⟩ := segWrite_eq_ok h
  intro d
  rw [setSeg_seg]
  split
  · exact Cells.rising_write (hs c) a v
  · exact hs d

/-- Every buffer operation keeps the canonical form of STORE. -/
theorem storeWrite_keeps_wf {s t : State} {i : Nat} {v : Bytes} (h : s.storeWrite i v = .ok t)
    (hs : Memory.wf s.fs.store) : Memory.wf t.fs.store := by
  obtain ⟨_, rfl⟩ := storeWrite_eq_ok h
  exact Cells.rising_write hs _ _

/-- The memories of the reset state have the canonical form. -/
theorem reset_memories_wf : (∀ c, Memory.wf (State.reset.seg c).buf) ∧ Memory.wf State.reset.fs.store :=
  ⟨fun c => by cases c <;> exact List.Pairwise.nil, List.Pairwise.nil⟩

/-! ### Which event is taken next -/

@[simp] theorem holds_free (e : PortIn) : Gate.holds .free e = false := rfl

@[simp] theorem takeEvent_nil (g : Gate) : takeEvent g [] = none := rfl

@[simp] theorem takeEvent_free_cons (e : PortIn) (es : List PortIn) : takeEvent .free (e :: es) = some (e, es) := rfl

/-- The event taken is one of those that arrived, and the others keep their order. -/
theorem takeEvent_eq_some {g : Gate} {es rest : List PortIn} {e : PortIn} (h : takeEvent g es = some (e, rest)) :
    ∃ pre post, es = pre ++ e :: post ∧ rest = pre ++ post := by
  induction es generalizing g rest with
  | nil => simp at h
  | cons a es ih =>
    rw [takeEvent] at h
    split at h
    · simp only [Option.map_eq_some_iff, Prod.mk.injEq, Prod.exists] at h
      obtain ⟨e', r, hr, rfl, rfl⟩ := h
      obtain ⟨pre, post, rfl, rfl⟩ := ih hr
      exact ⟨a :: pre, post, rfl, rfl⟩
    · simp only [Option.some.injEq, Prod.mk.injEq] at h
      obtain ⟨rfl, rfl⟩ := h
      exact ⟨[], es, rfl, rfl⟩

/-- With a callout open, an event that is taken is none that must wait. -/
theorem takeEvent_not_held {g : Gate} {es rest : List PortIn} {e : PortIn} (h : takeEvent g es = some (e, rest)) :
    g = .free ∨ Gate.holds .callout e = false := by
  induction es generalizing g rest with
  | nil => cases h
  | cons a es ih =>
    rw [takeEvent] at h
    split at h
    · simp only [Option.map_eq_some_iff, Prod.mk.injEq, Prod.exists] at h
      obtain ⟨e', r, hr, rfl, rfl⟩ := h
      refine (ih hr).imp (fun hg => ?_) id
      cases g with
      | free => rfl
      | callout => cases a <;> simp [Gate.behind] at hg; split at hg <;> cases hg
      | resetWaits => cases a <;> simp [Gate.behind] at hg
    · rename_i hh
      simp only [Option.some.injEq, Prod.mk.injEq] at h
      obtain ⟨rfl, rfl⟩ := h
      cases g with
      | free => exact Or.inl rfl
      | callout => exact Or.inr (by simpa using hh)
      | resetWaits => right; cases a <;> simp [Gate.holds] at hh ⊢

/-- Taking an event changes the arrived events alone. -/
theorem nextEvent_eq_some {s t : State} {e : PortIn} (h : s.nextEvent = some (e, t)) :
    ∃ rest, takeEvent s.gate s.input = some (e, rest) ∧ t = s.setInput rest := by
  simp only [State.nextEvent, Option.map_eq_some_iff, Prod.mk.injEq, Prod.exists] at h
  obtain ⟨e', r, hr, rfl, rfl⟩ := h
  exact ⟨r, hr, rfl⟩

/-- What a step is: idle, the run of a packet, or the handler's return. -/
theorem step_cases (s : State) :
    (s.nextEvent = none ∧ step s = .next s) ∨
      (∃ p s1, s.nextEvent = some (.command p, s1) ∧ step s = runPacket p s1) ∨
      (∃ s1, s.nextEvent = some (.handlerReturn, s1) ∧ step s = .next s1.handlerReturn) := by
  rw [step]
  split
  · exact Or.inl ⟨‹_›, rfl⟩
  · exact Or.inr (Or.inl ⟨_, _, ‹_›, rfl⟩)
  · exact Or.inr (Or.inr ⟨_, ‹_›, rfl⟩)

end Sys2Proof.Machine
end

