-- ==== Sys2Proof/Laws/Sharder.lean ====
section
/-! SUPPORT. Once for each shared operation of the sharder: everything it can do. -/

namespace Sys2Proof.Machine

theorem releaseHeld_eq_ok {s t : State} {view : Option ViewInfo} (h : s.releaseHeld view = .ok t) :
    ∃ payload, s.storeRow s.fs.lastIdx.toNat = .ok payload ∧
      t = (s.emit [.tx .data 0 (s.fs.heldShard view payload).serialize]).setFs { s.fs with heldValid := false } := by
  rw [State.releaseHeld] at h
  split at h
  · cases h
  · exact ⟨_, ‹_›, by simpa using h.symm⟩

theorem releaseIfHeld_eq_ok {s t : State} (h : s.releaseIfHeld = .ok t) :
    (s.fs.heldValid = false ∧ t = s) ∨ (s.fs.heldValid = true ∧ s.releaseHeld none = .ok t) := by
  rw [State.releaseIfHeld] at h
  split at h
  · exact Or.inr ⟨‹_›, h⟩
  · rename_i hn
    simp only [Except.ok.injEq] at h
    exact Or.inl ⟨Bool.eq_false_iff.mpr hn, h.symm⟩

theorem holdShard_eq_ok {s t : State} {flags : Byte} {payload : Bytes} (h : s.holdShard flags payload = .ok t) :
    (s.fs.nextIdx.toNat < s.params.fsMaxShards ∧ payload.length ≤ s.params.protoMaxPayload) ∧
      t = s.setFs { s.fs with
        store := Cells.write s.fs.store (s.rowBase s.fs.nextIdx.toNat) payload
        rowlen := s.fs.rowlen.set s.fs.nextIdx.toNat (BitVec.ofNat 32 payload.length)
        nextIdx := s.fs.nextIdx + 1
        heldFlags := flags
        heldValid := true } := by
  rw [State.holdShard] at h
  split at h
  · cases h
  · rename_i s1 h1
    obtain ⟨hf, rfl⟩ := storeWrite_eq_ok h1
    exact ⟨hf, by simpa using h.symm⟩

theorem newShard_eq_ok {s t : State} {flags : Byte} {payload : Bytes} (h : s.newShard flags payload = .ok t) :
    ∃ s1, s.releaseIfHeld = .ok s1 ∧ s1.holdShard flags payload = .ok t := by
  rw [State.newShard] at h
  split at h
  · cases h
  · exact ⟨_, ‹_›, h⟩

theorem pushFrom_cons_eq_ok {s t : State} {n j : Nat} {d : Bytes} {ds : List Bytes}
    (h : s.pushFrom n j (d :: ds) = .ok t) :
    ∃ s1, s.newShard (sliceFlags j n) d = .ok s1 ∧ s1.pushFrom n (j + 1) ds = .ok t := by
  rw [State.pushFrom] at h
  split at h
  · cases h
  · exact ⟨_, ‹_›, h⟩

theorem push_eq_ok {s t : State} {mp : Nat} {data : Bytes} (h : s.push mp data = .ok t) :
    ∃ s1, s.pushFrom (shardCount data.length mp) 0 (pieces mp data) = .ok s1 ∧
      t = s1.respond .ok (le 4 (shardCount data.length mp) ++
        le 4 (releasedCount s.fs.heldValid (shardCount data.length mp))) := by
  simp only [State.push] at h
  split at h
  · cases h
  · exact ⟨_, ‹_›, by simpa using h.symm⟩

theorem storeRows_succ_eq_ok {s : State} {i n : Nat} {rows : List Bytes} (h : s.storeRows i (n + 1) = .ok rows) :
    ∃ row rest, s.storeRow i = .ok row ∧ s.storeRows (i + 1) n = .ok rest ∧ rows = row :: rest := by
  rw [State.storeRows] at h
  split at h
  · cases h
  · split at h
    · cases h
    · exact ⟨_, _, ‹_›, ‹_›, by simpa using h.symm⟩

/-- Reading the rows from i on answers one payload for each row, each what that row holds. -/
theorem storeRows_eq_ok {s : State} {i n : Nat} {rows : List Bytes} (h : s.storeRows i n = .ok rows) :
    rows.length = n ∧ ∀ j, (hj : j < rows.length) → s.storeRow (i + j) = .ok rows[j] := by
  induction n generalizing i rows with
  | zero =>
    simp only [State.storeRows, Except.ok.injEq] at h
    subst h
    exact ⟨rfl, fun j hj => absurd hj (by simp)⟩
  | succ n ih =>
    obtain ⟨row, rest, h1, h2, rfl⟩ := storeRows_succ_eq_ok h
    obtain ⟨hl, hall⟩ := ih h2
    refine ⟨by simp [hl], fun j hj => ?_⟩
    cases j with
    | zero => exact h1
    | succ j =>
      have := hall j (by simpa using hj)
      rwa [show i + 1 + j = i + (j + 1) by omega] at this

/-- Reading rows that all can be read answers. -/
theorem storeRows_of_rows {s : State} {i n : Nat} (h : ∀ j, j < n → ∃ v, s.storeRow (i + j) = .ok v) :
    ∃ rows, s.storeRows i n = .ok rows := by
  induction n generalizing i with
  | zero => exact ⟨[], rfl⟩
  | succ n ih =>
    obtain ⟨v, hv⟩ := h 0 (by omega)
    obtain ⟨vs, hvs⟩ := ih (i := i + 1) (fun j hj => by
      have := h (j + 1) (by omega)
      rwa [show i + (j + 1) = i + 1 + j by omega] at this)
    rw [Nat.add_zero] at hv
    exact ⟨v :: vs, by rw [State.storeRows, hv, hvs]⟩

theorem extraShard_eq_ok {s t : State} (h : s.extraShard = .ok t) :
    (s.needsExtraShard = false ∧ t = s) ∨
      (s.needsExtraShard = true ∧ s.newShard (startOfSlice ||| endOfSlice) [] = .ok t) := by
  rw [State.extraShard] at h
  split at h
  · exact Or.inr ⟨‹_›, h⟩
  · rename_i hn
    simp only [Except.ok.injEq] at h
    exact Or.inl ⟨Bool.eq_false_iff.mpr hn, h.symm⟩

theorem finishFrame_eq_ok {s t : State} (h : s.finishFrame = .ok t) :
    ∃ payloads, s.storeRows 0 s.fs.nextIdx.toNat = .ok payloads ∧
      t = ((s.emit (fecResult s.params.coder s.fs.streamIdx s.fs.frameIdx s.fs.nextIdx.toNat
            (s.paddedLen s.fs.nextIdx.toNat) payloads).packets).closeFrame.respond
          (fecResult s.params.coder s.fs.streamIdx s.fs.frameIdx s.fs.nextIdx.toNat
            (s.paddedLen s.fs.nextIdx.toNat) payloads).status
          (fecResult s.params.coder s.fs.streamIdx s.fs.frameIdx s.fs.nextIdx.toNat
            (s.paddedLen s.fs.nextIdx.toNat) payloads).results) := by
  simp only [State.finishFrame] at h
  split at h
  · cases h
  · exact ⟨_, ‹_›, by simpa using h.symm⟩

theorem final_eq_ok {s t : State} {view : ViewInfo} (h : s.final view = .ok t) :
    ∃ s1 s2, s.extraShard = .ok s1 ∧ s1.markEndOfFrame.releaseHeld (some view) = .ok s2 ∧ s2.finishFrame = .ok t := by
  rw [State.final] at h
  split at h
  · cases h
  · split at h
    · cases h
    · exact ⟨_, _, ‹_›, ‹_›, h⟩

/-- The pieces of a push are as many as its shards. -/
theorem cut_length (mp n : Nat) (d : Bytes) : (cut mp n d).length = n := by
  induction n generalizing d with
  | zero => rfl
  | succ n ih => simp [cut, ih]

/-- Piece j is the bytes from j * mp on, at most mp of them. -/
theorem cut_getElem (mp n j : Nat) (d : Bytes) (hj : j < (cut mp n d).length) :
    (cut mp n d)[j] = (d.drop (j * mp)).take mp := by
  induction n generalizing d j with
  | zero => simp [cut] at hj
  | succ n ih =>
    cases j with
    | zero => simp [cut]
    | succ j =>
      simp only [cut, List.getElem_cons_succ]
      rw [ih, List.drop_drop, Nat.succ_mul, Nat.add_comm]

end Sys2Proof.Machine
end

