-- ==== Sys2Proof/Laws/Rows.lean ====
section
/-! SUPPORT. What a row of STORE holds, and what FS_PUSH leaves in the rows and sends: everything its loop can do. -/

namespace Sys2Proof.Machine

open Sys2Proof.Safety

/-- Row i lies inside STORE and all of its bytes are written. -/
abbrev RowOk (p : Params) (x : Sharder) (i : Nat) : Prop :=
  i < p.fsMaxShards ∧ (x.rowlen.at i).toNat ≤ p.protoMaxPayload ∧
    Written x.store (i * p.protoMaxPayload) (x.rowlen.at i).toNat

/-- A row that is all written can be read. -/
theorem storeRow_of_rowOk {s : State} (hw : Memory.wf s.fs.store) {i : Nat} (h : RowOk s.params s.fs i) :
    ∃ v, s.storeRow i = .ok v ∧ RowIs s i v := by
  obtain ⟨vs, hr, hl, hall⟩ := Cells.read_of_written hw h.2.2
  refine ⟨vs, storeRow_of_read ⟨h.1, h.2.1⟩ hr, hl.symm, fun o ho => ?_⟩
  exact hall o (by omega)

/-- What a row reads as is what it holds. -/
theorem rowIs_of_storeRow {s : State} (hw : Memory.wf s.fs.store) {i : Nat} {v : Bytes} (h : s.storeRow i = .ok v) :
    RowIs s i v := by
  obtain ⟨_, h2⟩ := storeRow_eq_ok h
  obtain ⟨hl, hall⟩ := (Cells.read_eq_some_iff hw _ _ _).mp h2
  exact ⟨hl.symm, fun o ho => hall o (by omega)⟩

/-- A row holds one byte string. -/
theorem rowIs_unique {s : State} {i : Nat} {v w : Bytes} (hv : RowIs s i v) (hw : RowIs s i w) : v = w := by
  have hl : v.length = w.length := hv.1.symm.trans hw.1
  apply List.ext_getElem?
  intro o
  by_cases ho : o < v.length
  · rw [← hv.2 o ho, ← hw.2 o (by omega)]
  · rw [List.getElem?_eq_none (by omega), List.getElem?_eq_none (by omega)]

/-- What a row inside STORE holds can be read. -/
theorem storeRow_of_rowIs {s : State} (hw : Memory.wf s.fs.store) {i : Nat} {v : Bytes}
    (hi : i < s.params.fsMaxShards) (hl : v.length ≤ s.params.protoMaxPayload) (h : RowIs s i v) :
    s.storeRow i = .ok v := by
  refine storeRow_of_read ⟨hi, by rw [h.1]; exact hl⟩ ?_
  rw [Cells.read_eq_some_iff hw]
  exact ⟨h.1.symm, fun o ho => h.2 o (by rw [← h.1]; exact ho)⟩

/-- What `new_shard` leaves (R214), with these packets released. -/
def shardAdded (s : State) (flags : Byte) (payload : Bytes) (rel : List PortOut) : State :=
  (s.emit rel).setFs { s.fs with
    store := Cells.write s.fs.store (s.rowBase s.fs.nextIdx.toNat) payload
    rowlen := s.fs.rowlen.set s.fs.nextIdx.toNat (BitVec.ofNat 32 payload.length)
    nextIdx := s.fs.nextIdx + 1
    heldFlags := flags
    heldValid := true }

/-- `new_shard` on a payload that fits, with the held shard readable (R214). -/
theorem newShard_of {s : State} {flags : Byte} {payload held : Bytes}
    (hh : s.fs.heldValid = true → s.storeRow s.fs.lastIdx.toNat = .ok held)
    (hf : s.fs.nextIdx.toNat < s.params.fsMaxShards ∧ payload.length ≤ s.params.protoMaxPayload) :
    s.newShard flags payload = .ok (shardAdded s flags payload
      (if s.fs.heldValid then [.tx .data 0 (s.fs.heldShard none held).serialize] else [])) := by
  by_cases hv : s.fs.heldValid = true
  · have := hh hv
    rw [State.newShard, State.releaseIfHeld, if_pos hv, State.releaseHeld, this]
    simp only [State.holdShard]
    rw [storeWrite_of_fits (by simpa using hf)]
    simp [hv, shardAdded, State.rowBase]
  · rw [State.newShard, State.releaseIfHeld, if_neg hv]
    simp only [State.holdShard]
    rw [storeWrite_of_fits hf]
    simp [hv, shardAdded, State.emit, State.setFs]

theorem toNat_sub_one {n : U32} {i : Nat} (h : n.toNat = i + 1) : (n - 1).toNat = i := by
  have := n.isLt
  rw [BitVec.toNat_sub]
  simp
  omega

/-- The pieces of a push, by number (R213). -/
theorem pieces_eq (mp : Nat) (data : Bytes) :
    pieces mp data = (List.range (shardCount data.length mp)).map (pieceAt mp data) := by
  apply List.ext_getElem
  · simp [pieces, cut_length]
  · intro j h1 h2
    simp only [List.getElem_map, List.getElem_range]
    exact cut_getElem _ _ _ _ h1

/-- A row that has just been written holds what was written. -/
theorem rowIs_of_write {s t : State} {i : Nat} {d : Bytes} (hd : d.length < 2 ^ 32)
    (hxs : t.fs.store = Cells.write s.fs.store (s.rowBase i) d)
    (hr : t.fs.rowlen = s.fs.rowlen.set i (BitVec.ofNat 32 d.length)) (hp : t.params = s.params) :
    RowIs t i d := by
  refine ⟨by rw [hr, RowLens.at_set, if_pos rfl, BitVec.toNat_ofNat, Nat.mod_eq_of_lt hd], fun o ho => ?_⟩
  have hb : t.rowBase i = s.rowBase i := by simp only [State.rowBase, hp]
  rw [hxs, hb, Cells.get?_write, if_pos (by omega)]
  congr 1
  omega

/-- The DATA packets that shards with these flags and payloads release when they are made from index i on: the shard held
before, if any, and all of them but the last (R214). -/
def released (st : Byte) (fr : U64) : Nat → Option (Byte × Bytes) → List (Byte × Bytes) → List PortOut
  | _, _, [] => []
  | i, none, x :: xs => released st fr (i + 1) (some x) xs
  | i, some h, x :: xs => .tx .data 0 (dataPacket st fr (i - 1) h.1 [] h.2) :: released st fr (i + 1) (some x) xs

/-- The bytes of the held shard (R115). -/
theorem heldShard_serialize (x : Sharder) (i : Nat) (hi : x.nextIdx.toNat = i + 1) (view : Option ViewInfo) (d : Bytes) :
    (x.heldShard view d).serialize = dataPacket x.streamIdx x.frameIdx i x.heldFlags (ViewInfo.bytes view) d := by
  simp only [Shard.serialize, Sharder.heldShard, dataPacket, le64, le32, Sharder.lastIdx, toNat_sub_one hi]

/-- The loop of FS_PUSH from shard j on, where every shard has a row (R211, R214): which rows, registers and packets it
leaves. -/
theorem pushFrom_of (ds : List Bytes) : ∀ (s : State) (n j : Nat) (held : Bytes),
    Memory.wf s.fs.store → (s.fs.heldValid = true ↔ s.fs.nextIdx ≠ 0) →
    (s.fs.heldValid = true → RowIs s (s.fs.nextIdx.toNat - 1) held ∧ held.length ≤ s.params.protoMaxPayload) →
    s.fs.nextIdx.toNat + ds.length < 2 ^ 32 → s.fs.nextIdx.toNat + ds.length ≤ s.params.fsMaxShards →
    (∀ d ∈ ds, d.length ≤ s.params.protoMaxPayload ∧ d.length < 2 ^ 32) →
    ∃ t, s.pushFrom n j ds = .ok t ∧ SameOutsideSharder s t ∧
      t.fs.isOpen = s.fs.isOpen ∧ t.fs.frameIdx = s.fs.frameIdx ∧ t.fs.streamIdx = s.fs.streamIdx ∧
      t.fs.nextIdx.toNat = s.fs.nextIdx.toNat + ds.length ∧
      t.fs.heldValid = (s.fs.heldValid || decide (0 < ds.length)) ∧
      t.fs.heldFlags = (if ds.length = 0 then s.fs.heldFlags else sliceFlags (j + ds.length - 1) n) ∧
      (∀ k (hk : k < ds.length), RowIs t (s.fs.nextIdx.toNat + k) ds[k]) ∧
      (∀ i, ¬(s.fs.nextIdx.toNat ≤ i ∧ i < s.fs.nextIdx.toNat + ds.length) → t.fs.rowlen.at i = s.fs.rowlen.at i) ∧
      (∀ a, (∀ k (hk : k < ds.length), ¬(s.rowBase (s.fs.nextIdx.toNat + k) ≤ a ∧
          a < s.rowBase (s.fs.nextIdx.toNat + k) + ds[k].length)) →
        Cells.get? t.fs.store a = Cells.get? s.fs.store a) ∧
      Memory.wf t.fs.store ∧ (RowLens.wf s.fs.rowlen → RowLens.wf t.fs.rowlen) ∧
      (∀ e ∈ t.fs.rowlen, e ∈ s.fs.rowlen ∨ e.1 < s.params.fsMaxShards) ∧
      (∀ e ∈ t.fs.store, e ∈ s.fs.store ∨ e.1 < s.params.fsMaxShards * s.params.protoMaxPayload) ∧
      t.output = s.output ++ released s.fs.streamIdx s.fs.frameIdx s.fs.nextIdx.toNat
        (if s.fs.heldValid then some (s.fs.heldFlags, held) else none)
        (ds.mapIdx (fun k d => (sliceFlags (j + k) n, d))) := by
  induction ds with
  | nil =>
    intro s n j held hw hh hr h1 h2 hd
    refine ⟨s, rfl, ⟨rfl, rfl, rfl, rfl⟩, rfl, rfl, rfl, by simp, by simp, by simp, by simp, by simp, by simp, hw, id,
      fun _ => Or.inl, fun _ => Or.inl, ?_⟩
    simp only [List.mapIdx_nil]
    split <;> simp [released]
  | cons d ds ih =>
    intro s n j held hw hh hr h1 h2 hd
    simp only [List.length_cons] at h1 h2
    have hd0 := hd d (by simp)
    have hstore : s.fs.heldValid = true → s.storeRow s.fs.lastIdx.toNat = .ok held := by
      intro hv
      have hne := hh.mp hv
      have : s.fs.nextIdx.toNat ≠ 0 := fun h => hne (BitVec.eq_of_toNat_eq h)
      rw [Sharder.lastIdx, toNat_sub_one (i := s.fs.nextIdx.toNat - 1) (by omega)]
      exact storeRow_of_rowIs hw (by omega) (hr hv).2 (hr hv).1
    have hnew := newShard_of (flags := sliceFlags j n) (payload := d) hstore ⟨by omega, hd0.1⟩
    generalize hs1 : shardAdded s (sliceFlags j n) d _ = s1 at hnew
    have hp1 : s1.params = s.params := by subst hs1; rfl
    have hfs : s1.fs = { s.fs with
        store := Cells.write s.fs.store (s.rowBase s.fs.nextIdx.toNat) d
        rowlen := s.fs.rowlen.set s.fs.nextIdx.toNat (BitVec.ofNat 32 d.length)
        nextIdx := s.fs.nextIdx + 1
        heldFlags := sliceFlags j n
        heldValid := true } := by subst hs1; rfl
    have hnx : (s.fs.nextIdx + 1).toNat = s.fs.nextIdx.toNat + 1 := by
      rw [BitVec.toNat_add]; simp; omega
    have hrow1 : RowIs s1 s.fs.nextIdx.toNat d :=
      rowIs_of_write hd0.2 (by rw [hfs]) (by rw [hfs]) hp1
    obtain ⟨t, ht, hso, ho, hfi, hst, hni, hhv, hhf, hrows, hrl, hmem, hwf, hrwf, hrin, hsin, hout⟩ :=
      ih s1 n (j + 1) d (by rw [hfs]; exact Cells.rising_write hw _ _)
        (by rw [hfs]; simp only [true_iff]; intro h; rw [h] at hnx; simp at hnx)
        (by
          rw [hfs]
          simp only [hnx, forall_const, Nat.add_sub_cancel]
          exact ⟨hrow1, by rw [hp1]; exact hd0.1⟩)
        (by rw [hfs]; simp only [hnx]; omega) (by rw [hfs]; simp only [hnx]; rw [hp1]; omega)
        (by intro e he; rw [hp1]; exact hd e (by simp [he]))
    rw [hp1] at hrin hsin
    simp only [hfs, hnx] at ho hfi hst hni hhv hhf hrows hrl hmem hrwf hrin hsin
    refine ⟨t, ?_, ?_, ho, hfi, hst, by simp only [List.length_cons]; omega, by simpa using hhv, ?_, ?_, ?_, ?_, hwf,
      ?_, ?_, ?_, ?_⟩
    · rw [State.pushFrom, hnew]; exact ht
    · subst hs1; exact ⟨hso.params, hso.cs, hso.sr, hso.input⟩
    · rw [hhf]
      cases ds with
      | nil => simp
      | cons a as => simp; congr 1; omega
    · intro k hk
      cases k with
      | zero =>
        simp only [List.getElem_cons_zero, Nat.add_zero]
        -- row kept by the rest
        refine ⟨?_, fun o ho => ?_⟩
        · rw [hrl _ (by omega)]
          have := hrow1.1; rw [hfs] at this; exact this
        · have h3 := hrow1.2 o ho
          rw [State.rowBase, hp1] at h3
          rw [State.rowBase, hso.params, hp1, hmem]
          · rw [hfs] at h3; exact h3
          · intro k hk
            have : (s.fs.nextIdx.toNat + 1) * s.params.protoMaxPayload ≤
                (s.fs.nextIdx.toNat + 1 + k) * s.params.protoMaxPayload :=
              Nat.mul_le_mul_right _ (by omega)
            rw [State.rowBase, hp1]
            rw [Nat.succ_mul] at this
            omega
      | succ k =>
        have := hrows k (by simpa using hk)
        rw [List.getElem_cons_succ]
        rwa [show s.fs.nextIdx.toNat + (k + 1) = s.fs.nextIdx.toNat + 1 + k by omega]
    · intro i hi
      simp only [List.length_cons] at hi
      rw [hrl i (by omega), RowLens.at_set, if_neg (by omega)]
    · intro a ha
      rw [hmem a, Cells.get?_write_outside]
      · have := ha 0 (by simp); simpa using this
      · intro k hk
        have := ha (k + 1) (by simpa using hk)
        rw [List.getElem_cons_succ] at this
        rw [State.rowBase, hp1]
        rw [State.rowBase] at this
        rwa [show s.fs.nextIdx.toNat + 1 + k = s.fs.nextIdx.toNat + (k + 1) by omega]
    · intro h; exact hrwf (RowLens.wf_set h _ _)
    · intro e he
      rcases hrin e he with h | h
      · rcases RowLens.mem_set h with h | h
        · exact Or.inl h
        · right; omega
      · exact Or.inr h
    · intro e he
      rcases hsin e he with h | h
      · rcases Cells.mem_write h with h | h
        · exact Or.inl h
        · right
          have : (s.fs.nextIdx.toNat + 1) * s.params.protoMaxPayload ≤
              s.params.fsMaxShards * s.params.protoMaxPayload :=
              Nat.mul_le_mul_right _ (by omega)
          rw [State.rowBase] at h
          rw [Nat.succ_mul] at this
          omega
      · exact Or.inr h
    · rw [hout]
      simp only [hfs, hnx, if_true]
      have hs1o : s1.output = s.output ++
          (if s.fs.heldValid then [.tx .data 0 (s.fs.heldShard none held).serialize] else []) := by
        subst hs1; rfl
      rw [hs1o, List.append_assoc]
      congr 1
      rw [List.mapIdx_cons]
      by_cases hv : s.fs.heldValid = true
      · have : s.fs.nextIdx.toNat ≠ 0 := fun h => hh.mp hv (BitVec.eq_of_toNat_eq h)
        rw [if_pos hv, if_pos hv, released, heldShard_serialize s.fs (s.fs.nextIdx.toNat - 1) (by omega)]
        simp only [List.singleton_append, Nat.add_zero]
        congr 2
        simp only [Nat.add_assoc, Nat.add_comm 1]
      · rw [if_neg hv, if_neg hv, released]
        simp only [List.nil_append, Nat.add_zero]
        simp only [Nat.add_assoc, Nat.add_comm 1]

end Sys2Proof.Machine
end

