-- ==== Sys2Proof/Laws/Fec.lean ====
section
/-! SUPPORT. The rows that a coder answers, and what the end of FS_FINAL leaves and sends. -/

namespace Sys2Proof.Machine

open Sys2Proof.Safety

theorem parityFrom_length {m : Nat} (k j n : Nat) (rows : List (List (BitVec m))) : ∀ i par, par.length = n →
    (∀ r ∈ rows, r.length = n) → (parityFrom k j i rows par).length = n := by
  induction rows with
  | nil => intro i par h _; exact h
  | cons r rs ih =>
    intro i par h hr
    rw [parityFrom]
    apply ih
    · simp [addTerms, h, hr r (by simp)]
    · intro x hx; exact hr x (by simp [hx])

theorem parityRow_length {m : Nat} (k n j : Nat) (rows : List (List (BitVec m))) (h : ∀ r ∈ rows, r.length = n) :
    (parityRow k n j rows).length = n := parityFrom_length k j n rows 0 _ (by simp) h

theorem symbols16_length : ∀ (n : Nat) (b : Bytes), b.length = 2 * n → (symbols16 b).length = n
  | 0, b, h => by have : b = [] := List.length_eq_zero_iff.mp (by omega); subst this; rfl
  | n + 1, lo :: hi :: rest, h => by
    simp only [List.length_cons] at h
    simp [symbols16, symbols16_length n rest (by omega)]
  | n + 1, [], h => by simp at h
  | n + 1, [x], h => by simp at h; omega

theorem bytes16_length (xs : List (BitVec 16)) : (bytes16 xs).length = 2 * xs.length := by
  induction xs with
  | nil => rfl
  | cons x xs ih => simp [bytes16, ih]; omega

/-- Every coder answers p rows of the rows' length (R240, R243, R249). -/
theorem fecCoder_rows {c : CoderChoice} {k p len : Nat} {rows : List Bytes} {a : FecAnswer}
    (h : fecCoder c k p len rows = some a) (hrows : AreRows k len rows) : AreRows p len a.rows := by
  have hr := hrows.2
  cases c with
  | reference =>
    simp only [fecCoder, referenceCoder] at h
    split at h
    · simp only [Option.some.injEq] at h
      subst h
      refine ⟨by simp, ?_⟩
      intro r hr'
      simp only [List.mem_map, List.mem_range] at hr'
      obtain ⟨j, _, rfl⟩ := hr'
      exact parityRow_length k len j rows hr
    · split at h
      · simp only [Option.some.injEq] at h
        subst h
        refine ⟨by simp, ?_⟩
        intro r hr'
        simp only [List.mem_map, List.mem_range] at hr'
        obtain ⟨j, _, rfl⟩ := hr'
        rw [bytes16_length, parityRow_length (m := 16) k (len / 2) j]
        · omega
        · intro x hx
          rw [List.mem_map] at hx
          obtain ⟨y, hy, rfl⟩ := hx
          exact symbols16_length _ _ (by rw [hr y hy]; omega)
      · cases h
  | custom name =>
    simp only [fecCoder, customCoder] at h
    split at h
    · cases h
    · exact FecCoder.answers_rows _ k p len rows a hrows h

/-- R243 of every coder that an instance names by a number. -/
theorem customCoder_recovers (name k p len : Nat) : RecoversFromAny k p len (customCoder name k p len) := by
  unfold customCoder
  cases Config.coder name with
  | none => intro rows rows' a a' places _ _ h; cases h
  | some c => exact c.recovers k p len

/-- The greatest of a list and a number. -/
theorem foldl_max_spec (l : List Nat) : ∀ a, (∀ x ∈ l, x ≤ l.foldl max a) ∧ a ≤ l.foldl max a ∧
    (l.foldl max a = a ∨ l.foldl max a ∈ l) := by
  induction l with
  | nil => intro a; simp
  | cons y ys ih =>
    intro a
    obtain ⟨h1, h2, h3⟩ := ih (max a y)
    simp only [List.foldl_cons]
    refine ⟨?_, by omega, ?_⟩
    · intro x hx
      rcases List.mem_cons.mp hx with rfl | hx
      · omega
      · exact h1 x hx
    · rcases h3 with h3 | h3
      · rcases Nat.le_total a y with h | h
        · right; rw [h3, Nat.max_eq_right h]; simp
        · left; rw [h3, Nat.max_eq_left h]
      · right; exact List.mem_cons_of_mem _ h3

/-- The end of FS_FINAL, where the frame's k rows can all be read (R218, R240): the last shard, the parity packets and the
response, and the frame closed. -/
theorem finish_of (u : State) (k : Nat) (hk : u.fs.nextIdx.toNat = k) (hk0 : 0 < k) (hw : Memory.wf u.fs.store)
    (hrow : ∀ i, i < k → RowOk u.params u.fs i) (view : ViewInfo) :
    ∃ (s2 t : State) (payloads rows : List Bytes) (len : Nat) (status : Status) (fieldBits : Byte),
      u.markEndOfFrame.releaseHeld (some view) = .ok s2 ∧ s2.finishFrame = .ok t ∧ SameOutsideSharder u t ∧
      t.fs = { u.fs with isOpen := false, nextIdx := 0, heldValid := false, heldFlags := 0 } ∧
      payloads.length = k ∧ (∀ i x, payloads[i]? = some x → RowIs u i x) ∧
      (∀ x ∈ payloads, x.length ≤ len) ∧ (∃ x ∈ payloads, x.length = len) ∧
      (match fecCoder u.params.coder k (parityCount k) len (payloads.map (padRow len)) with
        | none => status = .fecUnavailable ∧ fieldBits = 0 ∧ rows = []
        | some a => status = .ok ∧ fieldBits = a.fieldBits ∧ rows = a.rows) ∧
      (status = .ok → rows.length = parityCount k ∧ ∀ row ∈ rows, row.length = len) ∧
      t.output = u.output ++
        [.tx .data 0 (dataPacket u.fs.streamIdx u.fs.frameIdx (k - 1) (u.fs.heldFlags ||| endOfFrame)
          (le64 view.displayTime ++ view.pose) (payloads.getD (k - 1) []))] ++
        parityPackets u.fs.streamIdx u.fs.frameIdx k (parityCount k) rows ++
        [.resp (status.byte :: finalResults k (parityCount k) len fieldBits)] := by
  -- the rows
  have hok : ∀ i, i < k → ∃ v, u.storeRow i = .ok v ∧ RowIs u i v := fun i hi => storeRow_of_rowOk hw (hrow i hi)
  obtain ⟨held, hheld, hheldIs⟩ := hok (k - 1) (by omega)
  have h1 : u.markEndOfFrame.storeRow u.markEndOfFrame.fs.lastIdx.toNat = .ok held := by
    have : u.markEndOfFrame.fs.lastIdx.toNat = k - 1 := toNat_sub_one (n := u.fs.nextIdx) (by omega)
    rw [this]; exact hheld
  have h2 : u.markEndOfFrame.releaseHeld (some view) = .ok ((u.markEndOfFrame.emit
      [.tx .data 0 (u.markEndOfFrame.fs.heldShard (some view) held).serialize]).setFs
        { u.markEndOfFrame.fs with heldValid := false }) := by
    rw [State.releaseHeld, h1]
  generalize hs2 : ((u.markEndOfFrame.emit _).setFs _) = s2 at h2
  have hfs2 : s2.fs = { u.fs with heldFlags := u.fs.heldFlags ||| endOfFrame, heldValid := false } := by subst hs2; rfl
  have hp2 : s2.params = u.params := by subst hs2; rfl
  have hsame : ∀ i, s2.storeRow i = u.storeRow i := by
    intro i; simp only [State.storeRow, State.rowFits, State.rowBase, hfs2, hp2]; rfl
  obtain ⟨payloads, hpay⟩ := storeRows_of_rows (s := s2) (i := 0) (n := k) (fun j hj => by
    obtain ⟨v, hv, _⟩ := hok j hj
    exact ⟨v, by rw [Nat.zero_add, hsame]; exact hv⟩)
  obtain ⟨hplen, hpall⟩ := storeRows_eq_ok hpay
  have hpis : ∀ i x, payloads[i]? = some x → RowIs u i x := by
    intro i x hx
    obtain ⟨hi, rfl⟩ := List.getElem?_eq_some_iff.mp hx
    have := hpall i hi
    rw [Nat.zero_add, hsame] at this
    exact rowIs_of_storeRow hw this
  have hlenk : ∀ i (hi : i < payloads.length), (u.fs.rowlen.at i).toNat = payloads[i].length := fun i hi =>
    (hpis i _ (List.getElem?_eq_getElem hi)).1
  have hkk : s2.fs.nextIdx.toNat = k := by rw [hfs2]; exact hk
  obtain ⟨m1, m2, m3⟩ := foldl_max_spec ((List.range k).map (fun i => (s2.fs.rowlen.at i).toNat)) 0
  change (∀ x ∈ _, x ≤ s2.paddedLen k) at m1
  change _ ∨ s2.paddedLen k ∈ _ at m3
  have hle : ∀ x ∈ payloads, x.length ≤ s2.paddedLen k := by
    intro x hx
    obtain ⟨i, hi, rfl⟩ := List.getElem_of_mem hx
    apply m1
    rw [List.mem_map]
    exact ⟨i, by rw [List.mem_range]; omega, by rw [hfs2]; exact hlenk i hi⟩
  have hex : ∃ x ∈ payloads, x.length = s2.paddedLen k := by
    rcases m3 with m3 | m3
    · have h0 : (0 : Nat) < payloads.length := by omega
      refine ⟨payloads[0], List.getElem_mem h0, ?_⟩
      have h00 := hle _ (List.getElem_mem h0)
      change s2.paddedLen k = 0 at m3
      omega
    · rw [List.mem_map] at m3
      obtain ⟨i, hi, h⟩ := m3
      rw [List.mem_range] at hi
      refine ⟨payloads[i]'(by omega), List.getElem_mem _, ?_⟩
      rw [← h, hfs2]
      exact (hlenk i (by omega)).symm
  have hpad : ∀ r ∈ payloads.map (padRow (s2.paddedLen k)), r.length = s2.paddedLen k := by
    intro r hr
    rw [List.mem_map] at hr
    obtain ⟨x, hx, rfl⟩ := hr
    have := hle x hx
    simp [padRow]; omega
  have hheldeq : payloads.getD (k - 1) [] = held := by
    have hlt : k - 1 < payloads.length := by omega
    rw [List.getD_eq_getElem?_getD, List.getElem?_eq_getElem hlt, Option.getD_some]
    exact rowIs_unique (hpis _ _ (List.getElem?_eq_getElem hlt)) hheldIs
  have hser : (u.markEndOfFrame.fs.heldShard (some view) held).serialize =
     dataPacket u.fs.streamIdx u.fs.frameIdx (k - 1) (u.fs.heldFlags ||| endOfFrame)
          (le64 view.displayTime ++ view.pose) held :=
    heldShard_serialize u.markEndOfFrame.fs (k - 1) (by change u.fs.nextIdx.toNat = _; omega) (some view) held
  have hout2 : s2.output = u.output ++ [.tx .data 0 (dataPacket u.fs.streamIdx u.fs.frameIdx (k - 1)
      (u.fs.heldFlags ||| endOfFrame) (le64 view.displayTime ++ view.pose) held)] := by
    rw [← hser]; subst hs2; rfl
  have hfin : s2.finishFrame = .ok ((s2.emit (fecResult u.params.coder u.fs.streamIdx u.fs.frameIdx k
            (s2.paddedLen k) payloads).packets).closeFrame.respond
          (fecResult u.params.coder u.fs.streamIdx u.fs.frameIdx k (s2.paddedLen k) payloads).status
          (fecResult u.params.coder u.fs.streamIdx u.fs.frameIdx k (s2.paddedLen k) payloads).results) := by
    rw [State.finishFrame]
    simp only [hkk, hpay, hp2]
    simp only [hfs2]
  generalize hcr : fecCoder u.params.coder k (parityCount k) (s2.paddedLen k)
    (payloads.map (padRow (s2.paddedLen k))) = cr
  have hso : SameOutsideSharder u s2 := by subst hs2; exact ⟨rfl, rfl, rfl, rfl⟩
  cases cr with
  | none =>
    refine ⟨s2, _, payloads, [], s2.paddedLen k, .fecUnavailable, 0, h2, hfin, ?_, ?_, hplen, hpis, hle, hex, ?_, ?_,
      ?_⟩
    · exact ⟨hso.params, hso.cs, hso.sr, hso.input⟩
    · simp [State.closeFrame, hfs2]
    · rw [hcr]; exact ⟨rfl, rfl, rfl⟩
    · simp
    · simp only [fecResult, hcr, respond_output, State.closeFrame, setFs_output, emit_output, hout2, hheldeq,
        parityPackets]
      simp
  | some a =>
    refine ⟨s2, _, payloads, a.rows, s2.paddedLen k, .ok, a.fieldBits, h2, hfin, ?_, ?_, hplen, hpis, hle, hex, ?_, ?_,
      ?_⟩
    · exact ⟨hso.params, hso.cs, hso.sr, hso.input⟩
    · simp [State.closeFrame, hfs2]
    · rw [hcr]; exact ⟨rfl, rfl, rfl⟩
    · exact fun _ => fecCoder_rows hcr ⟨by rw [List.length_map, hplen], hpad⟩
    · simp only [fecResult, hcr, respond_output, State.closeFrame, setFs_output, emit_output, hout2, hheldeq]

end Sys2Proof.Machine
end

