-- ==== Sys2Proof/Laws/Footprint.lean ====
section
/-! SUPPORT. What each unit's commands read and write: their own unit and the parameters, and nothing else of the state. -/

namespace Sys2Proof.Machine

open Sys2Proof.Safety

/-! ### The sharder and the FEC encoder -/

/-- Two runs of the unit, from s to t and from s' to t': both left everything outside the unit, both are at the same
parameters and frame context, and both have sent the same. -/
structure FsRel (s s' t t' : State) : Prop where
  params : t'.params = t.params
  fs : t'.fs = t.fs
  left : SameOutsideSharder s t
  right : SameOutsideSharder s' t'
  sent : ∃ x, t.output = s.output ++ x ∧ t'.output = s'.output ++ x

theorem FsRel.start {s s' : State} (hp : s'.params = s.params) (hf : s'.fs = s.fs) : FsRel s s' s s' :=
  ⟨hp, hf, ⟨rfl, rfl, rfl, rfl⟩, ⟨rfl, rfl, rfl, rfl⟩, [], by simp, by simp⟩

theorem FsRel.emit {s s' t t' : State} (h : FsRel s s' t t') (os : List PortOut) :
    FsRel s s' (t.emit os) (t'.emit os) := by
  obtain ⟨x, h1, h2⟩ := h.sent
  exact ⟨h.params, h.fs, ⟨h.left.params, h.left.cs, h.left.sr, h.left.input⟩,
    ⟨h.right.params, h.right.cs, h.right.sr, h.right.input⟩, x ++ os, by simp [h1], by simp [h2]⟩

theorem FsRel.setFs {s s' t t' : State} (h : FsRel s s' t t') (y : Sharder) : FsRel s s' (t.setFs y) (t'.setFs y) :=
  ⟨h.params, rfl, ⟨h.left.params, h.left.cs, h.left.sr, h.left.input⟩,
    ⟨h.right.params, h.right.cs, h.right.sr, h.right.input⟩, h.sent⟩

/-- The two runs end in the same fault, or in related states. -/
def ResRel (s s' : State) : Except Fault State → Except Fault State → Prop
  | .ok t, .ok t' => FsRel s s' t t'
  | .error f, .error f' => f = f'
  | .ok _, .error _ => False
  | .error _, .ok _ => False

/-- One computation over the buffers after another. -/
def andThen (r : Except Fault State) (f : State → Except Fault State) : Except Fault State :=
  match r with
  | .error e => .error e
  | .ok t => f t

theorem ResRel.andThen {s s' : State} {r r' : Except Fault State} {f g : State → Except Fault State}
    (h : ResRel s s' r r') (hf : ∀ t t', FsRel s s' t t' → ResRel s s' (f t) (g t')) :
    ResRel s s' (Machine.andThen r f) (Machine.andThen r' g) := by
  cases r <;> cases r' <;>
    first | exact (show False from h).elim | exact (show _ = _ from h) | exact hf _ _ h

theorem storeRow_congr {s s' : State} (hp : s'.params = s.params) (hf : s'.fs = s.fs) (i : Nat) :
    s'.storeRow i = s.storeRow i := by
  simp only [State.storeRow, State.rowFits, State.rowBase, hp, hf]
  rfl

theorem storeRows_congr {s s' : State} (hp : s'.params = s.params) (hf : s'.fs = s.fs) (n : Nat) :
    ∀ i, s'.storeRows i n = s.storeRows i n := by
  induction n with
  | zero => intro i; rfl
  | succ n ih => intro i; simp only [State.storeRows, storeRow_congr hp hf, ih]

theorem releaseHeld_rel {s s' t t' : State} (h : FsRel s s' t t') (view : Option ViewInfo) :
    ResRel s s' (t.releaseHeld view) (t'.releaseHeld view) := by
  simp only [State.releaseHeld, storeRow_congr h.params h.fs, h.fs]
  cases t.storeRow t.fs.lastIdx.toNat with
  | error f => rfl
  | ok v => exact (h.emit _).setFs _

theorem storeWrite_rel {s s' t t' : State} (h : FsRel s s' t t') (i : Nat) (d : Bytes) :
    ResRel s s' (t.storeWrite i d) (t'.storeWrite i d) := by
  have hb : t'.rowBase i = t.rowBase i := by simp only [State.rowBase, h.params]
  have hf : t'.rowFits i d.length = t.rowFits i d.length := by simp only [State.rowFits, h.params]
  simp only [State.storeWrite, hb, hf, h.fs]
  by_cases hc : t.rowFits i d.length = true
  · simp only [if_pos hc]
    exact h.setFs _
  · simp only [if_neg hc]
    rfl

theorem holdShard_rel {s s' t t' : State} (h : FsRel s s' t t') (flags : Byte) (d : Bytes) :
    ResRel s s' (t.holdShard flags d) (t'.holdShard flags d) := by
  have e : ∀ u : State, u.holdShard flags d = andThen (u.storeWrite u.fs.nextIdx.toNat d) (fun s1 =>
      .ok (s1.setFs { s1.fs with
        rowlen := s1.fs.rowlen.set u.fs.nextIdx.toNat (BitVec.ofNat 32 d.length)
        nextIdx := u.fs.nextIdx + 1
        heldFlags := flags
        heldValid := true })) := fun u => by
    rw [State.holdShard]
    cases u.storeWrite u.fs.nextIdx.toNat d <;> rfl
  rw [e, e, h.fs]
  refine (storeWrite_rel h _ _).andThen (fun t t' h => ?_)
  rw [h.fs]
  exact h.setFs _

theorem newShard_rel {s s' t t' : State} (h : FsRel s s' t t') (flags : Byte) (d : Bytes) :
    ResRel s s' (t.newShard flags d) (t'.newShard flags d) := by
  have e : ∀ u : State, u.newShard flags d = andThen u.releaseIfHeld (fun s1 => s1.holdShard flags d) := fun u => by
    rw [State.newShard]
    cases u.releaseIfHeld <;> rfl
  rw [e, e]
  refine ResRel.andThen ?_ (fun t t' h => holdShard_rel h flags d)
  rw [State.releaseIfHeld, State.releaseIfHeld, h.fs]
  split
  · exact releaseHeld_rel h none
  · exact h

theorem pushFrom_rel {s s' : State} (n : Nat) (ds : List Bytes) : ∀ (j : Nat) (t t' : State), FsRel s s' t t' →
    ResRel s s' (t.pushFrom n j ds) (t'.pushFrom n j ds) := by
  induction ds with
  | nil => intro j t t' h; exact h
  | cons d ds ih =>
    intro j t t' h
    have e : ∀ u : State, u.pushFrom n j (d :: ds) =
        andThen (u.newShard (sliceFlags j n) d) (fun s1 => s1.pushFrom n (j + 1) ds) := fun u => by
      rw [State.pushFrom]
      cases u.newShard (sliceFlags j n) d <;> rfl
    rw [e, e]
    exact (newShard_rel h _ _).andThen (fun t t' h => ih (j + 1) t t' h)

theorem push_rel {s s' t t' : State} (h : FsRel s s' t t') (mp : Nat) (d : Bytes) :
    ResRel s s' (t.push mp d) (t'.push mp d) := by
  have e : ∀ u : State, u.push mp d = andThen (u.pushFrom (shardCount d.length mp) 0 (pieces mp d)) (fun s1 =>
      .ok (s1.respond .ok (le 4 (shardCount d.length mp) ++
        le 4 (releasedCount u.fs.heldValid (shardCount d.length mp))))) := fun u => by
    simp only [State.push]
    cases u.pushFrom (shardCount d.length mp) 0 (pieces mp d) <;> rfl
  rw [e, e, h.fs]
  exact (pushFrom_rel _ _ 0 t t' h).andThen (fun t t' h => h.emit _)

theorem finishFrame_rel {s s' t t' : State} (h : FsRel s s' t t') : ResRel s s' t.finishFrame t'.finishFrame := by
  simp only [State.finishFrame, storeRows_congr h.params h.fs, h.fs, h.params, State.paddedLen]
  cases t.storeRows 0 t.fs.nextIdx.toNat with
  | error f => rfl
  | ok p =>
    refine FsRel.emit ?_ _
    simp only [State.closeFrame, emit_fs, h.fs]
    exact (h.emit _).setFs _

theorem final_rel {s s' t t' : State} (h : FsRel s s' t t') (v : ViewInfo) :
    ResRel s s' (t.final v) (t'.final v) := by
  have e : ∀ u : State, u.final v = andThen u.extraShard (fun s1 =>
      andThen (s1.markEndOfFrame.releaseHeld (some v)) (fun s2 => s2.finishFrame)) := fun u => by
    rw [State.final]
    cases u.extraShard with
    | error f => rfl
    | ok s1 => cases h : s1.markEndOfFrame.releaseHeld (some v) <;> simp only [andThen, h]
  rw [e, e]
  refine ResRel.andThen ?_ (fun t t' h => ResRel.andThen ?_ (fun t t' h => finishFrame_rel h))
  · have hn : t'.needsExtraShard = t.needsExtraShard := by simp only [State.needsExtraShard, h.fs, h.params]
    rw [State.extraShard, State.extraShard, hn]
    split
    · exact newShard_rel h _ _
    · exact h
  · have hm : t'.markEndOfFrame = t'.setFs { t.fs with heldFlags := t.fs.heldFlags ||| endOfFrame } := by
      rw [State.markEndOfFrame, h.fs]
    rw [hm]
    exact releaseHeld_rel (h.setFs _) _

theorem ofExcept_rel {s s' t : State} {r r' : Except Fault State} (h : ResRel s s' r r') (ht : ofExcept r = .next t) :
    ∃ t', ofExcept r' = .next t' ∧ FsRel s s' t t' := by
  rw [ofExcept_eq_next] at ht
  subst ht
  cases r' with
  | error e => exact absurd h id
  | ok t' => exact ⟨t', rfl, h⟩

/-- FS_PUSH and FS_FINAL read the parameters and their own unit alone, and write their own unit alone. -/
theorem exec_fs {i : Instr} {s s' t : State} (ha : agentOf i.opcode = .fs) (hp : s'.params = s.params)
    (hf : s'.fs = s.fs) (h : exec i s = .next t) : ∃ t', exec i s' = .next t' ∧ FsRel s s' t t' := by
  have hr := FsRel.start hp hf
  cases i <;> try (cases ha; done)
  case fsPush st fr mp d =>
    have hacc : s'.pushAccepted st fr mp d.length = s.pushAccepted st fr mp d.length := by
      simp only [State.pushAccepted, hp, hf]
    simp only [exec, execFsPush] at h ⊢
    rw [hacc]
    split at h
    · rw [if_pos ‹_›]
      refine ofExcept_rel (push_rel ?_ _ _) h
      rw [State.openFrame, State.openFrame, hf]
      split
      · exact hr
      · exact hr.setFs _
    · rw [if_neg ‹_›]
      cases h
      exact ⟨_, rfl, hr.emit _⟩
  case fsFinal fr dt pose =>
    simp only [exec, execFsFinal] at h ⊢
    rw [hf]
    split at h
    · rw [if_pos ‹_›]
      exact ofExcept_rel (final_rel hr _) h
    · rw [if_neg ‹_›]
      cases h
      exact ⟨_, rfl, hr.emit _⟩

/-! ### ClockSync and the HeaderCodec -/

/-- The commands of ClockSync read the parameters and their own registers alone, and write those alone. -/
theorem exec_cs {i : Instr} {s s' t : State} (ha : agentOf i.opcode = .cs) (hp : s'.params = s.params)
    (hc : s'.cs = s.cs) (h : exec i s = .next t) :
    ∃ t' st r, exec i s' = .next t' ∧ t = (s.setCs t.cs).respond st r ∧ t' = (s'.setCs t.cs).respond st r := by
  cases i <;> try (cases ha; done)
  case csSend now =>
    cases h
    exact ⟨_, _, _, rfl, rfl, by rw [hc, hp]; rfl⟩
  case csReply now id o r x =>
    simp only [exec, execCsReply] at h ⊢
    rw [hc, hp]
    split at h
    · rename_i h1
      rw [if_pos h1]
      cases h
      exact ⟨_, _, _, rfl, rfl, rfl⟩
    · rename_i h1
      rw [if_neg h1]
      cases h
      exact ⟨_, _, _, rfl, rfl, by simp [State.setCs, ← hc]; rfl⟩
  case csExt t l ns =>
    cases h
    exact ⟨_, _, _, rfl, rfl, by rw [hp, hc]; simp [State.setCs, ← hc]⟩

/-- The commands of the HeaderCodec read nothing and write nothing (R130). -/
theorem exec_hc {i : Instr} (ha : agentOf i.opcode = .hc) : ∃ st r, ∀ s, exec i s = .next (s.respond st r) := by
  cases i <;> try (cases ha; done)
  · exact ⟨_, _, fun s => rfl⟩
  · simp only [exec, execHiDec]
    split
    · exact ⟨_, _, fun s => rfl⟩
    · exact ⟨_, _, fun s => rfl⟩
  · exact ⟨_, _, fun s => rfl⟩
  · simp only [exec, execEchoUnpack]
    split
    · exact ⟨_, _, fun s => rfl⟩
    · exact ⟨_, _, fun s => rfl⟩

/-! ### The reassembler -/

/-- The state with the reassembler replaced and these packets sent. -/
def withSr (s : State) (x : Reassembler) (o : List PortOut) : State := { s with sr := x, output := s.output ++ o }

theorem feed_footprint {s s' t : State} {c : Channel} {d : Bytes} (hp : s'.params = s.params) (hs : s'.sr = s.sr)
    (h : s.feed c d = .ok t) :
    ∃ x o, t = withSr s x o ∧ s'.feed c d = .ok (withSr s' x o) := by
  have hseg : ∀ c, s'.seg c = s.seg c := by intro c; cases c <;> simp [State.seg, hs]
  rw [State.feed] at h ⊢
  split at h
  · cases h
  · rename_i s1 h1
    obtain ⟨hin, rfl⟩ := segWrite_eq_ok h1
    rw [hseg, segWrite_of_inside (by rw [hp]; exact hin)]
    simp only [State.feedDone, setSeg_seg_self, setSeg_setSeg, hseg] at h ⊢
    split at h
    · rename_i he
      rw [if_pos he]
      split at h
      · cases h
      · rename_i v hv
        obtain ⟨ha, hb⟩ := segRead_eq_ok hv
        rw [segRead_of_read (v := v) (by simpa [hp] using ha) (by simpa using hb)]
        simp only [Except.ok.injEq] at h ⊢
        subst h
        cases c <;> exact ⟨_, _, rfl, by simp [State.setSeg, State.setCallout, State.emit, withSr, hs]⟩
    · rename_i he
      rw [if_neg he]
      simp only [Except.ok.injEq] at h ⊢
      subst h
      cases c <;> exact ⟨_, _, rfl, by simp [State.setSeg, withSr, State.respond, State.emit, hs]⟩

/-- SR_BEGIN and SR_FEED read the parameters and their own unit alone, and write their own unit alone. -/
theorem exec_sr {i : Instr} {s s' t : State} (ha : agentOf i.opcode = .sr) (hp : s'.params = s.params)
    (hs : s'.sr = s.sr) (h : exec i s = .next t) : ∃ x o, t = withSr s x o ∧ exec i s' = .next (withSr s' x o) := by
  have hseg : ∀ c, s'.seg c = s.seg c := by intro c; cases c <;> simp [State.seg, hs]
  have same : ∀ st op, ∃ x o, s.raise st op = withSr s x o ∧ s'.raise st op = withSr s' x o := by
    intro st op; exact ⟨_, _, rfl, by rw [← hs]; rfl⟩
  cases i <;> try (cases ha; done)
  case srBegin b n =>
    simp only [exec, execSrBegin] at h ⊢
    split at h
    · cases h; obtain ⟨x, o, h1, h2⟩ := same .argError .srBegin; exact ⟨x, o, h1, by rw [h2]⟩
    · rename_i c hc
      rw [hp]
      split at h
      · rename_i h1; simp only [if_pos h1]
        cases h; obtain ⟨x, o, h1, h2⟩ := same .capacityError .srBegin; exact ⟨x, o, h1, by rw [h2]⟩
      · rename_i h1; simp only [if_neg h1]
        cases h
        rw [hseg]
        cases c <;> exact ⟨_, _, rfl, by simp [State.setSeg, withSr, State.respond, State.emit, hs]⟩
  case srFeed b d =>
    simp only [exec, execSrFeed] at h ⊢
    split at h
    · cases h; obtain ⟨x, o, h1, h2⟩ := same .argError .srFeed; exact ⟨x, o, h1, by rw [h2]⟩
    · rename_i c hc
      simp only [hseg]
      split at h
      · rename_i h1; simp only [if_pos h1]
        split at h
        · rename_i h2; rw [if_pos h2]; cases h; exact ⟨_, _, rfl, by rw [← hs]; rfl⟩
        · rename_i h2; rw [if_neg h2]; cases h; obtain ⟨x, o, h1, h2⟩ := same .overrunError .srFeed; exact ⟨x, o, h1, by rw [h2]⟩
      · rename_i h1; simp only [if_neg h1]
        split at h
        · rename_i h2; rw [if_pos h2]; cases h
          cases c <;> exact ⟨_, _, rfl, by simp [State.setSeg, withSr, State.raise, State.respond, State.emit, hs]⟩
        · rename_i h2; rw [if_neg h2]
          rw [ofExcept_eq_next] at h
          obtain ⟨x, o, h3, h4⟩ := feed_footprint hp hs h
          exact ⟨x, o, h3, by rw [h4]; rfl⟩

end Sys2Proof.Machine
end

