-- ==== Sys2Proof/Laws/PerInstr.lean ====
section
/-! SUPPORT. The per-instruction family `PacketLength`: the packet of a well-formed command is as long as its format says
(spec/30_encoding.md R90, R122), with POSE_BYTES 28 as at reset. -/

namespace Sys2Proof.Laws.PacketLength

/-- The packet is the opcode byte, the operand block, and the data that `dlen` counts. -/
def Statement (i : Instr) : Prop :=
  i.wellFormed 28 = true →
    (encode i).length = 1 + i.opcode.blockLen 28 + (if i.opcode.hasDlen then i.tail.length else 0)

theorem packet_length (i : Instr) (h : i.opcode.layout.sum + i.tail.length =
    i.opcode.blockLen 28 + (if i.opcode.hasDlen then i.tail.length else 0)) :
    (encode i).length = 1 + i.opcode.blockLen 28 + (if i.opcode.hasDlen then i.tail.length else 0) := by
  rw [encode, List.length_cons, List.length_append, packFields_length (fieldValues_length i).symm, h]
  omega

theorem hiEnc (mt : Byte) (rs : U16) (ss aux : U32) (d : Bytes) : Statement (.hiEnc mt rs ss aux d) :=
  fun _ => packet_length _ rfl
theorem hiDec (d : Bytes) : Statement (.hiDec d) := fun _ => packet_length _ rfl
theorem echoPack (o r x f : I64) : Statement (.echoPack o r x f) := fun _ => packet_length _ rfl
theorem echoUnpack (d : Bytes) : Statement (.echoUnpack d) := fun _ => packet_length _ rfl
theorem csSend (now : I64) : Statement (.csSend now) := fun _ => packet_length _ rfl
theorem csReply (now : I64) (id : U32) (o r x : I64) : Statement (.csReply now id o r x) :=
  fun _ => packet_length _ rfl
theorem csExt (t l : U32) (ns : I64) : Statement (.csExt t l ns) := fun _ => packet_length _ rfl
theorem srBegin (c : Byte) (n : U32) : Statement (.srBegin c n) := fun _ => packet_length _ rfl
theorem srFeed (c : Byte) (d : Bytes) : Statement (.srFeed c d) := fun _ => packet_length _ rfl
theorem fsPush (st : Byte) (fr : U64) (mp : U32) (d : Bytes) : Statement (.fsPush st fr mp d) :=
  fun _ => packet_length _ rfl
theorem fsFinal (fr : U64) (dt : I64) (pose : Bytes) : Statement (.fsFinal fr dt pose) := fun h => by
  refine packet_length _ ?_
  have hp : pose.length = 28 := by simpa [Instr.wellFormed] using h
  simp [Instr.tail, Instr.opcode, Opcode.blockLen, Opcode.hasDlen, Opcode.layout, hp]
theorem reset : Statement .reset := fun _ => packet_length _ rfl

end Sys2Proof.Laws.PacketLength
end

