-- ==== Sys2Proof/Laws/Reassembler.lean ====
section
/-! SUPPORT. The channel map, the append of SR_FEED and which event is taken during a callout: everything each can do. -/

namespace Sys2Proof.Machine

open Sys2Proof.Safety

/-- A byte names the channel whose index it is (R109, R181). -/
theorem ofByte?_eq_some_iff_index {b : Byte} {c : Channel} : Channel.ofByte? b = some c ↔ b.toNat = c.index := by
  rw [Channel.ofByte?]
  cases c <;> simp only [Channel.index] <;> split <;> simp_all

/-- The append of SR_FEED on bytes that fit (R186, R188): they are stored from `valid_len` on; where they fill the segment
its view goes out, else the response does. -/
theorem feed_of_room {s : State} {c : Channel} {d : Bytes} (hi : SegInv s.params.segCeiling (s.seg c))
    (hd : (s.seg c).validLen.toNat + d.length ≤ (s.seg c).expectedLen.toNat) :
    ∃ t earlier, s.feed c d = .ok t ∧ SameOutsideChannel c s t ∧
      (t.seg c).expectedLen = (s.seg c).expectedLen ∧ (t.seg c).capacity = (s.seg c).capacity ∧
      (t.seg c).validLen.toNat = (s.seg c).validLen.toNat + d.length ∧
      (t.seg c).buf = Cells.write (s.seg c).buf (s.seg c).validLen.toNat d ∧
      earlier.length = (s.seg c).validLen.toNat ∧
      (∀ a, a < earlier.length → Cells.get? (s.seg c).buf a = earlier[a]?) ∧
      SegInv s.params.segCeiling (t.seg c) ∧
      (if (s.seg c).validLen.toNat + d.length = (s.seg c).expectedLen.toNat then
        (t.seg c).state = .complete ∧ t.sr.callout = some c ∧
          t.output = s.output ++ [.pktOut c (s.seg c).expectedLen (earlier ++ d)]
      else (t.seg c).state = (s.seg c).state ∧ t.sr.callout = s.sr.callout ∧
        Answers s t 0x00 (0x00 :: le 4 ((s.seg c).validLen.toNat + d.length))) := by
  have hin : (s.seg c).validLen.toNat + d.length ≤ s.params.segCeiling := by
    have := hi.expected_le; have := hi.capacity_le; omega
  have hlt : (s.seg c).validLen.toNat + d.length < 2 ^ 32 := by have := (s.seg c).expectedLen.isLt; omega
  have hv : ((s.seg c).validLen + BitVec.ofNat 32 d.length).toNat = (s.seg c).validLen.toNat + d.length := by
    rw [BitVec.toNat_add, BitVec.toNat_ofNat]; omega
  obtain ⟨earlier, _, hel, heall⟩ := Cells.read_of_written hi.buf_wf hi.written
  simp only [Nat.zero_add] at heall
  have hw := segWrite_of_inside (c := c) hin
  have hbufwf : Memory.wf (Cells.write (s.seg c).buf (s.seg c).validLen.toNat d) := Cells.rising_write hi.buf_wf _ _
  have hget : ∀ a, a < (s.seg c).validLen.toNat + d.length →
      Cells.get? (Cells.write (s.seg c).buf (s.seg c).validLen.toNat d) a = (earlier ++ d)[a]? := by
    intro a ha
    rw [Cells.get?_write]
    by_cases h : (s.seg c).validLen.toNat ≤ a
    · rw [if_pos ⟨h, ha⟩, List.getElem?_append_right (by omega), hel]
    · rw [if_neg (by omega), List.getElem?_append_left (by omega)]
      exact heall a (by omega)
  have hinside : ∀ e ∈ Cells.write (s.seg c).buf (s.seg c).validLen.toNat d, e.1 < s.params.segCeiling := by
    intro e he
    rcases Cells.mem_write he with h | h
    · exact hi.buf_inside e h
    · omega
  have hwr : ∀ n, n ≤ (s.seg c).validLen.toNat + d.length →
      Written (Cells.write (s.seg c).buf (s.seg c).validLen.toNat d) 0 n := by
    intro n hn o ho
    rw [Nat.zero_add, hget o (by omega), List.getElem?_eq_getElem (by rw [List.length_append]; omega)]
    simp
  simp only [State.feed, hw, State.feedDone]
  by_cases hc : (s.seg c).validLen.toNat + d.length = (s.seg c).expectedLen.toNat
  · have hc' : (s.seg c).validLen + BitVec.ofNat 32 d.length = (s.seg c).expectedLen :=
      BitVec.eq_of_toNat_eq (by rw [hv, hc])
    have hread : Cells.read (Cells.write (s.seg c).buf (s.seg c).validLen.toNat d) 0 (s.seg c).expectedLen.toNat =
        some (earlier ++ d) := by
      rw [Cells.read_eq_some_iff hbufwf]
      refine ⟨by rw [List.length_append]; omega, fun i hi' => ?_⟩
      rw [Nat.zero_add]; exact hget i (by omega)
    simp only [setSeg_seg_self, if_pos hc', if_pos hc]
    rw [segRead_of_read (v := earlier ++ d) (by simp; omega) (by simpa using hread)]
    refine ⟨_, earlier, rfl, ⟨by simp, by simp, by simp, by simp, ?_⟩, by simp, by simp, by simp [hv],
      by simp, hel, ?_, ?_, by simp, by simp, by simp⟩
    · intro e he; simp [setSeg_seg_of_ne _ _ he]
    · intro a ha; exact heall a (by omega)
    · simp only [emit_seg, setCallout_seg, setSeg_setSeg, setSeg_seg_self]
      refine ⟨?_, hi.expected_le, hi.capacity_le, by simp, ?_, hbufwf, hinside, ?_⟩
      · simp only [hv]; omega
      · intro _; exact hc'
      · simp only [hv]; exact hwr _ (by omega)
  · have hc' : (s.seg c).validLen + BitVec.ofNat 32 d.length ≠ (s.seg c).expectedLen := by
      intro h; rw [← h, hv] at hc; exact hc rfl
    simp only [setSeg_seg_self, if_neg hc', if_neg hc]
    refine ⟨_, earlier, rfl, ⟨by simp, by simp, by simp, by simp, ?_⟩, by simp, by simp, by simp [hv],
      by simp, hel, ?_, ?_, by simp, by simp, ?_⟩
    · intro e he; simp [setSeg_seg_of_ne _ _ he]
    · intro a ha; exact heall a (by omega)
    · simp only [respond_seg, setSeg_setSeg, setSeg_seg_self]
      refine ⟨?_, hi.expected_le, hi.capacity_le, ?_, ?_, hbufwf, hinside, ?_⟩
      · simp only [hv]; omega
      · intro he
        have := hi.empty_lens he
        rw [this.1, this.2] at hd hc
        simp at hd hc
        rw [hd] at hc; simp at hc
      · intro he
        have := hi.complete_full he
        rw [this] at hd hc
        omega
      · simp only [hv]; exact hwr _ (by omega)
    · simp [Answers, Status.byte, le32, hv, le]

/-! ### What waits for an open callout -/

/-- Behind a waiting RESET the handler's return is the only event that is taken. -/
theorem takeEvent_resetWaits {es rest : List PortIn} {e : PortIn} (h : takeEvent .resetWaits es = some (e, rest)) :
    e = .handlerReturn := by
  induction es generalizing rest with
  | nil => cases h
  | cons a es ih =>
    rw [takeEvent] at h
    cases a with
    | handlerReturn => cases h; rfl
    | command p =>
      simp only [Gate.holds, Gate.behind, if_true, Option.map_eq_some_iff, Prod.mk.injEq, Prod.exists] at h
      obtain ⟨e', r, hr, rfl, rfl⟩ := h
      exact ih hr

/-- With a callout open, the event taken from arrivals with a RESET among them is the handler's return or is ahead of the
RESET. -/
theorem takeEvent_around_reset {g : Gate} (hg : g ≠ .free) {pre post rest : List PortIn} {r : Bytes} {e : PortIn}
    (hr : r.head? = some 0x7F) (h : takeEvent g (pre ++ .command r :: post) = some (e, rest)) :
    e = .handlerReturn ∨ ∃ a b, pre = a ++ e :: b ∧ rest = a ++ b ++ .command r :: post := by
  induction pre generalizing g rest with
  | nil =>
    rw [List.nil_append, takeEvent] at h
    have hb : toWholeBlock r = true := by simp [toWholeBlock, hr, Opcode.byte]
    have h1 : g.holds (.command r) = true := by cases g <;> simp_all [Gate.holds]
    have h2 : g.behind (.command r) = .resetWaits := by cases g <;> simp_all [Gate.behind]
    rw [h1, h2] at h
    simp only [if_true, Option.map_eq_some_iff, Prod.mk.injEq, Prod.exists] at h
    obtain ⟨e', x, hx, rfl, rfl⟩ := h
    exact Or.inl (takeEvent_resetWaits hx)
  | cons a pre ih =>
    rw [List.cons_append, takeEvent] at h
    split at h
    · simp only [Option.map_eq_some_iff, Prod.mk.injEq, Prod.exists] at h
      obtain ⟨e', x, hx, rfl, rfl⟩ := h
      have hb : g.behind a ≠ .free := by
        cases g with
        | free => exact absurd rfl hg
        | resetWaits => simp [Gate.behind]
        | callout => cases a <;> simp [Gate.behind]; split <;> simp
      rcases ih hb hx with hx | ⟨y, z, rfl, rfl⟩
      · exact Or.inl hx
      · exact Or.inr ⟨a :: y, z, rfl, rfl⟩
    · cases h
      exact Or.inr ⟨[], pre, rfl, rfl⟩

/-- Behind a waiting RESET the handler's return is taken, whatever packets are ahead of it. -/
theorem takeEvent_return_behind_reset {pre rest : List PortIn} (h : ∀ e ∈ pre, ∃ p, e = .command p) :
    takeEvent .resetWaits (pre ++ .handlerReturn :: rest) = some (.handlerReturn, pre ++ rest) := by
  induction pre with
  | nil => rfl
  | cons a pre ih =>
    obtain ⟨p, rfl⟩ := h a (by simp)
    rw [List.cons_append, takeEvent]
    simp [Gate.holds, Gate.behind, ih (fun e he => h e (by simp [he]))]

/-- The handler's return passes events that all wait for it. -/
theorem takeEvent_return_behind_waiting {pre rest : List PortIn} (h : AllWait pre) :
    takeEvent .callout (pre ++ .handlerReturn :: rest) = some (.handlerReturn, pre ++ rest) := by
  induction pre with
  | nil => rfl
  | cons a pre ih =>
    obtain ⟨p, rfl, hp⟩ := h [] pre a rfl
    have hp : p.head? = some 0x20 ∨ p.head? = some 0x21 ∨ p.head? = some 0x7F := by
      rcases hp with hp | hp | hp | ⟨q, hq, -⟩
      · exact Or.inl hp
      · exact Or.inr (Or.inl hp)
      · exact Or.inr (Or.inr hp)
      · simp at hq
    have hh : Gate.holds .callout (.command p) = true := by
      rcases hp with hp | hp | hp <;> simp [Gate.holds, toReassembler, toWholeBlock, hp, Opcode.byte]
    rw [List.cons_append, takeEvent, if_pos hh]
    by_cases h7 : p.head? = some 0x7F
    · have hb : Gate.behind .callout (.command p) = .resetWaits := by simp [Gate.behind, toWholeBlock, h7, Opcode.byte]
      rw [hb, takeEvent_return_behind_reset (fun e he => by
        obtain ⟨x, y, rfl⟩ := List.append_of_mem he
        obtain ⟨q, rfl, -⟩ := h (.command p :: x) y e rfl
        exact ⟨q, rfl⟩)]
      rfl
    · have hb : Gate.behind .callout (.command p) = .callout := by
        simpa [Gate.behind, toWholeBlock, Opcode.byte] using h7
      rw [hb, ih (fun x y e hxy => by
        obtain ⟨q, rfl, hq⟩ := h (.command p :: x) y e (by rw [hxy]; rfl)
        refine ⟨q, rfl, hq.imp_right (Or.imp_right (Or.imp_right ?_))⟩
        rintro ⟨w, hw, hw7⟩
        rcases List.mem_cons.mp hw with hw | hw
        · cases hw; exact absurd hw7 h7
        · exact ⟨w, hw, hw7⟩)]
      rfl

end Sys2Proof.Machine
end

