-- ==== Sys2Proof/Tests/Slice0.lean ====
section
/-! SUPPORT. Tests of the model: expected results are those of spec/95_test_vectors.md (the vector is named in each
docstring) or worked out by hand from the rule that is named; and, for every obligation with hypotheses, a named witness that
something meets them together. -/

namespace Sys2Proof.Tests

open Sys2Proof.Machine Sys2Proof.Safety

/-! ### Words: each command's packet, written out from its format, decodes to it -/

/-- P1 (R96). -/
theorem test_decode_hi_enc : decode 4 [0x01, 0x02, 0, 0, 0x08, 0, 0, 0, 0x07, 0, 0, 0, 0x08, 0, 0, 0, 0xDE, 0xAD, 0xBE, 0xEF,
    0x01, 0x02, 0x03, 0x04] = .ok (.hiEnc 2 0 8 7 [0xDE, 0xAD, 0xBE, 0xEF, 0x01, 0x02, 0x03, 0x04]) := by decide

/-- P1 (R97). -/
theorem test_decode_hi_dec : decode 4 [0x02, 0x08, 0, 0, 0, 0x02, 0x80, 0, 0, 0x07, 0, 0, 0] =
    .ok (.hiDec [0x02, 0x80, 0, 0, 0x07, 0, 0, 0]) := by decide

/-- R98: four i64 in order, the operands of V-HC-11. -/
theorem test_decode_echo_pack : decode 4 [0x03, 0xE8, 0x03, 0, 0, 0, 0, 0, 0, 0xFF, 0xFF, 0xFF, 0xFF, 0xFF, 0xFF, 0xFF, 0xFF,
    0x08, 0x07, 0x06, 0x05, 0x04, 0x03, 0x02, 0x01, 0, 0, 0, 0, 0, 0, 0, 0x80] =
    .ok (.echoPack 1000 (-1) 0x0102030405060708 0x8000000000000000) := by decide

/-- R99. -/
theorem test_decode_echo_unpack : decode 4 [0x04, 0x01, 0, 0, 0, 0xAB] = .ok (.echoUnpack [0xAB]) := by decide

/-- P2 (R100). -/
theorem test_decode_cs_send : decode 4 [0x10, 0x00, 0xCA, 0x9A, 0x3B, 0, 0, 0, 0] = .ok (.csSend 1000000000) := by decide

/-- P2 (R101). -/
theorem test_decode_cs_reply : decode 4 [0x11, 0xE0, 0x66, 0xDC, 0x3B, 0, 0, 0, 0, 1, 0, 0, 0, 0x00, 0xCA, 0x9A, 0x3B, 0, 0, 0,
    0, 0x80, 0x40, 0xBF, 0x65, 0x01, 0, 0, 0, 0x60, 0xD4, 0xC3, 0x65, 0x01, 0, 0, 0] =
    .ok (.csReply 1004300000 1 1000000000 6002000000 6002300000) := by decide

/-- P2 (R102). -/
theorem test_decode_cs_ext : decode 4 [0x12, 0x10, 0, 0, 0, 0x00, 0xFF, 0xFF, 0xFF, 0x00, 0x18, 0xFC, 0xFF, 0xE7, 0x03, 0, 0] =
    .ok (.csExt 0x10 0xFFFFFF00 4294967040000) := by decide

/-- P1 (R103). -/
theorem test_decode_sr_begin : decode 4 [0x20, 0x01, 0x10, 0, 0, 0] = .ok (.srBegin 1 16) := by decide

/-- P1 (R104). -/
theorem test_decode_sr_feed : decode 4 [0x21, 0x01, 0x03, 0, 0, 0, 0xDE, 0xAD, 0xBE] = .ok (.srFeed 1 [0xDE, 0xAD, 0xBE]) := by
  decide

/-- P3 (R105). -/
theorem test_decode_fs_push : decode 4 [0x30, 0x01, 0x01, 0, 0, 0, 0, 0, 0, 0, 0x04, 0, 0, 0, 0x03, 0, 0, 0, 0x71, 0x72, 0x73] =
    .ok (.fsPush 1 1 4 [0x71, 0x72, 0x73]) := by decide

/-- P3 (R106). -/
theorem test_decode_fs_final : decode 4 [0x31, 0x01, 0, 0, 0, 0, 0, 0, 0, 0x05, 0, 0, 0, 0, 0, 0, 0, 0x09, 0x09, 0x09, 0x09] =
    .ok (.fsFinal 1 5 [0x09, 0x09, 0x09, 0x09]) := by decide

/-- P4 (R107). -/
theorem test_decode_reset : decode 4 [0x7F] = .ok .reset := by decide

/-- V-X-1, V-X-2: an undefined opcode and an empty packet. -/
theorem test_decode_bad_opcode : decode 4 [0x05, 0x01, 0x02] = .badOpcode ∧ decode 4 [] = .badOpcode := by decide

/-- V-X-3, V-X-4, V-X-5: cut short, a trailing byte, a `dlen` that does not fit. -/
theorem test_decode_malformed : decode 4 [0x20, 0x00, 0x10] = .malformed .srBegin ∧ decode 4 [0x7F, 0x00] = .malformed .reset ∧
    decode 4 [0x21, 0x00, 0x02, 0, 0, 0, 0xAA] = .malformed .srFeed := by decide

/-! ### Ill-formed commands, one for each check of `Instr.wellFormed` -/

/-- A data part too long for `dlen` (R90). -/
@[irreducible] def overlong : Bytes := List.replicate (2 ^ 32) 0

theorem dataFits_of_long {d : Bytes} (h : 2 ^ 32 ≤ d.length) : dataFits d = false := decide_eq_false (by omega)

theorem test_overlong_does_not_fit : dataFits overlong = false :=
  dataFits_of_long (by rw [overlong, List.length_replicate])

theorem test_ill_formed_hi_enc : (Instr.hiEnc 0 0 0 0 overlong).wellFormed 4 = false := by
  rw [Instr.wellFormed, test_overlong_does_not_fit]
theorem test_ill_formed_hi_dec : (Instr.hiDec overlong).wellFormed 4 = false := by
  rw [Instr.wellFormed, test_overlong_does_not_fit]
theorem test_ill_formed_echo_unpack : (Instr.echoUnpack overlong).wellFormed 4 = false := by
  rw [Instr.wellFormed, test_overlong_does_not_fit]
theorem test_ill_formed_sr_feed : (Instr.srFeed 0 overlong).wellFormed 4 = false := by
  rw [Instr.wellFormed, test_overlong_does_not_fit]
theorem test_ill_formed_fs_push : (Instr.fsPush 0 0 1 overlong).wellFormed 4 = false := by
  rw [Instr.wellFormed, test_overlong_does_not_fit]

/-- A pose of another length than POSE_BYTES (R106). -/
theorem test_ill_formed_fs_final : (Instr.fsFinal 0 0 [1, 2, 3]).wellFormed 4 = false ∧
    (Instr.fsFinal 0 0 [1, 2, 3, 4, 5]).wellFormed 4 = false := by decide

/-! ### Small states -/

/-- The instance of spec/95_test_vectors.md P4: SEG_CEILING 64, POSE_BYTES 4, PROTO_MAX_PAYLOAD 16, FS_MAX_SHARDS 8. -/
def small : Params := ⟨64, 4, 16, 8, 32, 3, .subtract, .reference⟩

/-- That instance right after power-on. -/
def fresh : State := .powerOn small

/-- That instance in the middle of everything: exchange 1 pending, two of channel 1's four bytes there, frame 7 open with one
shard, held. -/
def busy : State where
  params := small
  cs := ⟨.echoSent, 1, 0, 1000000000, 0, 0⟩
  sr := ⟨.atReset, ⟨.accumulating, 2, 4, 10, [(0, 0xA0), (1, 0xA1)]⟩, .atReset, none⟩
  fs := ⟨true, 7, 2, 1, true, 0x03, [(0, 2)], [(0, 0x18), (1, 0x19)]⟩
  input := []
  output := []

/-- That instance with channel 1's transfer open. -/
def calling : State := { busy with sr := ⟨.atReset, ⟨.complete, 2, 2, 10, [(0, 0xA0), (1, 0xA1)]⟩, .atReset, some .ch1⟩ }

/-- The state after an outcome, if it is one. -/
def next? : Host.Outcome State Fault Refusal → Option State
  | .next t => some t
  | .fault _ => none
  | .refused _ => none

/-- What has left the block after a command. -/
def sent (i : Instr) (s : State) : Option (List PortOut) := (next? (exec i s)).map State.output

/-! ### One step of each command -/

/-- V-HC-1. -/
theorem test_hi_enc : sent (.hiEnc 1 677 64 0xDEADBEEF [0xAA, 0xBB, 0xCC]) fresh =
    some [.resp [0, 0x0B, 0, 0, 0, 0x51, 0x2A, 0x04, 0, 0xEF, 0xBE, 0xAD, 0xDE, 0xAA, 0xBB, 0xCC]] := by decide

/-- V-HC-6: every operand is cut to its field. -/
theorem test_hi_enc_truncates : sent (.hiEnc 0x1F 0x7FF 8 0 []) fresh =
    some [.resp [0, 0x08, 0, 0, 0, 0xFF, 0xBF, 0, 0, 0, 0, 0, 0]] := by decide

/-- V-HC-8. -/
theorem test_hi_dec : sent (.hiDec [0x51, 0x2A, 0x04, 0, 0xEF, 0xBE, 0xAD, 0xDE, 0xAA, 0xBB, 0xCC]) fresh =
    some [.resp [0, 0x01, 0xA5, 0x02, 0x40, 0, 0, 0, 0xEF, 0xBE, 0xAD, 0xDE, 0x03, 0, 0, 0, 0xAA, 0xBB, 0xCC]] := by decide

/-- V-HC-9: seven bytes. -/
theorem test_hi_dec_short : sent (.hiDec [1, 2, 3, 4, 5, 6, 7]) fresh =
    some [.resp [0x01, 0, 0, 0, 0, 0, 0, 0, 0, 0, 0, 0, 0, 0, 0, 0]] := by decide

/-- V-HC-11. -/
theorem test_echo_pack : sent (.echoPack 1000 (-1) 0x0102030405060708 0x8000000000000000) fresh =
    some [.resp [0, 0xE8, 0x03, 0, 0, 0, 0, 0, 0, 0xFF, 0xFF, 0xFF, 0xFF, 0xFF, 0xFF, 0xFF, 0xFF, 0x08, 0x07, 0x06, 0x05,
      0x04, 0x03, 0x02, 0x01, 0, 0, 0, 0, 0, 0, 0, 0x80]] := by decide

/-- V-HC-14: the 33rd byte is ignored. -/
theorem test_echo_unpack_ignores_more : sent (.echoUnpack (List.replicate 8 0xE8 ++ List.replicate 25 0x01)) fresh =
    some [.resp (0 :: (List.replicate 8 0xE8 ++ List.replicate 24 0x01))] := by decide

/-- V-HC-13: 31 bytes. -/
theorem test_echo_unpack_short : sent (.echoUnpack (List.replicate 31 0x01)) fresh =
    some [.resp (0x01 :: List.replicate 32 0)] := by decide

/-- V-CS-1. -/
theorem test_cs_send : (next? (exec (.csSend 1000000000) fresh)).map (fun t => (t.cs, t.output)) =
    some (⟨.echoSent, 1, 0, 1000000000, 0, 0⟩, [.resp [0, 1, 0, 0, 0, 0x00, 0xCA, 0x9A, 0x3B, 0, 0, 0, 0]]) := by decide

/-- V-CS-7: the id wraps to 0. -/
theorem test_cs_send_wraps : (next? (exec (.csSend 5) (fresh.setCs ⟨.settled, 0xFFFFFFFF, 9, 0, 0, 0⟩))).map State.cs =
    some ⟨.echoSent, 0, 9, 5, 0, 0⟩ := by decide

/-- V-CS-2. -/
theorem test_cs_reply : (next? (exec (.csReply 1004300000 1 1000000000 6002000000 6002300000) busy)).map State.cs =
    some ⟨.settled, 1, 5000000000, 1000000000, 1004300000, 6002300000⟩ := by decide

/-- The rows (14, 10, 8, 9) and (2^63 - 1, -2^63, 0, 0) of the `echo_math` table. -/
theorem test_echo_math : (echoRtt 14 10 8 9, echoOffset 14 10 8 9) = (3, -3) ∧
    (echoRtt 0x7FFFFFFFFFFFFFFF 0x8000000000000000 0 0, echoOffset 0x7FFFFFFFFFFFFFFF 0x8000000000000000 0 0) = (-1, 0) := by
  decide

/-- V-CS-8e and V-CS-8d: a drop of more than 2^31 is a wrap, of exactly 2^31 it is none. -/
theorem test_cs_ext : extendNs 0 0x80000001 2147483649000 = 4294967296000 ∧ extendNs 0 0x80000000 2147483648000 = 0 := by
  decide

/-- V-CS-8b, with `ns_offset` 5000000000. -/
theorem test_cs_ext_answers : sent (.csExt 0x10 0xFFFFFF00 4294967040000) (fresh.setCs ⟨.settled, 1, 5000000000, 0, 0, 0⟩) =
    some [.resp [0, 0x80, 0x3E, 0, 0, 0xE8, 0x03, 0, 0, 0x80, 0x4C, 0xFA, 0xD5, 0xE6, 0x03, 0, 0]] := by decide

/-- V-SR-4: a shorter segment keeps the capacity. -/
theorem test_sr_begin : (next? (exec (.srBegin 1 4) busy)).map (fun t => (t.sr.seg1, t.output)) =
    some (⟨.accumulating, 0, 4, 10, [(0, 0xA0), (1, 0xA1)]⟩, [.resp [0, 10, 0, 0, 0]]) := by decide

/-- V-SR-9, V-SR-8: above the ceiling, and channel 3. -/
theorem test_sr_begin_refused : sent (.srBegin 1 65) fresh = some [.resp [0x02, 0, 0, 0, 0]] ∧
    sent (.srBegin 3 4) fresh = some [.resp [0x06, 0, 0, 0, 0]] := by decide

/-- V-SR-3: the bytes that fill the segment complete it, and its view goes out. -/
theorem test_sr_feed_completes : (next? (exec (.srFeed 1 [0xA2, 0xA3]) busy)).map (fun t => (t.sr.callout, t.output)) =
    some (some .ch1, [.pktOut .ch1 4 [0xA0, 0xA1, 0xA2, 0xA3]]) := by decide

/-- V-SR-5: one byte too many discards the segment and stores nothing. -/
theorem test_sr_feed_overrun : (next? (exec (.srFeed 1 [1, 2, 3]) busy)).map (fun t => (t.sr.seg1, t.output)) =
    some (⟨.empty, 0, 0, 10, [(0, 0xA0), (1, 0xA1)]⟩, [.resp [0x03, 0, 0, 0, 0, 0]]) := by decide

/-- R186, R188: the handler's return sends the response and empties the segment. -/
theorem test_handler_return : calling.handlerReturn.output = [.resp [0, 1, 0, 0, 0, 0]] ∧
    calling.handlerReturn.sr = ⟨.atReset, ⟨.empty, 0, 0, 10, [(0, 0xA0), (1, 0xA1)]⟩, .atReset, none⟩ := by decide

/-- P3, first push: shard 0 goes out, shard 1 is held. -/
theorem test_fs_push : sent (.fsPush 1 1 4 [0x61, 0x62, 0x63, 0x64, 0x65]) fresh =
    some [.tx .data 0 [0x01, 0x01, 0, 0, 0, 0, 0, 0, 0, 0, 0, 0, 0, 0x01, 0x61, 0x62, 0x63, 0x64],
      .resp [0, 0x02, 0, 0, 0, 0x01, 0, 0, 0]] := by decide

/-- P4: 8 shards are more than FS_MAX_SHARDS - 1, 7 are not. -/
theorem test_fs_push_room : sent (.fsPush 0 5 1 [0, 1, 2, 3, 4, 5, 6, 7]) fresh = some [.resp [0x06, 0, 0, 0, 0, 0, 0, 0, 0]] ∧
    (next? (exec (.fsPush 0 5 1 [0, 1, 2, 3, 4, 5, 6]) fresh)).map (fun t => t.fs.nextIdx) = some 7 := by decide

/-- P3, third shard and end, from the state that its two pushes leave; the parity row by R249. -/
theorem test_fs_final : sent (.fsFinal 1 5 [9, 9, 9, 9]) (fresh.setFs ⟨true, 1, 1, 3, true, 0x03, [(0, 4), (1, 1), (2, 3)],
      [(0, 0x61), (1, 0x62), (2, 0x63), (3, 0x64), (16, 0x65), (32, 0x71), (33, 0x72), (34, 0x73)]⟩) =
    some [.tx .data 0 [0x01, 0x01, 0, 0, 0, 0, 0, 0, 0, 0x02, 0, 0, 0, 0x07, 0x05, 0, 0, 0, 0, 0, 0, 0, 9, 9, 9, 9, 0x71, 0x72,
        0x73],
      .tx .parity 0 [0x01, 0x01, 0, 0, 0, 0, 0, 0, 0, 0x03, 0, 0, 0, 0x01, 0, 0, 0, 0x19, 0xA7, 0x52, 0xD7],
      .resp [0, 0x03, 0, 0, 0, 0x01, 0, 0, 0, 0x04, 0, 0, 0, 0x08]] := by decide +kernel

/-- V-FS-4: the end of an empty frame makes one empty shard. -/
theorem test_fs_final_empty : sent (.fsFinal 3 0 [0, 0, 0, 0]) (fresh.setFs ⟨true, 3, 0, 0, false, 0, [], []⟩) =
    some [.tx .data 0 [0, 3, 0, 0, 0, 0, 0, 0, 0, 0, 0, 0, 0, 0x07, 0, 0, 0, 0, 0, 0, 0, 0, 0, 0, 0, 0],
      .tx .parity 0 [0, 3, 0, 0, 0, 0, 0, 0, 0, 1, 0, 0, 0, 1, 0, 0, 0],
      .resp [0, 1, 0, 0, 0, 1, 0, 0, 0, 0, 0, 0, 0, 8]] := by decide +kernel

/-- V-X-6 (R311, R312). -/
theorem test_reset : (next? (exec .reset calling)).map (fun t => (t.cs, t.sr.callout, t.sr.seg1, t.output)) =
    some (.atReset, none, ⟨.empty, 0, 0, 0, [(0, 0xA0), (1, 0xA1)]⟩, [.resp [0]]) := by decide

/-! ### The field and the parity counts (spec/95_test_vectors.md, section 2.4) -/

theorem test_gmul : gmul (m := 8) 2 0x80 = 0x1D ∧ gmul (m := 8) 0x53 0xCA = 0x8F ∧ gmul (m := 8) 3 7 = 9 ∧
    gmul (m := 16) 2 0x8000 = 0x100B ∧ gmul (m := 16) 0x1234 0x5678 = 0x6324 := by decide +kernel

theorem test_ginv : [1, 2, 3, 4, 5, 6, 7, 8].map (ginv (m := 8)) = [0x01, 0x8E, 0xF4, 0x47, 0xA7, 0x7A, 0xBA, 0xAD] ∧
    ginv (m := 16) 2 = 0x8805 ∧ ginv (m := 16) 3 = 0xF006 ∧ ginv (m := 16) 0x100 = 0x9E75 := by decide +kernel

/-- Coefficients of S7 (R248). -/
theorem test_cauchy : cauchy 16 250 0 1 = 0x3EF3 ∧ cauchy 16 250 12 249 = 0xADAA := by decide +kernel

/-- R246: a symbol is two bytes, the low byte first. -/
theorem test_symbols : symbols16 [0x01, 0x02, 0x03, 0xFF] = [0x0201, 0xFF03] ∧ bytes16 [0x0201, 0xFF03] = [0x01, 0x02, 0x03, 0xFF] := by
  decide

theorem test_parity_count : [1, 20, 21, 40, 41, 100, 243, 260, 261].map parityCount = [1, 1, 2, 2, 3, 5, 13, 13, 14] := by
  decide

/-! ### Fetching -/

/-- The table word of RESET, and of HI_ENC with operands of zeros. -/
theorem test_table_word : decodeTableWord 8 0x7F = some .reset ∧ decodeTableWord 8 0x01 = some (.hiEnc 0 0 0 0 []) ∧
    decodeTableWord 8 0x05 = none := by decide

/-- The step takes the placed packet first, and answers it (V-HC-4 for HI_ENC of zeros). -/
theorem test_fetch : (next? (step (State.reset.withFetchWord 8 0x01))).map (fun t => (t.input, t.output)) =
    some ([], [.resp [0, 8, 0, 0, 0, 0, 0, 0, 0, 0, 0, 0, 0]]) := by decide

/-- R57, R321 (log 3): with a transfer open, a RESET waits and so does what is behind it; the handler's return is taken. -/
theorem test_gate : (next? (step (calling.setInput [.command [0x7F], .command [0x10], .handlerReturn]))).map (fun t =>
    (t.input, t.sr.callout)) = some ([.command [0x7F], .command [0x10]], none) := by decide

/-! ### The invariant holds where something happens -/

theorem test_inv_fs : ShardInv small busy.fs where
  closed := by decide
  held := by decide
  unheld := by decide
  room := by decide
  flags := by decide
  rowlen_wf := by decide
  rowlen_inside := by decide
  rowlen_le := by decide
  store_wf := by decide
  store_inside := by decide
  written := by decide

theorem test_inv_idle_channel : SegInv 64 Segment.atReset := by constructor <;> decide

theorem test_inv_open_channel : SegInv 64 busy.sr.seg1 := by constructor <;> decide

theorem test_inv_full_channel : SegInv 64 calling.sr.seg1 := by constructor <;> decide

/-- The invariant holds after power-on of the small instance. -/
theorem test_inv_fresh : Inv fresh where
  params := by decide
  echo_id := by decide
  segs := fun c => by cases c <;> exact test_inv_idle_channel
  callout := fun c => by cases c <;> decide
  shards := by constructor <;> decide

/-- The invariant holds in the middle of everything. -/
theorem test_inv_busy : Inv busy where
  params := by decide
  echo_id := by decide
  segs := fun c => by
    cases c
    · exact test_inv_idle_channel
    · exact test_inv_open_channel
    · exact test_inv_idle_channel
  callout := fun c => by cases c <;> decide
  shards := test_inv_fs

/-- And with a transfer open. -/
theorem test_inv_calling : Inv calling where
  params := by decide
  echo_id := by decide
  segs := fun c => by
    cases c
    · exact test_inv_idle_channel
    · exact test_inv_full_channel
    · exact test_inv_idle_channel
  callout := fun c => by cases c <;> decide
  shards := test_inv_fs

/-- The instance `busy` with PROTO_MAX_PAYLOAD 14: its held shard of 2 bytes and a view_info of 12 just fit. -/
def roomy : State := { busy with params := { small with protoMaxPayload := 14 } }

/-- The instance `busy` with PROTO_MAX_PAYLOAD 13, one byte too few for them. -/
def tight : State := { busy with params := { small with protoMaxPayload := 13 } }

/-- The instance `fresh` after an empty push: a frame is open and has no shard. -/
def opened : State := fresh.setFs ⟨true, 3, 0, 0, false, 0, [], []⟩

theorem test_inv_roomy : Inv roomy where
  params := by decide
  echo_id := by decide
  segs := test_inv_busy.segs
  callout := test_inv_busy.callout
  shards := by constructor <;> decide

theorem test_inv_tight : Inv tight where
  params := by decide
  echo_id := by decide
  segs := test_inv_busy.segs
  callout := test_inv_busy.callout
  shards := by constructor <;> decide

theorem test_inv_opened : Inv opened where
  params := by decide
  echo_id := by decide
  segs := test_inv_fresh.segs
  callout := test_inv_fresh.callout
  shards := by constructor <;> decide

/-! ### Witnesses: something meets the hypotheses of each obligation

Where the hypotheses of two obligations are the same, one theorem serves both, and its docstring names them. -/

/-- DecodeInvertsEncode. -/
theorem witness_well_formed : (Instr.fsFinal 1 5 [9, 9, 9, 9]).wellFormed 4 = true := by decide

/-- EncodeInvertsDecode. -/
theorem witness_decodes : decode 4 [0x21, 0x01, 0x01, 0, 0, 0, 0xDE] = .ok (.srFeed 1 [0xDE]) := by decide

/-- MalformedPacketIsRefused: a block one byte short (R94, first clause), and one data byte too few and one too many. -/
theorem witness_malformed :
    ((fresh.setInput [.command [0x20, 0, 4, 0, 0]]).nextEvent = some (.command [0x20, 0, 4, 0, 0], fresh) ∧
        Opcode.byte .srBegin = 0x20 ∧ ([0, 4, 0, 0] : Bytes).length < Opcode.srBegin.blockLen 4) ∧
      ((fresh.setInput [.command [0x21, 0, 2, 0, 0, 0, 7]]).nextEvent = some (.command [0x21, 0, 2, 0, 0, 0, 7], fresh) ∧
        Opcode.byte .srFeed = 0x21 ∧ ([0, 2, 0, 0, 0, 7] : Bytes).length ≠ Opcode.srFeed.blockLen 4 +
          (if Opcode.srFeed.hasDlen then fromLe ((([0, 2, 0, 0, 0, 7] : Bytes).drop (Opcode.srFeed.blockLen 4 - 4)).take 4)
            else 0)) ∧
      ((fresh.setInput [.command [0x7F, 0]]).nextEvent = some (.command [0x7F, 0], fresh) ∧
        Opcode.byte .reset = 0x7F ∧ ([0] : Bytes).length ≠ Opcode.reset.blockLen 4 +
          (if Opcode.reset.hasDlen then fromLe ((([0] : Bytes).drop (Opcode.reset.blockLen 4 - 4)).take 4) else 0)) := by
  decide

/-- UndefinedOpcodeIsRefused: an undefined opcode, and the empty packet. -/
theorem witness_undefined :
    ((fresh.setInput [.command [0x05, 1]]).nextEvent = some (.command [0x05, 1], fresh) ∧
        ∀ b, ([0x05, 1] : Bytes).head? = some b →
          b ∉ ([0x01, 0x02, 0x03, 0x04, 0x10, 0x11, 0x12, 0x20, 0x21, 0x30, 0x31, 0x7F] : List Byte)) ∧
      ((fresh.setInput [.command []]).nextEvent = some (.command [], fresh) ∧
        ∀ b, ([] : Bytes).head? = some b →
          b ∉ ([0x01, 0x02, 0x03, 0x04, 0x10, 0x11, 0x12, 0x20, 0x21, 0x30, 0x31, 0x7F] : List Byte)) := by
  refine ⟨⟨by decide, ?_⟩, by decide, ?_⟩
  · rintro b hb
    obtain rfl : (0x05 : Byte) = b := by simpa using hb
    decide
  · rintro b hb
    cases hb

/-- StepRunsDecodedCommand, with no callout open and with one. -/
theorem witness_step : ((fresh.setInput [.command [0x7F]]).nextEvent = some (.command [0x7F], fresh) ∧
      decode 4 [0x7F] = .ok .reset) ∧
    ((calling.setInput [.command [0x20, 0, 4, 0, 0, 0], .command [0x02, 0, 0, 0, 0]]).nextEvent =
        some (.command [0x02, 0, 0, 0, 0], calling.setInput [.command [0x20, 0, 4, 0, 0, 0]]) ∧
      decode 4 [0x02, 0, 0, 0, 0] = .ok (.hiDec [])) := by decide

/-- BusyReassemblerLetsOthersPass. -/
theorem witness_busy : (calling.setInput [.command [0x20, 0, 4, 0, 0, 0], .command [0x02, 0, 0, 0, 0]]).sr.callout = some .ch1 ∧
    (∀ e ∈ ([.command [0x20, 0, 4, 0, 0, 0]] : List PortIn), ∃ q, e = .command q ∧
      (q.head? = some 0x20 ∨ q.head? = some 0x21)) ∧
    decode small.poseBytes [0x02, 0, 0, 0, 0] = .ok (.hiDec []) ∧ agentOf (Instr.hiDec []).opcode ≠ .sr ∧
    agentOf (Instr.hiDec []).opcode ≠ .block := by
  refine ⟨rfl, fun e he => ?_, by decide, by decide, by decide⟩
  obtain rfl : e = .command [0x20, 0, 4, 0, 0, 0] := by simpa using he
  exact ⟨_, rfl, Or.inl rfl⟩

/-- OpenCalloutFreezesReassembler: a RESET waits; and a malformed packet of its opcode waits between a packet that is taken
and one that is not. -/
theorem witness_open_callout : (∃ t, calling.sr.callout = some .ch1 ∧
      .handlerReturn ∉ (calling.setInput [.command [0x7F]]).input ∧ step (calling.setInput [.command [0x7F]]) = .next t) ∧
    ([0x7F, 0] : Bytes).head? = some 0x7F ∧
    (calling.setInput ([.command [0x05]] ++ .command [0x7F, 0] :: [.command [0x10]])).nextEvent =
      some (.command [0x05], calling.setInput [.command [0x7F, 0], .command [0x10]]) :=
  ⟨⟨calling.setInput [.command [0x7F]], rfl, by decide, rfl⟩, rfl, rfl⟩

/-- HandlerReturnEndsFeed: at once, and behind an SR command, a RESET and a command behind it. -/
theorem witness_handler_return : calling.sr.callout = some .ch1 ∧ AllWait [] ∧
    AllWait [.command [0x20, 0, 4, 0, 0, 0], .command [0x7F], .command [0x10]] := by
  refine ⟨rfl, ?_, ?_⟩ <;> intro x y e h
  · cases x <;> cases h
  match x, h with
  | [], h => cases h; exact ⟨_, rfl, Or.inl rfl⟩
  | [_], h => cases h; exact ⟨_, rfl, Or.inr (Or.inr (Or.inl rfl))⟩
  | [_, _], h =>
    cases h
    exact ⟨_, rfl, Or.inr (Or.inr (Or.inr ⟨[0x7F], List.mem_cons_of_mem _ (List.mem_singleton.mpr rfl), rfl⟩))⟩
  | [_, _, _], h => cases h
  | _ :: _ :: _ :: _ :: _, h => cases h

/-- PowerOnMeetsInvariant, EveryEventSequenceRuns: the smallest and the largest parameters of R8. -/
theorem witness_valid : Params.Valid ⟨1, 0, 1, 1, 1, 0, .add, .custom 0⟩ ∧
    Params.Valid ⟨2 ^ 32 - 1, 28, 1400, 2 ^ 32 - 1, 32, 15, .subtract, .reference⟩ := by decide

/-- StepKeepsInvariant, StepNeverStops, ParametersNeverChange. -/
theorem witness_step_keeps : ∃ t, Inv calling ∧ step calling = .next t := ⟨calling, test_inv_calling, rfl⟩

/-- CapacityShrinksOnlyByReset. -/
theorem witness_capacity : ∃ t, step (busy.setInput [.command [0x7F]]) = .next t ∧
    (t.seg .ch1).capacity < ((busy.setInput [.command [0x7F]]).seg .ch1).capacity := ⟨_, rfl, by decide⟩

/-- OffsetChangesOnlyByReplyOrReset: by RESET here; `test_cs_reply` is the other case. -/
theorem witness_offset : ∃ t, step ((fresh.setCs ⟨.settled, 1, 9, 0, 0, 0⟩).setInput [.command [0x7F]]) = .next t ∧
    t.cs.nsOffset ≠ 9 := ⟨_, rfl, by decide⟩

/-- OneResponseAndItComesLast: a command that sends TX packets, and one that opens a callout. -/
theorem witness_exec : (∃ t, exec (.fsPush 1 1 1 [1, 2]) fresh = .next t) ∧
    ∃ t, exec (.srFeed 1 [0xA2, 0xA3]) busy = .next t := ⟨⟨_, rfl⟩, _, rfl⟩

/-- StatusesOfEachCommand; ErrorsLeaveTheState: an ArgError, and an OverrunError that discards. -/
theorem witness_errors : (∃ t, exec (.srBegin 3 4) fresh = .next t ∧
      t.output = fresh.output ++ [] ++ [.resp (0x06 :: [0, 0, 0, 0])]) ∧
    ∃ t, exec (.srFeed 1 [1, 2, 3]) busy = .next t ∧ t.output = busy.output ++ [] ++ [.resp (0x03 :: [0, 0, 0, 0, 0])] :=
  ⟨⟨_, rfl, rfl⟩, _, rfl, rfl⟩

/-- HiDecUnpacksHeader and UndersizedBytesAreFramingErrors, at the lengths where they meet; EchoPayloadLayout;
EchoPayloadRoundTrips. -/
theorem witness_lengths : 8 ≤ (List.replicate 8 0 : Bytes).length ∧ (List.replicate 7 0 : Bytes).length < 8 ∧
    32 ≤ (List.replicate 32 0 : Bytes).length ∧ (List.replicate 31 0 : Bytes).length < 32 := by decide

/-- HeaderRoundTrips: the greatest fields (V-HC-3), and the shortest bytes. -/
theorem witness_header : ((15 : Byte).toNat < 16 ∧ (1023 : U16).toNat < 1024 ∧ (0xFFFFF : U32).toNat < 2 ^ 20 ∧
    8 + ([] : Bytes).length < 2 ^ 32) ∧ 8 ≤ (List.replicate 8 0 : Bytes).length ∧ (List.replicate 8 0 : Bytes).length < 2 ^ 32 := by
  decide

/-- HeaderCodecIsPure. -/
theorem witness_pure : agentOf (Instr.hiDec [1]).opcode = .hc := rfl

/-- CsSendStartsExchange and EchoBuildMakesTheRequest, at the widest and at the narrowest id. -/
theorem witness_id_bits : busy.params.echoIdBits ≤ 32 ∧
    (State.powerOn { small with echoIdBits := 1 }).params.echoIdBits ≤ 32 := by decide

/-- CsReplySettlesExchange. -/
theorem witness_reply : busy.cs.state = .echoSent ∧ busy.cs.echoId.toNat < 2 ^ busy.params.echoIdBits := by decide

/-- CsReplyIgnoresStaleReplies, each of its three cases alone. -/
theorem witness_stale : fresh.cs.state ≠ .echoSent ∧ (busy.cs.state = .echoSent ∧ (2 : U32) ≠ busy.cs.echoId) ∧
    (busy.cs.state = .echoSent ∧ 2 ^ ({ busy with params := { small with echoIdBits := 4 } } : State).params.echoIdBits ≤
      (17 : U32).toNat) := by decide

/-- EchoOffsetConverges: the world of V-CS-5. -/
theorem witness_echo : busy.cs.state = .echoSent ∧ busy.cs.echoId.toNat < 2 ^ busy.params.echoIdBits ∧
    |(5000000000 : Int)| < 2 ^ 58 ∧ |(3000000 : Int)| < 2 ^ 58 ∧ |(1000000 : Int)| < 2 ^ 58 ∧ |(300000 : Int)| < 2 ^ 58 ∧
    |(2000000000 : Int)| < 2 ^ 58 := by
  refine ⟨by decide, by decide, ?_, ?_, ?_, ?_, ?_⟩ <;> norm_num

/-- CsExtExtendsTimestamp, at the drop of 2^31 + 1 that is a wrap and at the drop of 2^31 that is none (R162). -/
theorem witness_delta : (4294967296 - 2147483649 : Int) =
      (if (0 : U32).toNat < (0x80000001 : U32).toNat ∧ 2 ^ 31 < (0x80000001 : U32).toNat - (0 : U32).toNat
        then ((0 : U32).toNat : Int) - (0x80000001 : U32).toNat + 2 ^ 32
        else ((0 : U32).toNat : Int) - (0x80000001 : U32).toNat) ∧
    (-2147483648 : Int) =
      (if (0 : U32).toNat < (0x80000000 : U32).toNat ∧ 2 ^ 31 < (0x80000000 : U32).toNat - (0 : U32).toNat
        then ((0 : U32).toNat : Int) - (0x80000000 : U32).toNat + 2 ^ 32
        else ((0 : U32).toNat : Int) - (0x80000000 : U32).toNat) := by decide

/-- CsExtNeverMovesBackward: the same command twice, and two samples as far apart as allowed across the wrap. -/
theorem witness_forward : (∃ u v, exec (.csExt 1 0 0) fresh = .next u ∧ exec (.csExt 1 0 0) u = .next v) ∧
    (4294967295 ≤ 4294967295 + (2 ^ 31 - 1) ∧ 4294967295 + (2 ^ 31 - 1) - 4294967295 < 2 ^ 31 ∧
      (0 : I64).toInt + 2 ^ 31 * 1000 < 2 ^ 63) := ⟨⟨_, _, rfl, rfl⟩, by decide⟩

/-- SrBeginOpensSegment at the ceiling, and SrRefusalsChangeNothing one above it and at channel 3. -/
theorem witness_sr_begin : ((2 : Byte).toNat = Channel.ch2.index ∧ (64 : U32).toNat ≤ fresh.params.segCeiling) ∧
    3 ≤ (3 : Byte).toNat ∧ ((2 : Byte).toNat < 3 ∧ fresh.params.segCeiling < (65 : U32).toNat) := by decide

/-- SrFeedAppends, one byte short of full; SrFeedCompletesSegment, exactly full. -/
theorem witness_sr_feed : (1 : Byte).toNat = Channel.ch1.index ∧ SegInv busy.params.segCeiling (busy.seg .ch1) ∧
    (busy.seg .ch1).state = .accumulating ∧
    (busy.seg .ch1).validLen.toNat + ([0xA2] : Bytes).length < (busy.seg .ch1).expectedLen.toNat ∧
    (busy.seg .ch1).validLen.toNat + ([0xA2, 0xA3] : Bytes).length = (busy.seg .ch1).expectedLen.toNat :=
  ⟨rfl, test_inv_open_channel, rfl, by decide, by decide⟩

/-- SrFeedOverrunsAndEmptyFeeds: one byte too many, no bytes and one byte on an EMPTY channel. -/
theorem witness_sr_overrun : (1 : Byte).toNat = Channel.ch1.index ∧ (busy.seg .ch1).state = .accumulating ∧
    (busy.seg .ch1).validLen.toNat ≤ (busy.seg .ch1).expectedLen.toNat ∧
    (busy.seg .ch1).expectedLen.toNat - (busy.seg .ch1).validLen.toNat < ([1, 2, 3] : Bytes).length ∧
    (fresh.seg .ch1).state = .empty ∧ ([1] : Bytes) ≠ [] := by decide

/-- SegmentIsDeliveredWhole: pieces of which one is empty, and a segment of length 0. -/
theorem witness_delivered : Inv busy ∧ busy.sr.callout = none ∧ (0 : Byte).toNat = Channel.ch0.index ∧
    (3 : U32).toNat ≤ busy.params.segCeiling ∧ (3 : U32).toNat = ([[1, 2], []] ++ [[3]] : List Bytes).flatten.length ∧
    ([3] : Bytes) ≠ [] ∧ (0 : U32).toNat = ([] ++ [[]] : List Bytes).flatten.length :=
  ⟨test_inv_busy, rfl, rfl, by decide, by decide, by decide, by decide⟩

/-- ChannelsCommute. -/
theorem witness_channels : ∃ a b, channelOf (.srBegin 0 4) = some 0 ∧ channelOf (.srFeed 1 [0xA2, 0xA3]) = some 1 ∧
    (0 : Byte) ≠ 1 ∧ busy.sr.callout = none ∧ execToResponse (.srBegin 0 4) busy = .next a ∧
    execToResponse (.srFeed 1 [0xA2, 0xA3]) a = .next b := ⟨_, _, rfl, rfl, by decide, rfl, rfl, rfl⟩

/-- UnitsNeverInterfere. -/
theorem witness_units : ∃ a b, agentOf (Instr.srFeed 1 [0xA2]).opcode ≠ agentOf (Instr.fsPush 2 7 1 [5]).opcode ∧
    agentOf (Instr.srFeed 1 [0xA2]).opcode ≠ .block ∧ agentOf (Instr.fsPush 2 7 1 [5]).opcode ≠ .block ∧
    exec (.srFeed 1 [0xA2]) busy = .next a ∧ exec (.fsPush 2 7 1 [5]) a = .next b :=
  ⟨_, _, by decide, by decide, by decide, rfl, rfl⟩

/-- PushStoresItsShards and PushReleasesAllButTheLast: on the open frame up to the last row that may be used, on a closed
one, and for no bytes. -/
theorem witness_push : Inv busy ∧ (16 : U32) ≠ 0 ∧ (16 : U32).toNat ≤ busy.params.protoMaxPayload ∧
    (busy.fs.isOpen = true → (7 : U64) = busy.fs.frameIdx ∧ (2 : Byte) = busy.fs.streamIdx) ∧
    1 = (if busy.fs.isOpen then busy.fs.nextIdx.toNat else 0) ∧
    6 = ((List.replicate 96 1 : Bytes).length + (16 : U32).toNat - 1) / (16 : U32).toNat ∧ 1 + 6 + 1 ≤ busy.params.fsMaxShards ∧
    0 = (([] : Bytes).length + (16 : U32).toNat - 1) / (16 : U32).toNat ∧
    Inv fresh ∧ fresh.fs.isOpen = false ∧ 0 = (if fresh.fs.isOpen then fresh.fs.nextIdx.toNat else 0) ∧
    7 = ((List.replicate 7 1 : Bytes).length + (1 : U32).toNat - 1) / (1 : U32).toNat ∧ 0 + 7 + 1 ≤ fresh.params.fsMaxShards :=
  ⟨test_inv_busy, by decide, by decide, by decide, by decide, by decide, by decide, by decide, test_inv_fresh, rfl, by decide,
    by decide, by decide⟩

/-- PiecesRejoinToTheData. -/
theorem witness_pieces : 0 < 4 ∧ (pieces 4 [1, 2, 3, 4, 5])[1]? = some [5] := by decide

/-- PushIsRefusedExactlyByItsChecks: each check alone at its boundary, and a push that passes all of them. -/
theorem witness_refused : 1 ≤ busy.params.fsMaxShards ∧ busy.params.protoMaxPayload < (17 : U32).toNat ∧
    (busy.fs.isOpen = true ∧ ((8 : U64) ≠ busy.fs.frameIdx ∨ (2 : Byte) ≠ busy.fs.streamIdx)) ∧
    busy.params.fsMaxShards - 1 < (if busy.fs.isOpen then busy.fs.nextIdx.toNat else 0) +
      ((List.replicate 7 1 : Bytes).length + (1 : U32).toNat - 1) / (1 : U32).toNat ∧
    ¬busy.params.fsMaxShards - 1 < (if busy.fs.isOpen then busy.fs.nextIdx.toNat else 0) +
      ((List.replicate 6 1 : Bytes).length + (1 : U32).toNat - 1) / (1 : U32).toNat := by decide

/-- FinalIsRefusedWithoutItsFrame: no frame, and another frame. -/
theorem witness_final_refused : fresh.fs.isOpen = false ∧ (8 : U64) ≠ busy.fs.frameIdx := by decide

/-- What FinalEndsTheFrame asks of a state, its frame's next index, whether an extra shard is needed, k and p. -/
abbrev FinalCase (s : State) (next : Nat) (extra : Bool) (k p : Nat) : Prop :=
  s.fs.isOpen = true ∧ next = s.fs.nextIdx.toNat ∧
    extra = (!s.fs.heldValid ||
      decide (s.params.protoMaxPayload < (s.fs.rowlen.at (next - 1)).toNat + (8 + s.params.poseBytes))) ∧
    k = next + (if extra then 1 else 0) ∧ p = max 1 ((k + 19) / 20)

/-- FinalEndsTheFrame: a last shard that has just room for the view_info, one that has one byte too little, and a frame with
no shard. -/
theorem witness_final : (Inv roomy ∧ FinalCase roomy 1 false 1 1) ∧ (Inv tight ∧ FinalCase tight 1 true 2 1) ∧
    Inv opened ∧ FinalCase opened 0 true 1 1 :=
  ⟨⟨test_inv_roomy, by decide⟩, ⟨test_inv_tight, by decide⟩, test_inv_opened, by decide⟩

/-- FrameCarriesItsBytes: two slices, one of them empty. -/
theorem witness_frame : Inv fresh ∧ fresh.fs.isOpen = false ∧ ([(4, [1, 2, 3, 4, 5]), (16, [])] : List (U32 × Bytes)) ≠ [] ∧
    (∀ x ∈ ([(4, [1, 2, 3, 4, 5]), (16, [])] : List (U32 × Bytes)), x.1 ≠ 0 ∧ x.1.toNat ≤ fresh.params.protoMaxPayload) ∧
    (([(4, [1, 2, 3, 4, 5]), (16, [])] : List (U32 × Bytes)).map (fun x => (x.2.length + x.1.toNat - 1) / x.1.toNat)).sum + 1 ≤
      fresh.params.fsMaxShards :=
  ⟨test_inv_fresh, rfl, by decide, by decide, by decide⟩

/-- FieldChoiceOfTheReferenceCoder. -/
theorem witness_field_choice : ∃ t pre, fresh.params.coder = .reference ∧
    exec (.fsFinal 3 0 [0, 0, 0, 0]) (fresh.setFs ⟨true, 3, 0, 0, false, 0, [], []⟩) = .next t ∧
    t.output = [] ++ pre ++ [.resp (0x00 :: (le 4 1 ++ le 4 1 ++ le 4 0 ++ [8]))] ∧ (0x00 : Byte) ≠ 0x06 :=
  ⟨_, [.tx .data 0 [0, 3, 0, 0, 0, 0, 0, 0, 0, 0, 0, 0, 0, 0x07, 0, 0, 0, 0, 0, 0, 0, 0, 0, 0, 0, 0],
    .tx .parity 0 [0, 3, 0, 0, 0, 0, 0, 0, 0, 1, 0, 0, 0, 1, 0, 0, 0]], rfl, rfl, by decide +kernel, by decide⟩

/-- ParityByteIsItsColumnSum, at the last parity row of the largest frame that GF(2^8) has room for. -/
theorem witness_column : 243 + 13 ≤ 256 ∧ (List.replicate 243 [1] : List Bytes).length = 243 ∧
    (∀ row ∈ (List.replicate 243 [1] : List Bytes), row.length = 1) ∧ 12 < 13 ∧ 0 < 1 := by
  refine ⟨by decide, List.length_replicate, fun row h => ?_, by decide, by decide⟩
  rw [List.eq_of_mem_replicate h]
  rfl

/-- ParityWordIsItsColumnSum, at the last parity row of the smallest frame that needs GF(2^16). -/
theorem witness_word_column : 256 < 244 + 13 ∧ 244 + 13 ≤ 65536 ∧ (List.replicate 244 [1, 2] : List Bytes).length = 244 ∧
    (∀ row ∈ (List.replicate 244 [1, 2] : List Bytes), row.length = 2 * 1) ∧ 12 < 13 ∧ 0 < 1 := by
  refine ⟨by decide, by decide, List.length_replicate, fun row h => ?_, by decide, by decide⟩
  rw [List.eq_of_mem_replicate h]
  rfl

/-- FieldInverseIsUnique, WordFieldInverseIsUnique. -/
theorem witness_nonzero : (2 : BitVec 8) ≠ 0 ∧ (2 : BitVec 16) ≠ 0 := by decide

/-- AnyRowsRecoverTheData: two data rows and one parity row, of which the last two are known. -/
theorem witness_recover : ∃ a, 2 + 1 ≤ 256 ∧ AreRows 2 1 [[5], [6]] ∧ fecCoder .reference 2 1 1 [[5], [6]] = some a ∧
    ({1, 2} : Finset Nat).card = 2 ∧ ∀ i ∈ ({1, 2} : Finset Nat), i < 2 + 1 := ⟨_, by decide, by decide, rfl, by decide, by decide⟩

/-- AnyRowsRecoverTheDataOfLongFrames: the smallest frame that needs GF(2^16), all of whose data rows are known. -/
theorem witness_recover_long : ∃ a, 256 < 244 + 13 ∧ AreRows 244 2 (List.replicate 244 [1, 2]) ∧
    referenceCoder 244 13 2 (List.replicate 244 [1, 2]) = some a ∧ (Finset.range 244).card = 244 ∧
    ∀ i ∈ Finset.range 244, i < 244 + 13 := by
  refine ⟨_, by decide, ⟨List.length_replicate, fun row h => ?_⟩, by rw [referenceCoder, if_neg (by decide), if_pos (by decide)],
    Finset.card_range _, fun i hi => ?_⟩
  · rw [List.eq_of_mem_replicate h]; rfl
  · have := Finset.mem_range.mp hi; omega

/-- ResetActsAsPowerOn. -/
theorem witness_reset : ∃ t u, Inv busy ∧ exec .reset busy = .next t ∧
    runFrom 1 (t.setInput [.command [0x10, 7, 0, 0, 0, 0, 0, 0, 0]]) = some u := ⟨_, _, test_inv_busy, rfl, rfl⟩

/-- EchoTakeActsAsReply has no hypotheses; here its exchange is accepted (P2). -/
theorem test_echo_take : (next? (echoTake 1004300000 (le 4 0x00020003 ++ le32 1 ++ le64 1000000000 ++ le64 6002000000 ++
    le64 6002300000 ++ le64 0) busy)).map State.cs = some ⟨.settled, 1, 5000000000, 1000000000, 1004300000, 6002300000⟩ := by
  decide

/-- P2: the request message of the first exchange. -/
theorem test_echo_build : (next? (echoBuild 1000000000 fresh)).map (fun t => t.output.drop 2) = some [.resp ([0, 0x28, 0, 0, 0,
    0x03, 0, 0x02, 0, 0x01, 0, 0, 0, 0x00, 0xCA, 0x9A, 0x3B, 0, 0, 0, 0] ++ List.replicate 24 0)] := by decide

end Sys2Proof.Tests
end

