-- ==== Sys2Proof/Proofs/Params.lean ====
section
/-! PROOF. The parameters of an instance are fixed (spec/00_scope.md R8): no command, refusal or handler return writes them. -/

namespace Sys2Proof.Machine

@[simp] theorem withSr_params (s : State) (x : Reassembler) (o : List PortOut) : (withSr s x o).params = s.params := rfl

@[simp] theorem resetRegisters_params (s : State) : s.resetRegisters.params = s.params := rfl

@[simp] theorem raiseBadOpcode_params (s : State) : s.raiseBadOpcode.params = s.params := rfl

@[simp] theorem handlerReturn_params (s : State) : s.handlerReturn.params = s.params := by
  cases h : s.sr.callout with
  | none => rw [handlerReturn_of_none h]
  | some c => simp [handlerReturn_of_open h]

/-- The one command of the whole block is RESET (R91). -/
theorem eq_reset_of_agentOf_block {i : Instr} (h : Safety.agentOf i.opcode = .block) : i = .reset := by
  cases i with
  | reset => rfl
  | _ => cases h

/-- Each unit writes its own registers and the output alone, and RESET keeps the parameters too (R311). -/
theorem exec_keeps_params {i : Instr} {s t : State} (h : exec i s = .next t) : t.params = s.params := by
  cases unit : Safety.agentOf i.opcode with
  | hc =>
    obtain ⟨st, r, answers⟩ := exec_hc unit
    cases (answers s).symm.trans h
    simp
  | cs =>
    obtain ⟨_, st, r, -, ht, -⟩ := exec_cs unit rfl rfl h
    rw [ht]
    simp
  | sr =>
    obtain ⟨x, o, rfl, -⟩ := exec_sr unit rfl rfl h
    simp
  | fs =>
    obtain ⟨_, -, runs⟩ := exec_fs unit rfl rfl h
    exact runs.left.params
  | block =>
    obtain rfl := eq_reset_of_agentOf_block unit
    cases h
    simp

/-- A packet is executed or refused (R94, R95), and neither changes a parameter. -/
theorem runPacket_keeps_params {p : Bytes} {s t : State} (h : runPacket p s = .next t) : t.params = s.params := by
  rw [runPacket] at h
  split at h
  case h_1 => exact exec_keeps_params h
  case h_2 => cases h; simp
  case h_3 => cases h; simp

theorem nextEvent_keeps_params {s t : State} {e : PortIn} (h : s.nextEvent = some (e, t)) : t.params = s.params := by
  obtain ⟨rest, -, rfl⟩ := nextEvent_eq_some h
  simp

theorem step_keeps_params {s t : State} (h : step s = .next t) : t.params = s.params := by
  obtain ⟨-, idle⟩ | ⟨p, s1, taken, runs⟩ | ⟨s1, taken, returns⟩ := step_cases s
  · cases idle.symm.trans h
    rfl
  · exact (runPacket_keeps_params (runs.symm.trans h)).trans (nextEvent_keeps_params taken)
  · cases returns.symm.trans h
    exact (handlerReturn_params s1).trans (nextEvent_keeps_params taken)

/-- Settles O14, by what a step is: idle, the run of a packet, or the handler's return. -/
theorem parametersNeverChange : Obligations.ParametersNeverChange :=
  fun _ _ h => step_keeps_params h

end Sys2Proof.Machine
end

/-! PROOF. The invariant (spec/10_state.md R37, R38, R45, R57, R59) unit by unit: what a unit's registers must meet after one of
its commands, everything outside the unit being as it was. -/

namespace Sys2Proof.Machine

open Sys2Proof.Safety

/-! ### ClockSync -/

theorem truncId_lt (w : Nat) (v : U32) : (truncId w v).toNat < 2 ^ w := by
  rw [truncId, BitVec.toNat_ofNat]
  exact Nat.lt_of_le_of_lt (Nat.mod_le _ _) (Nat.mod_lt _ (Nat.two_pow_pos w))

/-- An id that W bits hold is its own truncation. -/
theorem truncId_of_lt {w : Nat} {v : U32} (h : v.toNat < 2 ^ w) : truncId w v = v := by
  rw [truncId, Nat.mod_eq_of_lt h, BitVec.ofNat_toNat, BitVec.setWidth_eq]

/-- A segment is part of the reassembler. -/
theorem seg_congr {s t : State} (sr : t.sr = s.sr) (c : Channel) : t.seg c = s.seg c := by
  cases c <;> simp only [State.seg, sr]

/-- A run that leaves the reassembler and the frame context as they were keeps the invariant if the echo id has W bits. -/
theorem inv_of_clockSync {s t : State} (h : Inv s) (params : t.params = s.params)
    (echo_id : t.cs.echoId.toNat < 2 ^ s.params.echoIdBits) (sr : t.sr = s.sr) (fs : t.fs = s.fs) : Inv t where
  params := params ▸ h.params
  echo_id := by rwa [params]
  segs := fun c => by
    rw [params, seg_congr sr]
    exact h.segs c
  callout := fun c => by
    rw [seg_congr sr, sr]
    exact h.callout c
  shards := by
    rw [params, fs]
    exact h.shards

/-- What differs in the ports alone meets the invariant. -/
theorem inv_of_ports {s t : State} (h : Inv s) (params : t.params = s.params) (cs : t.cs = s.cs) (sr : t.sr = s.sr)
    (fs : t.fs = s.fs) : Inv t :=
  inv_of_clockSync h params (cs ▸ h.echo_id) sr fs

theorem inv_setInput {s : State} (h : Inv s) (es : List PortIn) : Inv (s.setInput es) :=
  inv_of_ports h rfl rfl rfl rfl

theorem inv_respond {s : State} (h : Inv s) (st : Status) (r : Bytes) : Inv (s.respond st r) :=
  inv_of_ports h rfl rfl rfl rfl

theorem inv_raise {s : State} (h : Inv s) (st : Status) (op : Opcode) : Inv (s.raise st op) := inv_respond h _ _

/-! ### The reassembler -/

theorem sameOutside_setSeg (s : State) (c : Channel) (g : Segment) : SameOutsideChannel c s (s.setSeg c g) :=
  ⟨by simp, by simp, by simp, by simp, fun _ hd => setSeg_seg_of_ne s g hd⟩

theorem sameOutside_setCallout {s t : State} {c : Channel} (h : SameOutsideChannel c s t) (o : Option Channel) :
    SameOutsideChannel c s (t.setCallout o) :=
  ⟨h.params, h.cs, h.fs, h.input, fun d hd => (setCallout_seg t d o).trans (h.others d hd)⟩

theorem sameOutside_respond {s t : State} {c : Channel} (h : SameOutsideChannel c s t) (st : Status) (r : Bytes) :
    SameOutsideChannel c s (t.respond st r) :=
  ⟨h.params, h.cs, h.fs, h.input, fun d hd => (respond_seg t d st r).trans (h.others d hd)⟩

/-- SR_BEGIN of a length below SEG_CEILING (R182). -/
theorem segInv_begun {ceiling : Nat} {g : Segment} (h : SegInv ceiling g) {n : U32} (hn : n.toNat ≤ ceiling) :
    SegInv ceiling (g.begun n) where
  valid_le := Nat.zero_le _
  expected_le := by
    by_cases grows : g.capacity < n
    · simp [Segment.begun, grows]
    · have := BitVec.le_def.mp (BitVec.not_lt.mp grows)
      simpa [Segment.begun, grows] using this
  capacity_le := by
    by_cases grows : g.capacity < n
    · simpa [Segment.begun, grows] using hn
    · simpa [Segment.begun, grows] using h.capacity_le
  empty_lens := fun he => nomatch he
  complete_full := fun hc => nomatch hc
  buf_wf := h.buf_wf
  buf_inside := h.buf_inside
  written := fun o ho => absurd ho (Nat.not_lt_zero o)

/-- A segment that becomes EMPTY keeps its capacity and its buffer (R187, R188). -/
theorem segInv_emptied {ceiling : Nat} {g : Segment} (h : SegInv ceiling g) : SegInv ceiling g.emptied where
  valid_le := Nat.zero_le _
  expected_le := Nat.zero_le _
  capacity_le := h.capacity_le
  empty_lens := fun _ => ⟨rfl, rfl⟩
  complete_full := fun hc => nomatch hc
  buf_wf := h.buf_wf
  buf_inside := h.buf_inside
  written := fun o ho => absurd ho (Nat.not_lt_zero o)

/-- RESET keeps the buffer of a segment alone (R311, R312). -/
theorem segInv_cleared {ceiling : Nat} {g : Segment} (h : SegInv ceiling g) : SegInv ceiling g.cleared where
  valid_le := Nat.zero_le _
  expected_le := Nat.zero_le _
  capacity_le := Nat.zero_le _
  empty_lens := fun _ => ⟨rfl, rfl⟩
  complete_full := fun hc => nomatch hc
  buf_wf := h.buf_wf
  buf_inside := h.buf_inside
  written := fun o ho => absurd ho (Nat.not_lt_zero o)

/-- A run on one channel keeps the invariant if its segment meets it and is COMPLETE exactly where the run ends with its
transfer open, no other channel's transfer having been open (R57). -/
theorem inv_of_channel {s t : State} {c : Channel} (h : Inv s) (open_only : ∀ d, s.sr.callout = some d → d = c)
    (same : SameOutsideChannel c s t) (seg : SegInv s.params.segCeiling (t.seg c))
    (callout : t.sr.callout = if (t.seg c).state = .complete then some c else none) : Inv t where
  params := same.params ▸ h.params
  echo_id := by
    rw [same.params, same.cs]
    exact h.echo_id
  segs := fun d => by
    rw [same.params]
    by_cases hd : d = c
    · rwa [hd]
    · rw [same.others d hd]
      exact h.segs d
  callout := fun d => by
    rw [callout]
    by_cases hd : d = c
    · rw [hd]
      by_cases full : (t.seg c).state = .complete <;> simp [full]
    · have idle : (s.seg d).state ≠ .complete := fun full => hd (open_only d ((h.callout d).mp full))
      rw [same.others d hd]
      by_cases full : (t.seg c).state = .complete <;> simp [full, idle, Ne.symm hd]
  shards := by
    rw [same.params, same.fs]
    exact h.shards

/-- The handler's return keeps the invariant: its segment becomes EMPTY as the transfer ends (R55, R188). -/
theorem inv_handlerReturn {s : State} (h : Inv s) : Inv s.handlerReturn := by
  cases hc : s.sr.callout with
  | none => rwa [handlerReturn_of_none hc]
  | some c =>
    rw [handlerReturn_of_open hc]
    refine inv_of_channel (c := c) h (fun d hd => Option.some.inj (hd.symm.trans hc))
      (sameOutside_respond (sameOutside_setCallout (sameOutside_setSeg _ _ _) _) _ _) ?_ ?_
    · simpa using segInv_emptied (h.segs c)
    · simp [Segment.emptied]

/-- A command of the SR unit with no transfer open goes on and keeps the invariant (R182 to R188). -/
theorem exec_sr_keeps_inv {i : Instr} {s : State} (unit : agentOf i.opcode = .sr) (h : Inv s)
    (closed : s.sr.callout = none) : ∃ t, exec i s = .next t ∧ Inv t := by
  have none_open : ∀ {c} d, s.sr.callout = some d → d = c := fun d hd => by simp [closed] at hd
  cases i <;> try (cases unit; done)
  case srBegin b n =>
    simp only [exec, execSrBegin]
    split
    case h_1 => exact ⟨_, rfl, inv_raise h _ _⟩
    case h_2 c _ =>
      split
      case isTrue => exact ⟨_, rfl, inv_raise h _ _⟩
      case isFalse fits =>
        refine ⟨_, rfl, inv_of_channel (c := c) h none_open (sameOutside_respond (sameOutside_setSeg _ _ _) _ _) ?_ ?_⟩
        · simpa using segInv_begun (h.segs c) (by omega)
        · simp [Segment.begun, closed]
  case srFeed b d =>
    simp only [exec, execSrFeed]
    split
    case h_1 => exact ⟨_, rfl, inv_raise h _ _⟩
    case h_2 c _ =>
      split
      case isTrue =>
        split
        · exact ⟨_, rfl, inv_respond h _ _⟩
        · exact ⟨_, rfl, inv_raise h _ _⟩
      case isFalse begun =>
        split
        case isTrue =>
          refine ⟨_, rfl, inv_of_channel (c := c) h none_open (sameOutside_respond (sameOutside_setSeg _ _ _) _ _) ?_ ?_⟩
          · simpa using segInv_emptied (h.segs c)
          · simp [Segment.emptied, closed]
        case isFalse fits =>
          have room : (s.seg c).validLen.toNat + d.length ≤ (s.seg c).expectedLen.toNat := by
            have := (h.segs c).valid_le
            rw [Segment.room] at fits
            omega
          obtain ⟨t, _, fed, same, -, -, -, -, -, -, seg, ending⟩ := feed_of_room (h.segs c) room
          refine ⟨t, by rw [fed]; rfl, inv_of_channel h none_open same seg ?_⟩
          have not_full : (s.seg c).state ≠ .complete := fun full => by
            simpa [closed] using (h.callout c).mp full
          split at ending
          · rw [ending.1, ending.2.1, if_pos rfl]
          · rw [ending.1, ending.2.1, if_neg not_full, closed]

end Sys2Proof.Machine

/-! PROOF. The frame context along FS_PUSH and FS_FINAL (spec/10_state.md R43 to R45, spec/43_frame_sharder.md R210 to
R221): which shards they make, and that the invariant of the frame context is kept. -/

namespace Sys2Proof.Machine

open Sys2Proof.Safety

/-- The range of FS_MAX_SHARDS (R8). -/
theorem fsMaxShards_range {p : Params} (valid : p.Valid) : 1 ≤ p.fsMaxShards ∧ p.fsMaxShards < 2 ^ 32 := by
  obtain ⟨-, -, range, -⟩ := valid
  exact range

/-- What the frame context meets between the shards of one command: `ShardInv` without the row that R212 item 3 leaves for the
shard that FS_FINAL may make. -/
structure FrameInv (p : Params) (x : Sharder) : Prop where
  held_iff : x.heldValid = true ↔ x.nextIdx ≠ 0
  flags : x.heldFlags &&& 0xF8 = 0
  rows : ∀ i, i < x.nextIdx.toNat → RowOk p x i
  rowlen_wf : RowLens.wf x.rowlen
  rowlen_inside : ∀ e ∈ x.rowlen, e.1 < p.fsMaxShards
  store_wf : Memory.wf x.store
  store_inside : ∀ e ∈ x.store, e.1 < p.fsMaxShards * p.protoMaxPayload

theorem frameInv_of_shardInv {p : Params} {x : Sharder} (h : ShardInv p x) : FrameInv p x where
  held_iff := by
    refine ⟨fun held => (h.held held).2, fun some_made => ?_⟩
    by_contra unheld
    exact some_made (h.unheld (Bool.eq_false_iff.mpr unheld))
  flags := h.flags
  rows := fun i hi => ⟨by have := h.room; omega, h.rowlen_le i hi, h.written i hi⟩
  rowlen_wf := h.rowlen_wf
  rowlen_inside := h.rowlen_inside
  store_wf := h.store_wf
  store_inside := h.store_inside

/-- An open frame with room for one more shard meets the invariant. -/
theorem shardInv_of_open {p : Params} {x : Sharder} (h : FrameInv p x) (is_open : x.isOpen = true)
    (room : x.nextIdx.toNat + 1 ≤ p.fsMaxShards) : ShardInv p x where
  closed := fun closed => by simp [is_open] at closed
  held := fun held => ⟨is_open, h.held_iff.mp held⟩
  unheld := fun unheld => by
    by_contra some_made
    simp [h.held_iff.mpr some_made] at unheld
  room := room
  flags := h.flags
  rowlen_wf := h.rowlen_wf
  rowlen_inside := h.rowlen_inside
  rowlen_le := fun i hi => (h.rows i hi).2.1
  store_wf := h.store_wf
  store_inside := h.store_inside
  written := fun i hi => (h.rows i hi).2.2

/-- The registers of a frame context with no shard, over buffers that are kept (R210, R218, R311). -/
def Sharder.withoutShards (x : Sharder) (isOpen : Bool) (frameIdx : U64) (streamIdx : Byte) : Sharder :=
  { x with isOpen := isOpen, frameIdx := frameIdx, streamIdx := streamIdx, nextIdx := 0, heldValid := false, heldFlags := 0 }

/-- A frame context without shards meets the invariant, open or closed. -/
theorem shardInv_withoutShards {p : Params} {x : Sharder} (h : FrameInv p x) (one_row : 1 ≤ p.fsMaxShards) (isOpen : Bool)
    (frameIdx : U64) (streamIdx : Byte) : ShardInv p (x.withoutShards isOpen frameIdx streamIdx) where
  closed := fun _ => ⟨rfl, rfl⟩
  held := fun held => nomatch held
  unheld := fun _ => rfl
  room := by simpa [Sharder.withoutShards] using one_row
  flags := BitVec.zero_and
  rowlen_wf := h.rowlen_wf
  rowlen_inside := h.rowlen_inside
  rowlen_le := fun i hi => absurd hi (Nat.not_lt_zero i)
  store_wf := h.store_wf
  store_inside := h.store_inside
  written := fun i hi => absurd hi (Nat.not_lt_zero i)

/-- A command of the sharder keeps the invariant of the machine if it keeps that of the frame context. -/
theorem inv_of_sharder {s t : State} (h : Inv s) (same : SameOutsideSharder s t) (shards : ShardInv s.params t.fs) : Inv t where
  params := same.params ▸ h.params
  echo_id := by
    rw [same.params, same.cs]
    exact h.echo_id
  segs := fun c => by
    rw [same.params, seg_congr same.sr]
    exact h.segs c
  callout := fun c => by
    rw [seg_congr same.sr, same.sr]
    exact h.callout c
  shards := by rwa [same.params]

/-! ### The shards of one command -/

theorem sliceFlags_reserved (j n : Nat) : sliceFlags j n &&& 0xF8 = 0 := by
  rw [sliceFlags]
  split <;> split <;> decide

/-- A row inside STORE that holds a payload of at most PROTO_MAX_PAYLOAD bytes is all written. -/
theorem rowOk_of_rowIs {s : State} {i : Nat} {d : Bytes} (inside : i < s.params.fsMaxShards)
    (fits : d.length ≤ s.params.protoMaxPayload) (h : RowIs s i d) : RowOk s.params s.fs i := by
  obtain ⟨len, bytes⟩ := h
  refine ⟨inside, by omega, fun o ho => ?_⟩
  have hd : o < d.length := by omega
  have byte := bytes o hd
  rw [State.rowBase, List.getElem?_eq_getElem hd] at byte
  simp [byte]

/-- Every row of the frame in flight holds a payload of at most PROTO_MAX_PAYLOAD bytes. -/
theorem exists_rowIs {s : State} (h : FrameInv s.params s.fs) {i : Nat} (hi : i < s.fs.nextIdx.toNat) :
    ∃ d, RowIs s i d ∧ d.length ≤ s.params.protoMaxPayload := by
  obtain ⟨d, -, row⟩ := storeRow_of_rowOk h.store_wf (h.rows i hi)
  exact ⟨d, row, row.1 ▸ (h.rows i hi).2.1⟩

/-- From s to t the shards with these payloads have been made (R214), as numbers j, j + 1 and so on of n. -/
structure ShardsMade (s t : State) (n j : Nat) (ds : List Bytes) : Prop where
  same : SameOutsideSharder s t
  isOpen : t.fs.isOpen = s.fs.isOpen
  frameIdx : t.fs.frameIdx = s.fs.frameIdx
  streamIdx : t.fs.streamIdx = s.fs.streamIdx
  nextIdx : t.fs.nextIdx.toNat = s.fs.nextIdx.toNat + ds.length
  heldValid : t.fs.heldValid = (s.fs.heldValid || decide (0 < ds.length))
  heldFlags : t.fs.heldFlags = if ds.length = 0 then s.fs.heldFlags else sliceFlags (j + ds.length - 1) n
  frame : FrameInv t.params t.fs
  kept : ∀ i d, i < s.fs.nextIdx.toNat → RowIs s i d → RowIs t i d
  made : ∀ k (hk : k < ds.length), RowIs t (s.fs.nextIdx.toNat + k) ds[k]
  sent : ∀ held, (s.fs.heldValid = true → RowIs s (s.fs.nextIdx.toNat - 1) held) →
    t.output = s.output ++ released s.fs.streamIdx s.fs.frameIdx s.fs.nextIdx.toNat
      (if s.fs.heldValid then some (s.fs.heldFlags, held) else none) (ds.mapIdx (fun k d => (sliceFlags (j + k) n, d)))

/-- The loop of FS_PUSH makes its shards where every one of them has a row (R211, R214). -/
theorem pushFrom_makes {s : State} {n j : Nat} {ds : List Bytes} (h : FrameInv s.params s.fs)
    (max_lt : s.params.fsMaxShards < 2 ^ 32) (room : s.fs.nextIdx.toNat + ds.length ≤ s.params.fsMaxShards)
    (fit : ∀ d ∈ ds, d.length ≤ s.params.protoMaxPayload ∧ d.length < 2 ^ 32) :
    ∃ t, s.pushFrom n j ds = .ok t ∧ ShardsMade s t n j ds := by
  have last_row : s.fs.heldValid = true → s.fs.nextIdx.toNat - 1 < s.fs.nextIdx.toNat := fun held => by
    have : s.fs.nextIdx.toNat ≠ 0 := fun none_made => h.held_iff.mp held (BitVec.eq_of_toNat_eq none_made)
    omega
  have run := fun held (hh : s.fs.heldValid = true → RowIs s (s.fs.nextIdx.toNat - 1) held) =>
    pushFrom_of ds s n j held h.store_wf h.held_iff
      (fun hv => ⟨hh hv, (hh hv).1 ▸ (h.rows _ (last_row hv)).2.1⟩) (by omega) room fit
  obtain ⟨held, hh⟩ : ∃ held, s.fs.heldValid = true → RowIs s (s.fs.nextIdx.toNat - 1) held := by
    by_cases hv : s.fs.heldValid = true
    · obtain ⟨d, row, -⟩ := exists_rowIs h (last_row hv)
      exact ⟨d, fun _ => row⟩
    · exact ⟨[], fun held => absurd held hv⟩
  obtain ⟨t, made, same, isOpen, frameIdx, streamIdx, nextIdx, heldValid, heldFlags, rows, rowlen, bytes, store_wf,
    rowlen_wf, rowlen_in, store_in, -⟩ := run held hh
  have kept : ∀ i d, i < s.fs.nextIdx.toNat → RowIs s i d → RowIs t i d := by
    intro i d hi row
    have fits := (h.rows i hi).2.1
    have base : t.rowBase i = s.rowBase i := by simp only [State.rowBase, same.params]
    refine ⟨by rw [rowlen i (by omega)]; exact row.1, fun o ho => ?_⟩
    rw [base, bytes _ (fun k hk => ?_)]
    · exact row.2 o ho
    · have : (i + 1) * s.params.protoMaxPayload ≤ (s.fs.nextIdx.toNat + k) * s.params.protoMaxPayload :=
        Nat.mul_le_mul_right _ (by omega)
      rw [Nat.succ_mul] at this
      have := row.1
      simp only [State.rowBase]
      omega
  have frame : FrameInv t.params t.fs := by
    refine ⟨?_, ?_, fun i hi => ?_, rowlen_wf h.rowlen_wf, fun e he => ?_, store_wf, fun e he => ?_⟩
    · rw [heldValid, Bool.or_eq_true, h.held_iff, decide_eq_true_eq, ne_eq, ne_eq, ← BitVec.toNat_inj, ← BitVec.toNat_inj,
        nextIdx]
      change s.fs.nextIdx.toNat ≠ 0 ∨ 0 < ds.length ↔ s.fs.nextIdx.toNat + ds.length ≠ 0
      omega
    · rw [heldFlags]
      split
      · exact h.flags
      · exact sliceFlags_reserved _ _
    · rw [nextIdx] at hi
      by_cases old : i < s.fs.nextIdx.toNat
      · obtain ⟨d, row, fits⟩ := exists_rowIs h old
        exact rowOk_of_rowIs (by rw [same.params]; omega) (by rwa [same.params]) (kept i d old row)
      · have row := rows (i - s.fs.nextIdx.toNat) (by omega)
        rw [show s.fs.nextIdx.toNat + (i - s.fs.nextIdx.toNat) = i by omega] at row
        exact rowOk_of_rowIs (by rw [same.params]; omega)
          (by rw [same.params]; exact (fit _ (List.getElem_mem _)).1) row
    · rw [same.params]
      exact (rowlen_in e he).elim (h.rowlen_inside e) id
    · rw [same.params]
      exact (store_in e he).elim (h.store_inside e) id
  refine ⟨t, made, same, isOpen, frameIdx, streamIdx, nextIdx, heldValid, heldFlags, frame, kept, rows, fun held' hh' => ?_⟩
  obtain ⟨t', made', -, -, -, -, -, -, -, -, -, -, -, -, -, -, sent⟩ := run held' hh'
  cases made.symm.trans made'
  exact sent

/-! ### FS_PUSH -/

theorem pushAccepted_iff {s : State} {streamIdx : Byte} {frameIdx : U64} {mp : U32} {len : Nat} :
    s.pushAccepted streamIdx frameIdx mp len = true ↔
      mp ≠ 0 ∧ mp.toNat ≤ s.params.protoMaxPayload ∧
        (s.fs.isOpen = true → frameIdx = s.fs.frameIdx ∧ streamIdx = s.fs.streamIdx) ∧
        (if s.fs.isOpen then s.fs.nextIdx.toNat else 0) + shardCount len mp.toNat + 1 ≤ s.params.fsMaxShards := by
  cases is_open : s.fs.isOpen <;> simp [State.pushAccepted, is_open, and_assoc]

theorem openFrame_of_open {s : State} (h : s.fs.isOpen = true) (streamIdx : Byte) (frameIdx : U64) :
    s.openFrame streamIdx frameIdx = s := by
  rw [State.openFrame, if_pos h]

theorem openFrame_of_closed {s : State} (h : s.fs.isOpen = false) (streamIdx : Byte) (frameIdx : U64) :
    s.openFrame streamIdx frameIdx = s.setFs (s.fs.withoutShards true frameIdx streamIdx) := by
  rw [State.openFrame, if_neg (by simp [h])]
  rfl

/-- A push begins with an open frame (R210), which meets the invariant. -/
theorem openFrame_keeps {s : State} (h : ShardInv s.params s.fs) (streamIdx : Byte) (frameIdx : U64) :
    SameOutsideSharder s (s.openFrame streamIdx frameIdx) ∧ (s.openFrame streamIdx frameIdx).output = s.output ∧
      (s.openFrame streamIdx frameIdx).fs.isOpen = true ∧
      (s.openFrame streamIdx frameIdx).fs.nextIdx.toNat = (if s.fs.isOpen then s.fs.nextIdx.toNat else 0) ∧
      FrameInv s.params (s.openFrame streamIdx frameIdx).fs := by
  cases is_open : s.fs.isOpen with
  | true =>
    rw [openFrame_of_open is_open]
    exact ⟨⟨rfl, rfl, rfl, rfl⟩, rfl, is_open, rfl, frameInv_of_shardInv h⟩
  | false =>
    rw [openFrame_of_closed is_open]
    have one_row : 1 ≤ s.params.fsMaxShards := by have := h.room; omega
    exact ⟨⟨rfl, rfl, rfl, rfl⟩, rfl, rfl, rfl,
      frameInv_of_shardInv (shardInv_withoutShards (frameInv_of_shardInv h) one_row _ _ _)⟩

/-- Every piece of a push is at most `max_payload` bytes long (R213). -/
theorem length_le_of_mem_pieces {mp : Nat} {data d : Bytes} (h : d ∈ pieces mp data) : d.length ≤ mp := by
  rw [pieces_eq, List.mem_map] at h
  obtain ⟨j, -, rfl⟩ := h
  exact List.length_take_le _ _

/-- An accepted FS_PUSH makes the shards of its pieces and answers (R211). -/
theorem fsPush_makes {s : State} {st : Byte} {fr : U64} {mp : U32} {d : Bytes} (h : Inv s)
    (accepted : s.pushAccepted st fr mp d.length = true) :
    ∃ t, exec (.fsPush st fr mp d) s = .next (t.respond .ok (le 4 (shardCount d.length mp.toNat) ++
          le 4 (releasedCount (s.openFrame st fr).fs.heldValid (shardCount d.length mp.toNat)))) ∧
      ShardsMade (s.openFrame st fr) t (shardCount d.length mp.toNat) 0 (pieces mp.toNat d) ∧
      t.fs.nextIdx.toNat + 1 ≤ s.params.fsMaxShards := by
  obtain ⟨-, mp_le, -, room⟩ := pushAccepted_iff.mp accepted
  obtain ⟨same, -, -, nextIdx, frame⟩ := openFrame_keeps h.shards st fr
  have count : (pieces mp.toNat d).length = shardCount d.length mp.toNat := cut_length _ _ _
  obtain ⟨t, run, made⟩ := pushFrom_makes (s := s.openFrame st fr) (n := shardCount d.length mp.toNat) (j := 0)
    (ds := pieces mp.toNat d) (by rwa [same.params]) (by rw [same.params]; exact (fsMaxShards_range h.params).2)
    (by rw [same.params]; omega)
    (fun x hx => by
      have := length_le_of_mem_pieces hx
      have := mp.isLt
      rw [same.params]
      omega)
  refine ⟨t, ?_, made, by rw [made.nextIdx]; omega⟩
  simp only [exec, execFsPush, if_pos accepted, State.push, run, ofExcept]

/-! ### FS_FINAL -/

/-- The payload of the extra shard of FS_FINAL, where there is one (R219, R220). -/
def extraPayloads (s : State) : List Bytes := if s.needsExtraShard then [[]] else []

/-- The extra shard of FS_FINAL is one shard of one (R219). -/
theorem extraShard_eq_pushFrom (s : State) : s.extraShard = s.pushFrom 1 0 (extraPayloads s) := by
  rw [State.extraShard, extraPayloads]
  split
  · rw [State.pushFrom, show sliceFlags 0 1 = startOfSlice ||| endOfSlice from rfl]
    cases s.newShard (startOfSlice ||| endOfSlice) [] <;> rfl
  · rfl

/-- FS_FINAL has made its extra shard, and then the frame has a shard (R218 to R220). -/
theorem extraShard_makes {s : State} (h : Inv s) :
    ∃ u, s.extraShard = .ok u ∧ ShardsMade s u 1 0 (extraPayloads s) ∧ 0 < u.fs.nextIdx.toNat := by
  have room := h.shards.room
  have count : (extraPayloads s).length ≤ 1 := by rw [extraPayloads]; split <;> simp
  obtain ⟨u, run, made⟩ := pushFrom_makes (n := 1) (j := 0) (ds := extraPayloads s) (frameInv_of_shardInv h.shards)
    (fsMaxShards_range h.params).2 (by omega)
    (fun d hd => by
      have empty : d = [] := by
        rw [extraPayloads] at hd
        split at hd <;> simp_all
      simp [empty])
  refine ⟨u, (extraShard_eq_pushFrom s).trans run, made, ?_⟩
  rw [made.nextIdx]
  cases extra : s.needsExtraShard with
  | true => simp [extraPayloads, extra]
  | false =>
    have held : s.fs.heldValid = true := by
      simp only [State.needsExtraShard, Bool.or_eq_false_iff, Bool.not_eq_false'] at extra
      exact extra.1
    have : s.fs.nextIdx.toNat ≠ 0 := fun none_made => (h.shards.held held).2 (BitVec.eq_of_toNat_eq none_made)
    omega

/-- A command of the FS and FE unit goes on and keeps the invariant (R210 to R221, R240). -/
theorem exec_fs_keeps_inv {i : Instr} {s : State} (unit : agentOf i.opcode = .fs) (h : Inv s) :
    ∃ t, exec i s = .next t ∧ Inv t := by
  cases i <;> try (cases unit; done)
  case fsPush st fr mp d =>
    cases accepted : s.pushAccepted st fr mp d.length with
    | false => exact ⟨_, by simp only [exec, execFsPush, accepted]; rfl, inv_raise h _ _⟩
    | true =>
      obtain ⟨t, run, made, room⟩ := fsPush_makes h accepted
      obtain ⟨same, -, is_open, -, -⟩ := openFrame_keeps h.shards st fr
      have params : t.params = s.params := made.same.params.trans same.params
      refine ⟨_, run, inv_respond (inv_of_sharder h ⟨params, made.same.cs.trans same.cs, made.same.sr.trans same.sr,
        made.same.input.trans same.input⟩ ?_) _ _⟩
      exact shardInv_of_open (params ▸ made.frame) (made.isOpen.trans is_open) room
  case fsFinal fr dt pose =>
    by_cases accepted : (s.fs.isOpen && decide (fr = s.fs.frameIdx)) = true
    · obtain ⟨u, extra, made, some_made⟩ := extraShard_makes h
      obtain ⟨s2, t, _, _, _, _, _, release, finish, same, frame, -⟩ :=
        finish_of u _ rfl some_made made.frame.store_wf made.frame.rows ⟨dt, pose⟩
      refine ⟨t, by simp only [exec, execFsFinal, if_pos accepted, State.final, extra, release, finish, ofExcept],
        inv_of_sharder h ⟨same.params.trans made.same.params, same.cs.trans made.same.cs, same.sr.trans made.same.sr,
          same.input.trans made.same.input⟩ ?_⟩
      rw [frame]
      exact shardInv_withoutShards (made.same.params ▸ made.frame) (fsMaxShards_range h.params).1 _ _ _
    · exact ⟨_, by simp only [exec, execFsFinal, if_neg accepted]; rfl, inv_raise h _ _⟩

end Sys2Proof.Machine

/-! PROOF. Every step of the block (spec/20_memory.md R71, R72): which event it takes, that it goes on, and that it keeps the
invariant; what an open callout holds back (R193, R324). -/

namespace Sys2Proof.Machine

open Sys2Proof.Safety

/-! ### The invariant at power-on and along the steps -/

/-- A channel after power-on (R58). -/
theorem segInv_atReset (ceiling : Nat) : SegInv ceiling .atReset where
  valid_le := Nat.le_refl _
  expected_le := Nat.le_refl _
  capacity_le := Nat.zero_le _
  empty_lens := fun _ => ⟨rfl, rfl⟩
  complete_full := fun _ => rfl
  buf_wf := List.Pairwise.nil
  buf_inside := nofun
  written := fun o ho => absurd ho (Nat.not_lt_zero o)

/-- The frame context after power-on (R58). -/
theorem frameInv_atReset (p : Params) : FrameInv p .atReset where
  held_iff := ⟨nofun, fun made => absurd rfl made⟩
  flags := BitVec.zero_and
  rows := fun i hi => absurd hi (Nat.not_lt_zero i)
  rowlen_wf := ⟨List.Pairwise.nil, nofun⟩
  rowlen_inside := nofun
  store_wf := List.Pairwise.nil
  store_inside := nofun

theorem inv_powerOn {p : Params} (valid : p.Valid) : Inv (.powerOn p) where
  params := valid
  echo_id := Nat.two_pow_pos _
  segs := fun c => by cases c <;> exact segInv_atReset _
  callout := fun c => by cases c <;> exact ⟨nofun, nofun⟩
  shards := shardInv_withoutShards (frameInv_atReset p) (fsMaxShards_range valid).1 false 0 0

/-- Settles O10: nothing is in the buffers and no frame is open. -/
theorem powerOnMeetsInvariant : Obligations.PowerOnMeetsInvariant :=
  ⟨fun _ => inv_powerOn, inv_powerOn (by decide)⟩

/-- RESET clears every segment (R311). -/
@[simp] theorem resetRegisters_seg (s : State) (c : Channel) : s.resetRegisters.seg c = (s.seg c).cleared := by
  cases c <;> rfl

/-- RESET keeps the invariant, with a transfer open too (R311, R312). -/
theorem inv_resetRegisters {s : State} (h : Inv s) : Inv s.resetRegisters where
  params := h.params
  echo_id := Nat.two_pow_pos _
  segs := fun c => by
    rw [resetRegisters_seg]
    exact segInv_cleared (h.segs c)
  callout := fun c => by
    rw [resetRegisters_seg]
    exact ⟨nofun, nofun⟩
  shards := shardInv_withoutShards (frameInv_of_shardInv h.shards) (fsMaxShards_range h.params).1 false 0 0

/-- The commands of ClockSync leave an echo id of W bits (R152, R157). -/
theorem exec_cs_keeps_inv {i : Instr} {s : State} (unit : agentOf i.opcode = .cs) (h : Inv s) :
    ∃ t, exec i s = .next t ∧ Inv t := by
  cases i <;> try (cases unit; done)
  case csSend now => exact ⟨_, rfl, inv_of_clockSync h rfl (truncId_lt _ _) rfl rfl⟩
  case csReply now id o r x =>
    simp only [exec, execCsReply]
    split
    · exact ⟨_, rfl, inv_of_clockSync h rfl h.echo_id rfl rfl⟩
    · exact ⟨_, rfl, inv_raise h _ _⟩
  case csExt t l ns => exact ⟨_, rfl, inv_respond h _ _⟩

/-- From a state that meets the invariant every command goes on and keeps it; one of the SR unit runs with no callout open
(R57, R283, R334). -/
theorem exec_keeps_inv {i : Instr} {s : State} (h : Inv s) (free : agentOf i.opcode = .sr → s.sr.callout = none) :
    ∃ t, exec i s = .next t ∧ Inv t := by
  cases unit : agentOf i.opcode with
  | hc =>
    obtain ⟨st, r, answers⟩ := exec_hc unit
    exact ⟨_, answers s, inv_respond h st r⟩
  | cs => exact exec_cs_keeps_inv unit h
  | sr => exact exec_sr_keeps_inv unit h (free unit)
  | fs => exact exec_fs_keeps_inv unit h
  | block =>
    obtain rfl := eq_reset_of_agentOf_block unit
    exact ⟨_, rfl, inv_respond (inv_resetRegisters h) _ _⟩

/-! ### The event that a step takes -/

theorem gate_of_open {s : State} {c : Channel} (h : s.sr.callout = some c) : s.gate = .callout := by
  simp [State.gate, h]

/-- A packet that decodes waits for an open callout where its command is one of the SR unit or of the whole block
(R57, R324). -/
theorem holds_callout_of_decode {n : Nat} {p : Bytes} {i : Instr} (decodes : decode n p = .ok i) :
    Gate.holds .callout (.command p) = decide (agentOf i.opcode = .sr ∨ agentOf i.opcode = .block) := by
  simp only [Gate.holds, toReassembler, toWholeBlock, decode_head decodes]
  cases i.opcode <;> decide

/-- A command of the SR unit or of the whole block that a step takes finds no callout open (R57, R324). -/
theorem callout_none_of_taken {s s1 : State} {n : Nat} {p : Bytes} {i : Instr}
    (taken : s.nextEvent = some (.command p, s1)) (decodes : decode n p = .ok i)
    (unit : agentOf i.opcode = .sr ∨ agentOf i.opcode = .block) : s.sr.callout = none := by
  obtain ⟨rest, take, -⟩ := nextEvent_eq_some taken
  rcases takeEvent_not_held take with free | passes
  · cases hc : s.sr.callout with
    | none => rfl
    | some c => rw [gate_of_open hc] at free; cases free
  · simp [holds_callout_of_decode decodes, unit] at passes

theorem step_of_command {s s1 : State} {p : Bytes} (taken : s.nextEvent = some (.command p, s1)) :
    step s = runPacket p s1 := by
  rw [step, taken]

theorem runPacket_of_decode {s : State} {p : Bytes} {i : Instr} (decodes : decode s.params.poseBytes p = .ok i) :
    runPacket p s = exec i s := by
  rw [runPacket, decodes]

/-- A packet has a command, or it is refused, in the same way in every state with these parameters (R94, R95). -/
theorem decodes_or_refused (s : State) (p : Bytes) :
    (∃ i, decode s.params.poseBytes p = .ok i) ∨
      ∃ st r, ∀ u : State, u.params = s.params → runPacket p u = .next (u.respond st r) := by
  cases decoded : decode s.params.poseBytes p with
  | ok i => exact .inl ⟨i, rfl⟩
  | malformed op =>
    refine .inr ⟨.argError, List.replicate op.resultLen 0, fun u params => ?_⟩
    rw [runPacket, params, decoded]
    rfl
  | badOpcode =>
    refine .inr ⟨.badOpcode, [], fun u params => ?_⟩
    rw [runPacket, params, decoded]
    rfl

/-- What a step that goes on has done: nothing, the handler's return, or the answer to a packet. -/
theorem step_eq_next {s t : State} (h : step s = .next t) :
    t = s ∨ (∃ rest, s.nextEvent = some (.handlerReturn, s.setInput rest) ∧ t = (s.setInput rest).handlerReturn) ∨
      ∃ p rest, s.nextEvent = some (.command p, s.setInput rest) ∧
        ((∃ st r, t = (s.setInput rest).respond st r) ∨
          ∃ i, decode s.params.poseBytes p = .ok i ∧ exec i (s.setInput rest) = .next t) := by
  obtain ⟨-, idle⟩ | ⟨p, s1, taken, runs⟩ | ⟨s1, taken, returns⟩ := step_cases s
  · cases idle.symm.trans h
    exact .inl rfl
  · obtain ⟨rest, -, rfl⟩ := nextEvent_eq_some taken
    refine .inr (.inr ⟨p, rest, taken, ?_⟩)
    obtain ⟨i, decodes⟩ | ⟨st, r, refused⟩ := decodes_or_refused (s.setInput rest) p
    · exact .inr ⟨i, decodes, ((runPacket_of_decode decodes).symm.trans runs.symm).trans h⟩
    · cases ((refused _ rfl).symm.trans runs.symm).trans h
      exact .inl ⟨st, r, rfl⟩
  · obtain ⟨rest, -, rfl⟩ := nextEvent_eq_some taken
    cases returns.symm.trans h
    exact .inr (.inl ⟨rest, taken, rfl⟩)

/-- From a state that meets the invariant every step goes on and keeps it. -/
theorem step_keeps_inv {s : State} (h : Inv s) : ∃ t, step s = .next t ∧ Inv t := by
  obtain ⟨-, idle⟩ | ⟨p, s1, taken, runs⟩ | ⟨s1, taken, returns⟩ := step_cases s
  · exact ⟨s, idle, h⟩
  · obtain ⟨rest, -, rfl⟩ := nextEvent_eq_some taken
    have h1 := inv_setInput h rest
    rw [runs]
    obtain ⟨i, decodes⟩ | ⟨st, r, refused⟩ := decodes_or_refused (s.setInput rest) p
    · rw [runPacket_of_decode decodes]
      exact exec_keeps_inv h1 (fun unit => callout_none_of_taken (s := s) taken decodes (.inl unit))
    · exact ⟨_, refused _ rfl, inv_respond h1 st r⟩
  · obtain ⟨rest, -, rfl⟩ := nextEvent_eq_some taken
    exact ⟨_, returns, inv_handlerReturn (inv_setInput h rest)⟩

/-- Settles O11, unit by unit. -/
theorem stepKeepsInvariant : Obligations.StepKeepsInvariant := by
  intro s t h runs
  obtain ⟨t', goes_on, inv⟩ := step_keeps_inv h
  cases runs.symm.trans goes_on
  exact inv

/-- Settles O12, unit by unit: every access of a command lies inside its space, and what it reads is written. -/
theorem stepNeverStops : Obligations.StepNeverStops := by
  intro s h
  obtain ⟨t, goes_on, -⟩ := step_keeps_inv h
  exact ⟨t, goes_on⟩

/-! ### While a callout is open -/

/-- An event that need not wait for the callout passes packets of the SR unit. -/
theorem takeEvent_behind_reassembler {pre post : List PortIn} {e : PortIn}
    (waiting : ∀ a ∈ pre, ∃ q, a = .command q ∧ (q.head? = some 0x20 ∨ q.head? = some 0x21))
    (passes : Gate.holds .callout e = false) : takeEvent .callout (pre ++ e :: post) = some (e, pre ++ post) := by
  induction pre with
  | nil => simp [takeEvent, passes]
  | cons a pre ih =>
    obtain ⟨q, rfl, opcode⟩ := waiting a (by simp)
    have waits : Gate.holds .callout (.command q) = true := by
      rcases opcode with opcode | opcode <;> simp [Gate.holds, toReassembler, opcode, Opcode.byte]
    have behind : Gate.behind .callout (.command q) = .callout := by
      rcases opcode with opcode | opcode <;> simp [Gate.behind, toWholeBlock, opcode, Opcode.byte]
    rw [List.cons_append, takeEvent, if_pos waits, behind, ih (fun b hb => waiting b (by simp [hb]))]
    rfl

/-- Settles O7, by induction on the packets of the SR unit that wait. -/
theorem busyReassemblerLetsOthersPass : Obligations.BusyReassemblerLetsOthersPass := by
  intro s c pre post p i opened arrived waiting decodes not_sr not_block
  have passes : Gate.holds .callout (.command p) = false := by
    simp [holds_callout_of_decode decodes, not_sr, not_block]
  have taken : s.nextEvent = some (.command p, s.setInput (pre ++ post)) := by
    rw [State.nextEvent, gate_of_open opened, arrived, takeEvent_behind_reassembler waiting passes]
    rfl
  rw [step_of_command taken]
  exact runPacket_of_decode decodes

/-- The commands of the HeaderCodec, of ClockSync and of the sharder leave the reassembler as it is. -/
theorem exec_keeps_sr {i : Instr} {s t : State} (not_sr : agentOf i.opcode ≠ .sr) (not_block : agentOf i.opcode ≠ .block)
    (h : exec i s = .next t) : t.sr = s.sr := by
  cases unit : agentOf i.opcode with
  | hc =>
    obtain ⟨st, r, answers⟩ := exec_hc unit
    cases (answers s).symm.trans h
    rfl
  | cs =>
    obtain ⟨_, st, r, -, ht, -⟩ := exec_cs unit rfl rfl h
    rw [ht]
    rfl
  | fs =>
    obtain ⟨_, -, runs⟩ := exec_fs unit rfl rfl h
    exact runs.left.sr
  | sr => exact absurd unit not_sr
  | block => exact absurd unit not_block

/-- Settles O8: a packet that is taken is no command of the SR unit, and behind a waiting RESET the handler's return alone is
taken. -/
theorem openCalloutFreezesReassembler : Obligations.OpenCalloutFreezesReassembler := by
  refine ⟨fun s t c opened no_return h => ?_, fun s s1 c pre post r e opened arrived reset taken => ?_⟩
  · obtain rfl | ⟨rest, taken, -⟩ | ⟨p, rest, taken, ⟨st, r, rfl⟩ | ⟨i, decodes, runs⟩⟩ := step_eq_next h
    · rfl
    · obtain ⟨_, take, -⟩ := nextEvent_eq_some taken
      obtain ⟨pre, post, arrived, -⟩ := takeEvent_eq_some take
      simp [arrived] at no_return
    · rfl
    · have others : ¬(agentOf i.opcode = .sr ∨ agentOf i.opcode = .block) := fun unit => by
        simp [callout_none_of_taken taken decodes unit] at opened
      exact exec_keeps_sr (s := s.setInput rest) (fun unit => others (.inl unit)) (fun unit => others (.inr unit)) runs
  · obtain ⟨rest, take, rfl⟩ := nextEvent_eq_some taken
    rw [gate_of_open opened, arrived] at take
    refine (takeEvent_around_reset (by simp) reset take).imp_right ?_
    rintro ⟨a, b, ahead, rfl⟩
    exact ⟨a, b, ahead, rfl⟩

/-- Settles O9: the return passes what waits for it, and ends the transfer. -/
theorem handlerReturnEndsFeed : Obligations.HandlerReturnEndsFeed := by
  intro s c pre rest opened waiting arrived
  have taken : s.nextEvent = some (.handlerReturn, s.setInput (pre ++ rest)) := by
    rw [State.nextEvent, gate_of_open opened, arrived, takeEvent_return_behind_waiting waiting]
    rfl
  refine ⟨(s.setInput (pre ++ rest)).handlerReturn, by rw [step, taken], ?_⟩
  rw [handlerReturn_of_open (s := s.setInput (pre ++ rest)) opened]
  refine ⟨by simp [Segment.emptied], by simp [Segment.emptied], by simp [Segment.emptied], by simp [Segment.emptied],
    by simp [Segment.emptied], by simp,
    sameOutside_respond (sameOutside_setCallout (sameOutside_setSeg _ _ _) _) _ _, ?_⟩
  simp only [respond_output, setCallout_output, setSeg_output, setInput_output]
  rfl

end Sys2Proof.Machine

/-! PROOF. What a step can change: a capacity shrinks by RESET alone (R37, R312), `ns_offset` changes by an accepted
reply or RESET alone (R31), and commands of different channels or units do not interfere (R20, R40, R71, R72). -/

namespace Sys2Proof.Machine

open Sys2Proof.Safety

/-- RESET is the packet of its opcode alone (R107). -/
theorem eq_of_decode_reset {n : Nat} {p : Bytes} (decodes : decode n p = .ok .reset) : p = [0x7F] := by
  have head := decode_head decodes
  cases p with
  | nil => cases head
  | cons b rest =>
    obtain rfl : b = 0x7F := Option.some.inj head
    have block : decodeBlock n .reset rest = .ok .reset := decodes
    obtain ⟨-, len, -⟩ := decodeBlock_eq_ok block
    obtain rfl : rest = [] := List.length_eq_zero_iff.mp (by simpa [Opcode.layout, Opcode.tailLen, Opcode.hasDlen] using len)
    rfl

/-! ### What a command leaves on a channel -/

/-- The state with the segment of channel c replaced, its transfer opened where `opened` says so, and these packets sent. -/
def channelRun (s : State) (c : Channel) (g : Segment) (opened : Bool) (os : List PortOut) : State :=
  ((s.setSeg c g).setCallout (if opened then some c else s.sr.callout)).emit os

theorem channelRun_closed (s : State) (c : Channel) (g : Segment) (os : List PortOut) :
    channelRun s c g false os = (s.setSeg c g).emit os := by
  cases c <;> rfl

theorem channelRun_seg (s : State) (c d : Channel) (g : Segment) (opened : Bool) (os : List PortOut) :
    (channelRun s c g opened os).seg d = if d = c then g else s.seg d := by
  simp only [channelRun, emit_seg, setCallout_seg, setSeg_seg]

/-- The append of SR_FEED reads the parameters and its segment alone, and writes the segment and the open transfer alone; the
capacity it keeps (R186). -/
theorem feed_on_channel {s s' t : State} {c : Channel} {d : Bytes} (params : s'.params = s.params)
    (seg : s'.seg c = s.seg c) (h : s.feed c d = .ok t) :
    ∃ g opened os, t = channelRun s c g opened os ∧ s'.feed c d = .ok (channelRun s' c g opened os) ∧
      g.capacity = (s.seg c).capacity := by
  rw [State.feed] at h ⊢
  split at h
  case h_1 => cases h
  case h_2 s1 wrote =>
    obtain ⟨inside, rfl⟩ := segWrite_eq_ok wrote
    rw [seg, segWrite_of_inside (by rw [params]; exact inside)]
    simp only [State.feedDone, setSeg_seg_self, setSeg_setSeg, seg] at h ⊢
    split at h
    case isTrue full =>
      rw [if_pos full]
      split at h
      case h_1 => cases h
      case h_2 view read =>
        obtain ⟨inside, bytes⟩ := segRead_eq_ok read
        rw [segRead_of_read (v := view) (by simpa [params] using inside) (by simpa using bytes)]
        cases h
        exact ⟨_, true, _, rfl, rfl, rfl⟩
    case isFalse partly =>
      rw [if_neg partly]
      cases h
      exact ⟨_, false, _, (channelRun_closed ..).symm, congrArg _ (channelRun_closed ..).symm, rfl⟩

/-- A command of the SR unit reads the parameters and the segment of its channel alone. It only answers, or it writes that
segment and the open transfer, and makes no capacity smaller (R182, R186 to R188). -/
theorem exec_on_channel {i : Instr} {b : Byte} {s s' t : State} (channel : channelOf i = some b)
    (params : s'.params = s.params) (seg : ∀ c : Channel, b.toNat = c.index → s'.seg c = s.seg c) (h : exec i s = .next t) :
    (∃ st r, t = s.respond st r ∧ exec i s' = .next (s'.respond st r)) ∨
      ∃ c g opened os, b.toNat = c.index ∧ (s.seg c).capacity ≤ g.capacity ∧ t = channelRun s c g opened os ∧
        exec i s' = .next (channelRun s' c g opened os) := by
  cases i <;> try (cases channel; done)
  case srBegin b n =>
    cases channel
    simp only [exec, execSrBegin, params] at h ⊢
    split at h
    case h_1 => cases h; exact .inl ⟨_, _, rfl, rfl⟩
    case h_2 c names =>
      have index := ofByte?_eq_some_iff_index.mp names
      simp only [seg c index]
      split at h
      case isTrue above => cases h; exact .inl ⟨_, _, rfl, by rw [if_pos above]; rfl⟩
      case isFalse fits =>
        rw [if_neg fits]
        cases h
        refine .inr ⟨c, (s.seg c).begun n, false, _, index, ?_, (channelRun_closed ..).symm,
          congrArg _ (channelRun_closed ..).symm⟩
        simp only [Segment.begun]
        split
        · exact BitVec.le_of_lt ‹_›
        · exact BitVec.le_refl _
  case srFeed b d =>
    cases channel
    simp only [exec, execSrFeed] at h ⊢
    split at h
    case h_1 => cases h; exact .inl ⟨_, _, rfl, rfl⟩
    case h_2 c names =>
      have index := ofByte?_eq_some_iff_index.mp names
      simp only [seg c index]
      split at h
      case isTrue idle =>
        rw [if_pos idle]
        split at h
        case isTrue empty => cases h; exact .inl ⟨_, _, rfl, by rw [if_pos empty]⟩
        case isFalse nonempty => cases h; exact .inl ⟨_, _, rfl, by rw [if_neg nonempty]; rfl⟩
      case isFalse begun =>
        rw [if_neg begun]
        split at h
        case isTrue above =>
          rw [if_pos above]
          cases h
          exact .inr ⟨c, (s.seg c).emptied, false, _, index, BitVec.le_refl _, (channelRun_closed ..).symm,
            congrArg _ (channelRun_closed ..).symm⟩
        case isFalse fits =>
          rw [if_neg fits]
          obtain ⟨g, opened, os, runs, runs', capacity⟩ := feed_on_channel params (seg c index) (ofExcept_eq_next.mp h)
          exact .inr ⟨c, g, opened, os, index, capacity.symm ▸ BitVec.le_refl _, runs, by rw [runs']; rfl⟩

/-- The commands of the SR unit are those with a channel operand (R109). -/
theorem exists_channelOf {i : Instr} (unit : agentOf i.opcode = .sr) : ∃ b, channelOf i = some b := by
  cases i <;> try (cases unit; done)
  case srBegin b n => exact ⟨b, rfl⟩
  case srFeed b d => exact ⟨b, rfl⟩

/-! ### Capacities -/

/-- No command but RESET makes a capacity smaller (R37). -/
theorem capacity_le_of_exec {i : Instr} {s t : State} (not_block : agentOf i.opcode ≠ .block) (h : exec i s = .next t)
    (c : Channel) : (s.seg c).capacity ≤ (t.seg c).capacity := by
  by_cases unit : agentOf i.opcode = .sr
  · obtain ⟨b, channel⟩ := exists_channelOf unit
    obtain ⟨st, r, rfl, -⟩ | ⟨d, g, opened, os, -, grows, rfl, -⟩ := exec_on_channel channel rfl (fun _ _ => rfl) h
    · rw [respond_seg]
      exact BitVec.le_refl _
    · rw [channelRun_seg]
      split
      case isTrue own => exact own ▸ grows
      case isFalse other => exact BitVec.le_refl _
  · rw [seg_congr (exec_keeps_sr unit not_block h)]
    exact BitVec.le_refl _

/-- The handler's return keeps every capacity (R188). -/
theorem handlerReturn_capacity (s : State) (c : Channel) : (s.handlerReturn.seg c).capacity = (s.seg c).capacity := by
  cases opened : s.sr.callout with
  | none => rw [handlerReturn_of_none opened]
  | some d =>
    rw [handlerReturn_of_open opened, respond_seg, setCallout_seg, setSeg_seg]
    split
    case isTrue own => rw [own]; rfl
    case isFalse other => rfl

/-- Settles O15: SR_BEGIN raises a capacity or keeps it, and every other event but RESET keeps it. -/
theorem capacityShrinksOnlyByReset : Obligations.CapacityShrinksOnlyByReset := by
  intro s t c h shrinks
  have not_le : ¬(s.seg c).capacity ≤ (t.seg c).capacity := BitVec.not_le.mpr shrinks
  obtain rfl | ⟨rest, -, rfl⟩ | ⟨p, rest, taken, ⟨st, r, rfl⟩ | ⟨i, decodes, runs⟩⟩ := step_eq_next h
  · exact absurd (BitVec.le_refl _) not_le
  · rw [handlerReturn_capacity, setInput_seg] at not_le
    exact absurd (BitVec.le_refl _) not_le
  · rw [respond_seg, setInput_seg] at not_le
    exact absurd (BitVec.le_refl _) not_le
  · by_cases unit : agentOf i.opcode = .block
    · obtain rfl := eq_reset_of_agentOf_block unit
      exact ⟨_, eq_of_decode_reset decodes ▸ taken⟩
    · have grows := capacity_le_of_exec unit runs c
      rw [setInput_seg] at grows
      exact absurd grows not_le

/-! ### The clock offset -/

/-- CS_REPLY is accepted in state ECHO_SENT with the pending id (R155). -/
theorem matchesReply_iff {w : Nat} {id : U32} {x : ClockSync} :
    x.matchesReply w id = true ↔ x.state = .echoSent ∧ id = x.echoId ∧ id.toNat < 2 ^ w := by
  simp only [ClockSync.matchesReply, Bool.and_eq_true, decide_eq_true_eq, and_assoc]
  refine and_congr_right fun _ => and_congr_left fun fits => ?_
  rw [truncId_of_lt fits]

/-- A command that changes `ns_offset` is RESET or an accepted CS_REPLY (R31, R157). -/
theorem nsOffset_of_exec {i : Instr} {s t : State} (h : exec i s = .next t) (changed : t.cs.nsOffset ≠ s.cs.nsOffset) :
    i = .reset ∨ ∃ now org recv xmt, i = .csReply now s.cs.echoId org recv xmt ∧ s.cs.state = .echoSent := by
  cases unit : agentOf i.opcode with
  | hc =>
    obtain ⟨st, r, answers⟩ := exec_hc unit
    cases (answers s).symm.trans h
    exact absurd rfl changed
  | sr =>
    obtain ⟨x, o, rfl, -⟩ := exec_sr unit rfl rfl h
    exact absurd rfl changed
  | fs =>
    obtain ⟨_, -, runs⟩ := exec_fs unit rfl rfl h
    exact absurd (congrArg ClockSync.nsOffset runs.left.cs) changed
  | block => exact .inl (eq_reset_of_agentOf_block unit)
  | cs =>
    cases i <;> try (cases unit; done)
    case csSend now => cases h; exact absurd rfl changed
    case csExt t l ns => cases h; exact absurd rfl changed
    case csReply now id org recv xmt =>
      simp only [exec, execCsReply] at h
      split at h
      case isTrue accepted =>
        obtain ⟨sent, rfl, -⟩ := matchesReply_iff.mp accepted
        exact .inr ⟨now, org, recv, xmt, rfl, sent⟩
      case isFalse => cases h; exact absurd rfl changed

/-- The handler's return leaves the ClockSync registers as they are. -/
theorem handlerReturn_cs (s : State) : s.handlerReturn.cs = s.cs := by
  cases opened : s.sr.callout with
  | none => rw [handlerReturn_of_none opened]
  | some c => simp [handlerReturn_of_open opened]

/-- Settles O16, by what each unit writes. -/
theorem offsetChangesOnlyByReplyOrReset : Obligations.OffsetChangesOnlyByReplyOrReset := by
  intro s t h changed
  obtain rfl | ⟨rest, -, rfl⟩ | ⟨p, rest, taken, ⟨st, r, rfl⟩ | ⟨i, decodes, runs⟩⟩ := step_eq_next h
  · exact absurd rfl changed
  · exact absurd (congrArg ClockSync.nsOffset (handlerReturn_cs _)) changed
  · exact absurd rfl changed
  · refine ⟨p, _, taken, ?_⟩
    obtain rfl | ⟨now, org, recv, xmt, rfl, sent⟩ := nsOffset_of_exec runs changed
    · exact .inl (eq_of_decode_reset decodes)
    · exact .inr ⟨now, org, recv, xmt, decodes, sent⟩

end Sys2Proof.Machine

/-! PROOF. Commands that own different parts of the state can be taken in either order (R20, R40, R71, R72). -/

namespace Sys2Proof.Machine

open Sys2Proof.Safety

/-! ### Parts of the state -/

/-- The parts that the commands of the units own between them; no command but RESET writes what another owns. -/
inductive StatePart where
  | cs
  | fs
  | callout
  | seg (c : Channel)

/-- Two states hold the same in a part. -/
def StatePart.Same (s t : State) : StatePart → Prop
  | .cs => t.cs = s.cs
  | .fs => t.fs = s.fs
  | .callout => t.sr.callout = s.sr.callout
  | .seg c => t.seg c = s.seg c

theorem StatePart.Same.refl (s : State) (q : StatePart) : q.Same s s := by cases q <;> rfl

theorem StatePart.Same.symm {s t : State} {q : StatePart} (h : q.Same s t) : q.Same t s := by cases q <;> exact Eq.symm h

theorem StatePart.Same.trans {s t u : State} {q : StatePart} (h : q.Same s t) (h' : q.Same t u) : q.Same s u := by
  cases q <;> exact Eq.trans h' h

/-- The reassembler is its segments and its open transfer. -/
theorem sr_ext {s t : State} (seg : ∀ c, t.seg c = s.seg c) (callout : t.sr.callout = s.sr.callout) : t.sr = s.sr := by
  obtain ⟨p, cs, ⟨g0, g1, g2, o⟩, fs, i, x⟩ := s
  obtain ⟨p', cs', ⟨g0', g1', g2', o'⟩, fs', i', x'⟩ := t
  obtain rfl : g0' = g0 := seg .ch0
  obtain rfl : g1' = g1 := seg .ch1
  obtain rfl : g2' = g2 := seg .ch2
  obtain rfl : o' = o := callout
  rfl

/-- States that are the same in every part are the same but for what they have sent. -/
theorem sameState_of_parts {s t : State} (params : t.params = s.params) (input : t.input = s.input)
    (parts : ∀ q : StatePart, q.Same s t) : SameState s t where
  params := params
  cs := parts .cs
  sr := sr_ext (fun c => parts (.seg c)) (parts .callout)
  fs := parts .fs
  input := input

/-! ### Commands that own parts of the state -/

/-- Two states agree on the parameters and on the parts that a command owns. -/
structure Agree (own : StatePart → Prop) (s s' : State) : Prop where
  params : s'.params = s.params
  parts : ∀ q, own q → q.Same s s'

/-- A run of a command leaves everything that the command does not own. -/
structure Leaves (own : StatePart → Prop) (s t : State) : Prop where
  params : t.params = s.params
  input : t.input = s.input
  parts : ∀ q, ¬own q → q.Same s t

/-- Two runs of a command, from s to t and from s' to t', leave what it does not own, end alike in what it owns, and have sent
the same. -/
structure TwinRuns (own : StatePart → Prop) (s s' t t' : State) : Prop where
  agree : Agree own t t'
  left : Leaves own s t
  right : Leaves own s' t'
  sent : ∃ x, t.output = s.output ++ x ∧ t'.output = s'.output ++ x

/-- From states that meet `ok`, which it keeps, a command reads and writes what it owns alone. -/
def Confined (ok : State → Prop) (own : StatePart → Prop) (f : State → Host.Outcome State Fault Refusal) : Prop :=
  ∀ s s' t, ok s → ok s' → Agree own s s' → f s = .next t →
    ok t ∧ ∃ t', f s' = .next t' ∧ TwinRuns own s s' t t'

/-- A command does not see a run of one that owns other parts. -/
theorem agree_of_leaves {own own' : StatePart → Prop} (disjoint : ∀ q, own q → ¬own' q) {s t : State} (h : Leaves own' s t) :
    Agree own s t :=
  ⟨h.params, fun q hq => h.parts q (disjoint q hq)⟩

/-- The answer to a command that only answers is sent wherever it runs. -/
theorem twinRuns_respond {own : StatePart → Prop} {s s' : State} (h : Agree own s s') (st : Status) (r : Bytes) :
    TwinRuns own s s' (s.respond st r) (s'.respond st r) where
  agree := ⟨h.params, fun q hq => by
    have same := h.parts q hq
    cases q <;> simpa [StatePart.Same] using same⟩
  left := ⟨rfl, rfl, fun q _ => by cases q <;> simp [StatePart.Same]⟩
  right := ⟨rfl, rfl, fun q _ => by cases q <;> simp [StatePart.Same]⟩
  sent := ⟨_, rfl, rfl⟩

/-- Commands that own different parts of the state commute, and each sends the same in either order. -/
theorem confined_commute {ok : State → Prop} {own own' : StatePart → Prop} {f g : State → Host.Outcome State Fault Refusal}
    (hf : Confined ok own f) (hg : Confined ok own' g) (disjoint : ∀ q, own q → ¬own' q) {s a b : State} (hs : ok s)
    (first : f s = .next a) (second : g a = .next b) :
    ∃ a' b' x y, g s = .next a' ∧ f a' = .next b' ∧ SameState b b' ∧
      a.output = s.output ++ x ∧ b.output = a.output ++ y ∧ a'.output = s.output ++ y ∧ b'.output = a'.output ++ x := by
  have disjoint' : ∀ q, own' q → ¬own q := fun q h' h => disjoint q h h'
  obtain ⟨ha, _, _, from_s⟩ := hf s s a hs hs ⟨rfl, fun q _ => .refl s q⟩ first
  have back : Agree own' a s := by
    have h := agree_of_leaves disjoint' from_s.left
    exact ⟨h.params.symm, fun q hq => (h.parts q hq).symm⟩
  obtain ⟨-, a', first', runs'⟩ := hg a s b ha hs back second
  obtain ⟨ha', _, _⟩ := hg s s a' hs hs ⟨rfl, fun q _ => .refl s q⟩ first'
  obtain ⟨-, b', second', runs⟩ := hf s a' a hs ha' (agree_of_leaves disjoint runs'.right) first
  obtain ⟨x, sent, sent'⟩ := runs.sent
  obtain ⟨y, sends, sends'⟩ := runs'.sent
  refine ⟨a', b', x, y, first', second', sameState_of_parts ?_ ?_ fun q => ?_, sent, sends, sends', sent'⟩
  · rw [runs.right.params, runs'.right.params, runs'.left.params, runs.left.params]
  · rw [runs.right.input, runs'.right.input, runs'.left.input, runs.left.input]
  · by_cases mine : own q
    · exact ((runs'.left.parts q (disjoint q mine)).symm).trans (runs.agree.parts q mine)
    · refine .trans ?_ (runs.right.parts q mine)
      by_cases yours : own' q
      · exact runs'.agree.parts q yours
      · exact ((runs'.left.parts q yours).symm.trans (runs.left.parts q mine).symm).trans (runs'.right.parts q yours)

/-! ### Units -/

/-- Which parts a unit owns (R20, R30, R36, R43). -/
def unitOwns (unit : Agent) : StatePart → Prop
  | .cs => unit = .cs
  | .fs => unit = .fs
  | .callout => unit = .sr
  | .seg _ => unit = .sr

theorem unitOwns_disjoint {u v : Agent} (h : u ≠ v) (q : StatePart) (hu : unitOwns u q) : ¬unitOwns v q := by
  intro hv
  cases q <;> exact h (Eq.trans hu (Eq.symm hv))

theorem leaves_setCs (s : State) (x : ClockSync) (st : Status) (r : Bytes) :
    Leaves (unitOwns .cs) s ((s.setCs x).respond st r) := by
  refine ⟨rfl, rfl, fun q hq => ?_⟩
  cases q with
  | cs => exact absurd rfl hq
  | fs => rfl
  | callout => rfl
  | seg c => exact seg_congr rfl c

theorem leaves_withSr (s : State) (x : Reassembler) (o : List PortOut) : Leaves (unitOwns .sr) s (withSr s x o) := by
  refine ⟨rfl, rfl, fun q hq => ?_⟩
  cases q with
  | cs => rfl
  | fs => rfl
  | callout => exact absurd rfl hq
  | seg c => exact absurd rfl hq

theorem leaves_of_sharder {s t : State} (same : SameOutsideSharder s t) : Leaves (unitOwns .fs) s t := by
  refine ⟨same.params, same.input, fun q hq => ?_⟩
  cases q with
  | cs => exact same.cs
  | fs => exact absurd rfl hq
  | callout => exact congrArg Reassembler.callout same.sr
  | seg c => exact seg_congr same.sr c

/-- A command of a unit reads and writes the parts of its unit alone. -/
theorem exec_confined {i : Instr} (not_block : agentOf i.opcode ≠ .block) :
    Confined (fun _ => True) (unitOwns (agentOf i.opcode)) (exec i) := by
  intro s s' t _ _ agree h
  refine ⟨trivial, ?_⟩
  cases unit : agentOf i.opcode with
  | block => exact absurd unit not_block
  | hc =>
    obtain ⟨st, r, answers⟩ := exec_hc unit
    cases (answers s).symm.trans h
    exact ⟨_, answers s', twinRuns_respond (unit ▸ agree) st r⟩
  | cs =>
    obtain ⟨t', st, r, h', ht, ht'⟩ := exec_cs unit agree.params (agree.parts .cs unit) h
    generalize t.cs = x at ht ht'
    subst ht ht'
    refine ⟨_, h', ⟨agree.params, fun q hq => ?_⟩, leaves_setCs s x st r, leaves_setCs s' x st r, _, rfl, rfl⟩
    cases q with
    | cs => rfl
    | _ => cases hq
  | sr =>
    have sr : s'.sr = s.sr := sr_ext (fun c => agree.parts (.seg c) unit) (agree.parts .callout unit)
    obtain ⟨x, o, rfl, h'⟩ := exec_sr unit agree.params sr h
    refine ⟨_, h', ⟨agree.params, fun q hq => ?_⟩, leaves_withSr s x o, leaves_withSr s' x o, _, rfl, rfl⟩
    cases q with
    | seg c => exact seg_congr rfl c
    | callout => rfl
    | _ => cases hq
  | fs =>
    obtain ⟨t', h', runs⟩ := exec_fs unit agree.params (agree.parts .fs unit) h
    refine ⟨t', h', ⟨runs.params, fun q hq => ?_⟩, leaves_of_sharder runs.left, leaves_of_sharder runs.right, runs.sent⟩
    cases q with
    | fs => exact runs.fs
    | _ => cases hq

/-- Settles O40: different units own different parts. -/
theorem unitsNeverInterfere : Obligations.UnitsNeverInterfere :=
  fun _ _ _ _ _ different i_unit j_unit first second =>
    confined_commute (exec_confined i_unit) (exec_confined j_unit) (unitOwns_disjoint different) trivial first second

/-! ### Channels -/

/-- Which parts a channel owns between the responses of its commands (R36, R40). -/
def channelOwns (b : Byte) : StatePart → Prop
  | .seg c => b.toNat = c.index
  | .cs | .fs | .callout => False

theorem channelOwns_disjoint {b b' : Byte} (h : b ≠ b') (q : StatePart) (hb : channelOwns b q) : ¬channelOwns b' q := by
  intro hb'
  cases q with
  | seg c => exact h (BitVec.eq_of_toNat_eq (Eq.trans hb (Eq.symm hb')))
  | _ => exact hb

/-- To its response, a command of a channel that opened a transfer leaves the segment EMPTY (R188), and one that opened none
leaves it as it was: with no transfer open before, none is open after. -/
theorem handlerReturn_channelRun (c : Channel) (g : Segment) (opened : Bool) (os : List PortOut) :
    ∃ g' os', ∀ s : State, s.sr.callout = none → (channelRun s c g opened os).handlerReturn = channelRun s c g' false os' := by
  cases opened with
  | false => exact ⟨g, os, fun s closed => handlerReturn_of_none closed⟩
  | true =>
    refine ⟨g.emptied, os ++ [.resp (Status.ok.byte :: (le 1 1 ++ le32 0))], fun s closed => ?_⟩
    rw [handlerReturn_of_open (c := c) rfl]
    refine State.ext_fields ?_ ?_ (fun d => ?_) ?_ ?_ ?_ ?_
    · simp [channelRun]
    · simp [channelRun]
    · simp only [respond_seg, setCallout_seg, setSeg_seg, channelRun_seg, if_true]
      split <;> rfl
    · simp [channelRun, closed]
    · simp [channelRun]
    · simp [channelRun]
    · simp [channelRun]

/-- Two runs that put the same segment on one channel and send the same. -/
theorem twinRuns_channelRun {b : Byte} {c : Channel} {s s' : State} (index : b.toNat = c.index)
    (h : Agree (channelOwns b) s s') (g : Segment) (os : List PortOut) :
    TwinRuns (channelOwns b) s s' (channelRun s c g false os) (channelRun s' c g false os) := by
  have leaves : ∀ u : State, Leaves (channelOwns b) u (channelRun u c g false os) := fun u => by
    refine ⟨by simp [channelRun], by simp [channelRun], fun q hq => ?_⟩
    cases q with
    | seg d =>
      have other : d ≠ c := fun own => hq (own ▸ index)
      exact (channelRun_seg u c d g false os).trans (if_neg other)
    | _ => simp [channelRun, StatePart.Same]
  refine ⟨⟨by simpa [channelRun] using h.params, fun q hq => ?_⟩, leaves s, leaves s', os, by simp [channelRun],
    by simp [channelRun]⟩
  cases q with
  | seg d =>
    have same : s'.seg d = s.seg d := h.parts (.seg d) hq
    show (channelRun s' c g false os).seg d = (channelRun s c g false os).seg d
    rw [channelRun_seg, channelRun_seg, same]
  | _ => exact absurd hq id

theorem execToResponse_of_next {i : Instr} {s t : State} (h : exec i s = .next t) :
    execToResponse i s = .next t.handlerReturn := by
  rw [execToResponse, h]

theorem execToResponse_eq_next {i : Instr} {s u : State} (h : execToResponse i s = .next u) :
    ∃ t, exec i s = .next t ∧ u = t.handlerReturn := by
  rw [execToResponse] at h
  split at h <;> cases h
  exact ⟨_, ‹_›, rfl⟩

/-- With no transfer open, a command that is run to its response reads and writes its channel alone (R40). -/
theorem execToResponse_confined {i : Instr} {b : Byte} (channel : channelOf i = some b) :
    Confined (fun s => s.sr.callout = none) (channelOwns b) (execToResponse i) := by
  intro s s' u closed closed' agree h
  obtain ⟨t, runs, rfl⟩ := execToResponse_eq_next h
  obtain ⟨st, r, rfl, runs'⟩ | ⟨c, g, opened, os, index, -, rfl, runs'⟩ :=
    exec_on_channel channel agree.params (fun c => agree.parts (.seg c)) runs
  · rw [handlerReturn_of_none (s := s.respond st r) closed]
    refine ⟨closed, s'.respond st r, ?_, twinRuns_respond agree st r⟩
    rw [execToResponse_of_next runs', handlerReturn_of_none (s := s'.respond st r) closed']
  · obtain ⟨g', os', returns⟩ := handlerReturn_channelRun c g opened os
    rw [returns s closed]
    refine ⟨closed, channelRun s' c g' false os', ?_, twinRuns_channelRun index agree g' os'⟩
    rw [execToResponse_of_next runs', returns s' closed']

/-- Settles O39: different channels own different segments. -/
theorem channelsCommute : Obligations.ChannelsCommute :=
  fun _ _ _ _ _ _ _ i_channel j_channel different closed first second =>
    confined_commute (execToResponse_confined i_channel) (execToResponse_confined j_channel)
      (channelOwns_disjoint different) closed first second

end Sys2Proof.Machine

/-! PROOF. After RESET the block acts as right after power-on (spec/10_state.md R59, spec/70_reset_and_hazards.md R311,
R312): two states whose registers are the same and whose buffers hold the same where it can be read answer every event
alike. -/

namespace Sys2Proof.Machine

open Sys2Proof.Safety

/-! ### States that cannot be told apart -/

/-- Two segments have the same registers, and their buffers hold the same bytes below `valid_len`. -/
structure SegAlike (g k : Segment) : Prop where
  state : k.state = g.state
  validLen : k.validLen = g.validLen
  expectedLen : k.expectedLen = g.expectedLen
  capacity : k.capacity = g.capacity
  bytes : ∀ a, a < g.validLen.toNat → Cells.get? k.buf a = Cells.get? g.buf a

/-- Two states have the same frame registers, and every row of the frame in flight holds the same payload in both. -/
structure FrameAlike (s v : State) : Prop where
  isOpen : v.fs.isOpen = s.fs.isOpen
  frameIdx : v.fs.frameIdx = s.fs.frameIdx
  streamIdx : v.fs.streamIdx = s.fs.streamIdx
  nextIdx : v.fs.nextIdx = s.fs.nextIdx
  heldValid : v.fs.heldValid = s.fs.heldValid
  heldFlags : v.fs.heldFlags = s.fs.heldFlags
  rows : ∀ i, i < s.fs.nextIdx.toNat → ∃ d, RowIs s i d ∧ RowIs v i d

/-- Two states have the same registers and arrived events, and their buffers hold the same wherever the block reads (R59). -/
structure Alike (s v : State) : Prop where
  params : v.params = s.params
  cs : v.cs = s.cs
  callout : v.sr.callout = s.sr.callout
  input : v.input = s.input
  segs : ∀ c, SegAlike (s.seg c) (v.seg c)
  frame : FrameAlike s v

/-- A run from s to t and one from v to w end alike and have sent the same. -/
structure AlikeRuns (s v t w : State) : Prop where
  alike : Alike t w
  sent : ∃ x, t.output = s.output ++ x ∧ w.output = v.output ++ x

theorem alikeRuns_trans {s v t w a b : State} (h : AlikeRuns s v t w) (h' : AlikeRuns t w a b) : AlikeRuns s v a b := by
  obtain ⟨-, x, sent, sent'⟩ := h
  obtain ⟨alike, y, output, output'⟩ := h'
  exact ⟨alike, x ++ y, by rw [output, sent, List.append_assoc], by rw [output', sent', List.append_assoc]⟩

/-- Segments that hold no byte are alike by their registers. -/
theorem segAlike_of_empty {g k : Segment} (state : k.state = g.state) (validLen : k.validLen = g.validLen)
    (expectedLen : k.expectedLen = g.expectedLen) (capacity : k.capacity = g.capacity) (empty : g.validLen = 0) :
    SegAlike g k :=
  ⟨state, validLen, expectedLen, capacity, fun a ha => absurd ha (by simp [empty])⟩

theorem rowIs_congr {s t : State} {i : Nat} {d : Bytes} (params : t.params = s.params) (fs : t.fs = s.fs)
    (h : RowIs s i d) : RowIs t i d := by
  simpa only [RowIs, State.rowBase, params, fs] using h

/-- The frame context is alike where neither run has written it. -/
theorem frameAlike_congr {s v t w : State} (h : FrameAlike s v) (params : t.params = s.params) (fs : t.fs = s.fs)
    (params' : w.params = v.params) (fs' : w.fs = v.fs) : FrameAlike t w where
  isOpen := by rw [fs, fs', h.isOpen]
  frameIdx := by rw [fs, fs', h.frameIdx]
  streamIdx := by rw [fs, fs', h.streamIdx]
  nextIdx := by rw [fs, fs', h.nextIdx]
  heldValid := by rw [fs, fs', h.heldValid]
  heldFlags := by rw [fs, fs', h.heldFlags]
  rows := fun i hi => by
    obtain ⟨d, row, row'⟩ := h.rows i (fs ▸ hi)
    exact ⟨d, rowIs_congr params fs row, rowIs_congr params' fs' row'⟩

/-- Frame contexts without shards are alike whatever STORE holds. -/
theorem frameAlike_withoutShards {t w : State} {x y : Sharder} {isOpen : Bool} {frameIdx : U64} {streamIdx : Byte}
    (fs : t.fs = x.withoutShards isOpen frameIdx streamIdx) (fs' : w.fs = y.withoutShards isOpen frameIdx streamIdx) :
    FrameAlike t w where
  isOpen := by rw [fs, fs']; rfl
  frameIdx := by rw [fs, fs']; rfl
  streamIdx := by rw [fs, fs']; rfl
  nextIdx := by rw [fs, fs']; rfl
  heldValid := by rw [fs, fs']; rfl
  heldFlags := by rw [fs, fs']; rfl
  rows := fun i hi => absurd hi (by simp [fs, Sharder.withoutShards])

/-- A command that only answers does so alike. -/
theorem alikeRuns_respond {s v : State} (h : Alike s v) (st : Status) (r : Bytes) :
    AlikeRuns s v (s.respond st r) (v.respond st r) where
  alike :=
    { params := h.params
      cs := h.cs
      callout := h.callout
      input := h.input
      segs := fun c => by simpa using h.segs c
      frame := frameAlike_congr h.frame rfl rfl rfl rfl }
  sent := ⟨_, rfl, rfl⟩

/-- Runs that write one segment and the open transfer alone end alike if the segment and the transfer do. -/
theorem alike_of_channel {s v t w : State} {c : Channel} (h : Alike s v) (same : SameOutsideChannel c s t)
    (same' : SameOutsideChannel c v w) (callout : w.sr.callout = t.sr.callout) (seg : SegAlike (t.seg c) (w.seg c)) :
    Alike t w where
  params := by rw [same'.params, same.params, h.params]
  cs := by rw [same'.cs, same.cs, h.cs]
  callout := callout
  input := by rw [same'.input, same.input, h.input]
  segs := fun d => by
    by_cases own : d = c
    · exact own ▸ seg
    · rw [same.others d own, same'.others d own]
      exact h.segs d
  frame := frameAlike_congr h.frame same.params same.fs same'.params same'.fs

/-- Runs that write the frame context alone end alike if it does. -/
theorem alike_of_sharder {s v t w : State} (h : Alike s v) (same : SameOutsideSharder s t) (same' : SameOutsideSharder v w)
    (frame : FrameAlike t w) : Alike t w where
  params := by rw [same'.params, same.params, h.params]
  cs := by rw [same'.cs, same.cs, h.cs]
  callout := by rw [same'.sr, same.sr, h.callout]
  input := by rw [same'.input, same.input, h.input]
  segs := fun c => by
    rw [seg_congr same.sr, seg_congr same'.sr]
    exact h.segs c
  frame := frame

/-! ### The reassembler -/

/-- A segment that becomes EMPTY is alike in both. -/
theorem segAlike_emptied {g k : Segment} (h : SegAlike g k) : SegAlike g.emptied k.emptied :=
  segAlike_of_empty rfl rfl rfl h.capacity rfl

/-- The handler's return has the same effect in states that are alike. -/
theorem handlerReturn_alike {s v : State} (h : Alike s v) : AlikeRuns s v s.handlerReturn v.handlerReturn := by
  have callout := h.callout
  cases opened : s.sr.callout with
  | none =>
    rw [handlerReturn_of_none opened, handlerReturn_of_none (callout.trans opened)]
    exact ⟨h, [], by simp, by simp⟩
  | some c =>
    rw [handlerReturn_of_open opened, handlerReturn_of_open (callout.trans opened)]
    refine ⟨alike_of_channel (c := c) h (sameOutside_respond (sameOutside_setCallout (sameOutside_setSeg _ _ _) _) _ _)
      (sameOutside_respond (sameOutside_setCallout (sameOutside_setSeg _ _ _) _) _ _) rfl ?_,
      [.resp (Status.ok.byte :: (le 1 1 ++ le32 0))], by simp, by simp⟩
    simpa using segAlike_emptied (h.segs c)

/-- A command that puts segments that are alike on a channel and answers. -/
theorem alikeRuns_setSeg {s v : State} {c : Channel} {g k : Segment} (h : Alike s v) (seg : SegAlike g k) (st : Status)
    (r : Bytes) : AlikeRuns s v ((s.setSeg c g).respond st r) ((v.setSeg c k).respond st r) where
  alike := alike_of_channel (c := c) h (sameOutside_respond (sameOutside_setSeg _ _ _) _ _)
    (sameOutside_respond (sameOutside_setSeg _ _ _) _ _) (by simpa using h.callout) (by simpa using seg)
  sent := ⟨[.resp (st.byte :: r)], by simp, by simp⟩

/-- The bytes that a segment holds are the same in both. -/
theorem eq_of_segAlike {g k : Segment} (h : SegAlike g k) {bs bs' : Bytes} (len : bs.length = g.validLen.toNat)
    (len' : bs'.length = k.validLen.toNat) (held : ∀ a, a < bs.length → Cells.get? g.buf a = bs[a]?)
    (held' : ∀ a, a < bs'.length → Cells.get? k.buf a = bs'[a]?) : bs' = bs := by
  rw [h.validLen] at len'
  apply List.ext_getElem?
  intro a
  by_cases ha : a < g.validLen.toNat
  · rw [← held a (by omega), ← held' a (by omega), h.bytes a ha]
  · rw [List.getElem?_eq_none (by omega), List.getElem?_eq_none (by omega)]

/-- The append of SR_FEED has the same effect in states that are alike (R186). -/
theorem feed_alike {s v : State} {c : Channel} {d : Bytes} (hs : Inv s) (hv : Inv v) (h : Alike s v)
    (room : (s.seg c).validLen.toNat + d.length ≤ (s.seg c).expectedLen.toNat) :
    ∃ t w, s.feed c d = .ok t ∧ v.feed c d = .ok w ∧ AlikeRuns s v t w := by
  have seg := h.segs c
  obtain ⟨t, earlier, fed, same, expected, capacity, valid, buf, len, held, -, ending⟩ := feed_of_room (hs.segs c) room
  obtain ⟨w, earlier', fed', same', expected', capacity', valid', buf', len', held', -, ending'⟩ :=
    feed_of_room (hv.segs c) (d := d) (by rw [seg.validLen, seg.expectedLen]; exact room)
  obtain rfl := eq_of_segAlike seg len len' held held'
  have bytes : ∀ a, a < (t.seg c).validLen.toNat → Cells.get? (w.seg c).buf a = Cells.get? (t.seg c).buf a := by
    intro a ha
    rw [buf, buf', Cells.get?_write, Cells.get?_write, seg.validLen]
    split
    · rfl
    · exact seg.bytes a (by omega)
  rw [seg.validLen, seg.expectedLen] at ending'
  have alike : (w.seg c).state = (t.seg c).state → SegAlike (t.seg c) (w.seg c) := fun state =>
    ⟨state, BitVec.eq_of_toNat_eq (by rw [valid, valid', seg.validLen]), by rw [expected, expected', seg.expectedLen],
      by rw [capacity, capacity', seg.capacity], bytes⟩
  refine ⟨t, w, fed, fed', ?_⟩
  split at ending
  case isTrue full =>
    rw [if_pos full] at ending'
    obtain ⟨state, callout, output⟩ := ending
    obtain ⟨state', callout', output'⟩ := ending'
    exact ⟨alike_of_channel h same same' (callout'.trans callout.symm) (alike (state'.trans state.symm)), _, output,
      output'⟩
  case isFalse partly =>
    rw [if_neg partly] at ending'
    obtain ⟨state, callout, output⟩ := ending
    obtain ⟨state', callout', output'⟩ := ending'
    exact ⟨alike_of_channel h same same' (by rw [callout, callout', h.callout]) (alike (by rw [state, state', seg.state])),
      _, output, output'⟩

/-- A command of the SR unit has the same effect in states that are alike (R182 to R188). -/
theorem exec_sr_alike {i : Instr} {s v : State} (unit : agentOf i.opcode = .sr) (hs : Inv s) (hv : Inv v) (h : Alike s v) :
    ∃ t w, exec i s = .next t ∧ exec i v = .next w ∧ AlikeRuns s v t w := by
  cases i <;> try (cases unit; done)
  case srBegin b n =>
    simp only [exec, execSrBegin, h.params]
    split
    case h_1 => exact ⟨_, _, rfl, rfl, alikeRuns_respond h _ _⟩
    case h_2 c _ =>
      split
      case isTrue => exact ⟨_, _, rfl, rfl, alikeRuns_respond h _ _⟩
      case isFalse =>
        have seg := h.segs c
        have capacity : ((v.seg c).begun n).capacity = ((s.seg c).begun n).capacity := by
          simp only [Segment.begun, seg.capacity]
        refine ⟨_, _, rfl, rfl, ?_⟩
        rw [capacity]
        refine alikeRuns_setSeg h ?_ _ _
        exact segAlike_of_empty rfl rfl rfl capacity rfl
  case srFeed b d =>
    simp only [exec, execSrFeed]
    split
    case h_1 => exact ⟨_, _, rfl, rfl, alikeRuns_respond h _ _⟩
    case h_2 c _ =>
      have seg := h.segs c
      have same_room : (v.seg c).room = (s.seg c).room := by rw [Segment.room, Segment.room, seg.expectedLen, seg.validLen]
      simp only [seg.state, same_room]
      split
      case isTrue =>
        split
        · exact ⟨_, _, rfl, rfl, alikeRuns_respond h _ _⟩
        · exact ⟨_, _, rfl, rfl, alikeRuns_respond h _ _⟩
      case isFalse =>
        split
        case isTrue => exact ⟨_, _, rfl, rfl, alikeRuns_setSeg h (segAlike_emptied seg) _ _⟩
        case isFalse fits =>
          have fills : (s.seg c).validLen.toNat + d.length ≤ (s.seg c).expectedLen.toNat := by
            have := (hs.segs c).valid_le
            rw [Segment.room] at fits
            omega
          obtain ⟨t, w, fed, fed', runs⟩ := feed_alike hs hv h fills
          exact ⟨t, w, by rw [fed]; rfl, by rw [fed']; rfl, runs⟩

/-! ### The sharder -/

/-- Both have the same held shard. -/
theorem exists_held {s v : State} (h : FrameAlike s v) (inv : FrameInv s.params s.fs) :
    ∃ held, (s.fs.heldValid = true → RowIs s (s.fs.nextIdx.toNat - 1) held) ∧
      (v.fs.heldValid = true → RowIs v (v.fs.nextIdx.toNat - 1) held) := by
  rw [h.heldValid, h.nextIdx]
  by_cases held : s.fs.heldValid = true
  · have some_made : s.fs.nextIdx.toNat ≠ 0 := fun none_made => inv.held_iff.mp held (BitVec.eq_of_toNat_eq none_made)
    obtain ⟨d, row, row'⟩ := h.rows (s.fs.nextIdx.toNat - 1) (by omega)
    exact ⟨d, fun _ => row, fun _ => row'⟩
  · exact ⟨[], fun hv => absurd hv held, fun hv => absurd hv held⟩

/-- The same shards made in states that are alike leave them alike, and release the same packets (R214). -/
theorem shardsMade_alike {s v t w : State} {n j : Nat} {ds : List Bytes} (h : FrameAlike s v) (inv : FrameInv s.params s.fs)
    (made : ShardsMade s t n j ds) (made' : ShardsMade v w n j ds) :
    FrameAlike t w ∧ ∃ x, t.output = s.output ++ x ∧ w.output = v.output ++ x := by
  obtain ⟨held, row, row'⟩ := exists_held h inv
  have sent := made.sent held row
  have sent' := made'.sent held row'
  rw [h.heldValid, h.heldFlags, h.nextIdx, h.frameIdx, h.streamIdx] at sent'
  refine ⟨⟨?_, ?_, ?_, BitVec.eq_of_toNat_eq ?_, ?_, ?_, fun i hi => ?_⟩, _, sent, sent'⟩
  · rw [made.isOpen, made'.isOpen, h.isOpen]
  · rw [made.frameIdx, made'.frameIdx, h.frameIdx]
  · rw [made.streamIdx, made'.streamIdx, h.streamIdx]
  · rw [made.nextIdx, made'.nextIdx, h.nextIdx]
  · rw [made.heldValid, made'.heldValid, h.heldValid]
  · rw [made.heldFlags, made'.heldFlags, h.heldFlags]
  · rw [made.nextIdx] at hi
    by_cases old : i < s.fs.nextIdx.toNat
    · obtain ⟨d, row, row'⟩ := h.rows i old
      exact ⟨d, made.kept i d old row, made'.kept i d (by rwa [h.nextIdx]) row'⟩
    · obtain ⟨k, rfl⟩ := Nat.exists_eq_add_of_le (Nat.le_of_not_lt old)
      have hk : k < ds.length := by omega
      exact ⟨ds[k], made.made k hk, h.nextIdx ▸ made'.made k hk⟩

/-- The frame that a push opens is alike in both (R210). -/
theorem openFrame_alike {s v : State} (h : FrameAlike s v) (streamIdx : Byte) (frameIdx : U64) :
    FrameAlike (s.openFrame streamIdx frameIdx) (v.openFrame streamIdx frameIdx) := by
  have same := h.isOpen
  cases is_open : s.fs.isOpen with
  | true =>
    rw [openFrame_of_open is_open, openFrame_of_open (same.trans is_open)]
    exact h
  | false =>
    rw [openFrame_of_closed is_open, openFrame_of_closed (same.trans is_open)]
    exact frameAlike_withoutShards rfl rfl

/-- The end of FS_FINAL has the same effect on frames that are alike: the rows hold the same payloads, so the coder answers the
same (R240). -/
theorem finish_alike {u u' : State} (h : FrameAlike u u') (params : u'.params = u.params) (inv : FrameInv u.params u.fs)
    (inv' : FrameInv u'.params u'.fs) (some_made : 0 < u.fs.nextIdx.toNat) (view : ViewInfo) :
    ∃ s2 s2' t t', (u.markEndOfFrame.releaseHeld (some view) = .ok s2 ∧ s2.finishFrame = .ok t) ∧
      (u'.markEndOfFrame.releaseHeld (some view) = .ok s2' ∧ s2'.finishFrame = .ok t') ∧
      SameOutsideSharder u t ∧ SameOutsideSharder u' t' ∧ FrameAlike t t' ∧
      ∃ x, t.output = u.output ++ x ∧ t'.output = u'.output ++ x := by
  obtain ⟨s2, t, payloads, rows, len, status, fieldBits, release, finish, same, fs, count, held, max, longest, coded, -,
    output⟩ := finish_of u _ rfl some_made inv.store_wf inv.rows view
  obtain ⟨s2', t', payloads', rows', len', status', fieldBits', release', finish', same', fs', count', held', max',
    longest', coded', -, output'⟩ := finish_of u' u.fs.nextIdx.toNat (congrArg _ h.nextIdx) some_made inv'.store_wf
      (fun i hi => inv'.rows i (by rwa [h.nextIdx])) view
  obtain rfl : payloads' = payloads := by
    refine List.ext_getElem (count'.trans count.symm) fun i hi hi' => ?_
    obtain ⟨d, row, row'⟩ := h.rows i (by omega)
    rw [rowIs_unique (held' i _ (List.getElem?_eq_getElem hi)) row',
      rowIs_unique (held i _ (List.getElem?_eq_getElem hi')) row]
  obtain rfl : len' = len := by
    obtain ⟨x, hx, rfl⟩ := longest
    obtain ⟨y, hy, rfl⟩ := longest'
    exact Nat.le_antisymm (max y hy) (max' x hx)
  have answer : status' = status ∧ fieldBits' = fieldBits ∧ rows' = rows := by
    rw [params] at coded'
    cases answered : fecCoder u.params.coder u.fs.nextIdx.toNat (parityCount u.fs.nextIdx.toNat) len'
      (payloads'.map (padRow len')) with
    | none => simp_all only [and_self]
    | some a => simp_all only [and_self]
  obtain ⟨rfl, rfl, rfl⟩ := answer
  rw [h.streamIdx, h.frameIdx, h.heldFlags] at output'
  simp only [List.append_assoc] at output output'
  exact ⟨s2, s2', t, t', ⟨release, finish⟩, ⟨release', finish'⟩, same, same',
    frameAlike_withoutShards (y := u'.fs) fs (by rw [← h.frameIdx, ← h.streamIdx]; exact fs'), _, output, output'⟩

/-- The extra shard of FS_FINAL is needed in both or in neither (R220). -/
theorem extraPayloads_alike {s v : State} (h : FrameAlike s v) (params : v.params = s.params)
    (inv : FrameInv s.params s.fs) : extraPayloads v = extraPayloads s := by
  have needs : v.needsExtraShard = s.needsExtraShard := by
    rw [State.needsExtraShard, State.needsExtraShard, h.heldValid, params]
    cases held : s.fs.heldValid with
    | false => rfl
    | true =>
      have some_made : s.fs.nextIdx.toNat ≠ 0 := fun none_made => inv.held_iff.mp held (BitVec.eq_of_toNat_eq none_made)
      have last : s.fs.lastIdx.toNat = s.fs.nextIdx.toNat - 1 := toNat_sub_one (by omega)
      obtain ⟨d, row, row'⟩ := h.rows s.fs.lastIdx.toNat (by omega)
      rw [show v.fs.lastIdx = s.fs.lastIdx from congrArg (· - 1) h.nextIdx, row.1, row'.1]
  rw [extraPayloads, extraPayloads, needs]

/-- A command of the FS and FE unit has the same effect in states that are alike (R210 to R221, R240). -/
theorem exec_fs_alike {i : Instr} {s v : State} (unit : agentOf i.opcode = .fs) (hs : Inv s) (hv : Inv v) (h : Alike s v) :
    ∃ t w, exec i s = .next t ∧ exec i v = .next w ∧ AlikeRuns s v t w := by
  have frame := h.frame
  cases i <;> try (cases unit; done)
  case fsPush st fr mp d =>
    have same : v.pushAccepted st fr mp d.length = s.pushAccepted st fr mp d.length := by
      simp only [State.pushAccepted, h.params, frame.isOpen, frame.frameIdx, frame.streamIdx, frame.nextIdx]
    cases accepted : s.pushAccepted st fr mp d.length with
    | false =>
      simp only [exec, execFsPush, same, accepted]
      exact ⟨_, _, rfl, rfl, alikeRuns_respond h _ _⟩
    | true =>
      obtain ⟨t, runs, made, -⟩ := fsPush_makes hs accepted
      obtain ⟨w, runs', made', -⟩ := fsPush_makes hv (same.trans accepted)
      obtain ⟨left, sent, -, -, inv⟩ := openFrame_keeps hs.shards st fr
      obtain ⟨left', sent', -, -, -⟩ := openFrame_keeps hv.shards st fr
      have opened := openFrame_alike frame st fr
      obtain ⟨ends, x, output, output'⟩ := shardsMade_alike opened (by rwa [left.params]) made made'
      rw [opened.heldValid] at runs'
      have alike : Alike t w := alike_of_sharder h
        ⟨made.same.params.trans left.params, made.same.cs.trans left.cs, made.same.sr.trans left.sr,
          made.same.input.trans left.input⟩
        ⟨made'.same.params.trans left'.params, made'.same.cs.trans left'.cs, made'.same.sr.trans left'.sr,
          made'.same.input.trans left'.input⟩ ends
      exact ⟨_, _, runs, runs', alikeRuns_trans ⟨alike, x, sent ▸ output, sent' ▸ output'⟩ (alikeRuns_respond alike _ _)⟩
  case fsFinal fr dt pose =>
    by_cases accepted : (s.fs.isOpen && decide (fr = s.fs.frameIdx)) = true
    · obtain ⟨u, extra, made, some_made⟩ := extraShard_makes hs
      obtain ⟨u', extra', made', -⟩ := extraShard_makes hv
      rw [extraPayloads_alike frame h.params (frameInv_of_shardInv hs.shards)] at made'
      obtain ⟨ends, x, sent, sent'⟩ := shardsMade_alike frame (frameInv_of_shardInv hs.shards) made made'
      obtain ⟨s2, s2', t, t', ⟨release, finish⟩, ⟨release', finish'⟩, left, left', closed, y, output, output'⟩ :=
        finish_alike ends (by rw [made.same.params, made'.same.params, h.params]) made.frame made'.frame some_made ⟨dt, pose⟩
      refine ⟨t, t', ?_, ?_, alike_of_sharder h
        ⟨left.params.trans made.same.params, left.cs.trans made.same.cs, left.sr.trans made.same.sr,
          left.input.trans made.same.input⟩
        ⟨left'.params.trans made'.same.params, left'.cs.trans made'.same.cs, left'.sr.trans made'.same.sr,
          left'.input.trans made'.same.input⟩ closed, x ++ y, ?_, ?_⟩
      · simp only [exec, execFsFinal, if_pos accepted, State.final, extra, release, finish, ofExcept]
      · simp only [exec, execFsFinal, frame.isOpen, frame.frameIdx, if_pos accepted, State.final, extra', release', finish',
          ofExcept]
      · rw [output, sent, List.append_assoc]
      · rw [output', sent', List.append_assoc]
    · simp only [exec, execFsFinal, frame.isOpen, frame.frameIdx, if_neg accepted]
      exact ⟨_, _, rfl, rfl, alikeRuns_respond h _ _⟩

/-! ### Steps and runs -/

/-- RESET leaves alike any two states with the same parameters and arrived events (R311, R312). -/
theorem resetRegisters_alike {s v : State} (params : v.params = s.params) (input : v.input = s.input) :
    Alike s.resetRegisters v.resetRegisters where
  params := params
  cs := rfl
  callout := rfl
  input := input
  segs := fun c => by
    rw [resetRegisters_seg, resetRegisters_seg]
    exact segAlike_of_empty rfl rfl rfl rfl rfl
  frame := frameAlike_withoutShards (isOpen := false) (x := s.fs) (y := v.fs) rfl rfl

/-- Every command has the same effect in states that are alike. -/
theorem exec_alike {i : Instr} {s v : State} (hs : Inv s) (hv : Inv v) (h : Alike s v) :
    ∃ t w, exec i s = .next t ∧ exec i v = .next w ∧ AlikeRuns s v t w := by
  cases unit : agentOf i.opcode with
  | hc =>
    obtain ⟨st, r, answers⟩ := exec_hc unit
    exact ⟨_, _, answers s, answers v, alikeRuns_respond h st r⟩
  | cs =>
    obtain ⟨t, runs, -⟩ := exec_cs_keeps_inv unit hs
    obtain ⟨w, st, r, runs', ht, hw⟩ := exec_cs unit h.params h.cs runs
    generalize t.cs = x at ht hw
    subst ht hw
    have alike : Alike (s.setCs x) (v.setCs x) :=
      ⟨h.params, rfl, h.callout, h.input, fun c => by simpa using h.segs c, frameAlike_congr h.frame rfl rfl rfl rfl⟩
    exact ⟨_, _, runs, runs', alikeRuns_trans ⟨alike, [], by simp, by simp⟩ (alikeRuns_respond alike st r)⟩
  | sr => exact exec_sr_alike unit hs hv h
  | fs => exact exec_fs_alike unit hs hv h
  | block =>
    obtain rfl := eq_reset_of_agentOf_block unit
    have alike := resetRegisters_alike h.params h.input
    exact ⟨_, _, rfl, rfl, alikeRuns_trans (s := s) (v := v)
      ⟨alike, [], (List.append_nil _).symm, (List.append_nil _).symm⟩ (alikeRuns_respond alike _ _)⟩

theorem alike_setInput {s v : State} (h : Alike s v) (es : List PortIn) : Alike (s.setInput es) (v.setInput es) :=
  ⟨h.params, h.cs, h.callout, rfl, fun c => by simpa using h.segs c, frameAlike_congr h.frame rfl rfl rfl rfl⟩

/-- States that are alike take the same event next. -/
theorem nextEvent_alike {s v : State} (h : Alike s v) :
    v.nextEvent = (takeEvent s.gate s.input).map (fun r => (r.1, v.setInput r.2)) := by
  rw [State.nextEvent, State.gate, h.callout, h.input, State.gate]

/-- A step from states that are alike leaves them alike, and both have sent the same. -/
theorem step_alike {s v : State} (hs : Inv s) (hv : Inv v) (h : Alike s v) :
    ∃ t w, step s = .next t ∧ step v = .next w ∧ AlikeRuns s v t w := by
  have next := nextEvent_alike h
  cases take : takeEvent s.gate s.input with
  | none =>
    have idle : s.nextEvent = none := by rw [State.nextEvent, take]; rfl
    rw [take] at next
    exact ⟨s, v, by rw [step, idle], by rw [step, next]; rfl, h, [], by simp, by simp⟩
  | some r =>
    obtain ⟨e, rest⟩ := r
    have taken : s.nextEvent = some (e, s.setInput rest) := by rw [State.nextEvent, take]; rfl
    rw [take] at next
    have h1 := alike_setInput h rest
    cases e with
    | handlerReturn =>
      obtain ⟨alike, sent⟩ := handlerReturn_alike h1
      exact ⟨_, _, by rw [step, taken], by rw [step, next]; rfl, alike, sent⟩
    | command p =>
      rw [step_of_command taken, step_of_command next]
      obtain ⟨i, decodes⟩ | ⟨st, r, refused⟩ := decodes_or_refused (s.setInput rest) p
      · rw [runPacket_of_decode decodes, runPacket_of_decode (s := v.setInput rest) (by rw [h1.params]; exact decodes)]
        obtain ⟨t, w, runs, runs', alike, sent⟩ := exec_alike (i := i) (inv_setInput hs rest) (inv_setInput hv rest) h1
        exact ⟨t, w, runs, runs', alike, sent⟩
      · obtain ⟨alike, sent⟩ := alikeRuns_respond h1 st r
        exact ⟨_, _, refused _ rfl, refused _ h1.params, alike, sent⟩

theorem runFrom_succ_of_step {k : Nat} {s t : State} (h : step s = .next t) : runFrom (k + 1) s = runFrom k t := by
  rw [runFrom, h]

/-- Runs of the same length from states that are alike end alike and have sent the same. -/
theorem runFrom_alike {k : Nat} {s v u : State} (hs : Inv s) (hv : Inv v) (h : Alike s v) (run : runFrom k s = some u) :
    ∃ w, runFrom k v = some w ∧ AlikeRuns s v u w := by
  induction k generalizing s v with
  | zero =>
    cases run
    exact ⟨v, rfl, h, [], by simp, by simp⟩
  | succ k ih =>
    obtain ⟨t, t', steps, steps', runs⟩ := step_alike hs hv h
    rw [runFrom_succ_of_step steps] at run
    rw [runFrom_succ_of_step steps']
    obtain ⟨w, run', rest⟩ :=
      ih (stepKeepsInvariant s t hs steps) (stepKeepsInvariant v t' hv steps') runs.alike run
    exact ⟨w, run', alikeRuns_trans runs rest⟩

/-- Settles O55, by a simulation: the two runs stay alike step by step. -/
theorem resetActsAsPowerOn : Obligations.ResetActsAsPowerOn := by
  intro s t u arrived k hs resets run
  cases resets
  have alike : Alike ((s.resetRegisters.respond .ok []).setInput arrived) ((State.powerOn s.params).setInput arrived) :=
    resetRegisters_alike (s := (s.respond .ok []).setInput arrived) (v := (State.powerOn s.params).setInput arrived) rfl rfl
  obtain ⟨w, run', -, x, output, output'⟩ :=
    runFrom_alike (inv_setInput (inv_respond (inv_resetRegisters hs) _ _) arrived)
      (inv_setInput (inv_powerOn hs.params) arrived) alike run
  refine ⟨w, run', ?_⟩
  rw [output, output']
  rfl

end Sys2Proof.Machine

/-! PROOF. What a step that takes a packet runs (R71, R90, R335), and what a command sends: its TX packets, then its one
response, or the view of a segment whose callout it opens (R71, R92, R188). -/

namespace Sys2Proof.Machine

open Sys2Proof.Safety

/-! ### The packet that a step takes -/

theorem gate_of_closed {s : State} (h : s.sr.callout = none) : s.gate = .free := by
  simp [State.gate, h]

/-- Where nothing holds commands back, the oldest event is taken. -/
theorem takeEvent_free_eq_some_iff {es rest : List PortIn} {e : PortIn} :
    takeEvent .free es = some (e, rest) ↔ es = e :: rest := by
  cases es with
  | nil => simp
  | cons a es => simp

/-- Settles O6: an open callout can only make older events wait, and with none the oldest event is taken. -/
theorem stepRunsDecodedCommand : Obligations.StepRunsDecodedCommand := by
  intro s s1 p i taken decodes
  obtain ⟨rest, take, rfl⟩ := nextEvent_eq_some taken
  refine ⟨(step_of_command taken).trans (runPacket_of_decode decodes), ?_⟩
  cases callout : s.sr.callout with
  | none =>
    rw [gate_of_closed callout] at take
    exact ⟨[], rest, takeEvent_free_eq_some_iff.mp take, rfl, fun _ => rfl⟩
  | some c =>
    obtain ⟨pre, post, arrived, rfl⟩ := takeEvent_eq_some take
    exact ⟨pre, post, arrived, rfl, fun closed => nomatch closed⟩

/-! ### TX packets, and the response behind them -/

/-- From s to t, packets have left on TX and nothing else has left. -/
def SendsOnlyTx (s t : State) : Prop :=
  ∃ pre, t.output = s.output ++ pre ∧ ∀ o ∈ pre, ∃ k j b, o = .tx k j b

/-- From s to t, packets have left on TX, then one response on RESP, and nothing else. -/
def RespondsLast (s t : State) : Prop :=
  ∃ pre r, t.output = s.output ++ pre ++ [.resp r] ∧ ∀ o ∈ pre, ∃ k j b, o = .tx k j b

theorem sendsOnlyTx_of_output {s t : State} (h : t.output = s.output) : SendsOnlyTx s t :=
  ⟨[], by simp [h], by simp⟩

theorem sendsOnlyTx_trans {s t u : State} (h : SendsOnlyTx s t) (h' : SendsOnlyTx t u) : SendsOnlyTx s u := by
  obtain ⟨x, sent, tx⟩ := h
  obtain ⟨y, sent', tx'⟩ := h'
  exact ⟨x ++ y, by rw [sent', sent, List.append_assoc], fun o ho => (List.mem_append.mp ho).elim (tx o) (tx' o)⟩

theorem respondsLast_respond {s t : State} (h : SendsOnlyTx s t) (st : Status) (r : Bytes) :
    RespondsLast s (t.respond st r) := by
  obtain ⟨pre, sent, tx⟩ := h
  exact ⟨pre, _, by rw [respond_output, sent], tx⟩

/-- A command that changes registers and buffers alone before it answers. -/
theorem respondsLast_of_output {s t : State} (h : t.output = s.output) (st : Status) (r : Bytes) :
    RespondsLast s (t.respond st r) :=
  respondsLast_respond (sendsOnlyTx_of_output h) st r

theorem respondsLast_of_sendsOnlyTx {s t u : State} (h : SendsOnlyTx s t) (h' : RespondsLast t u) : RespondsLast s u := by
  obtain ⟨x, sent, tx⟩ := h
  obtain ⟨y, r, sent', tx'⟩ := h'
  exact ⟨x ++ y, r, by rw [sent', sent, List.append_assoc s.output],
    fun o ho => (List.mem_append.mp ho).elim (tx o) (tx' o)⟩

/-! ### The sharder -/

theorem releaseHeld_sendsOnlyTx {s t : State} {view : Option ViewInfo} (h : s.releaseHeld view = .ok t) :
    SendsOnlyTx s t := by
  obtain ⟨payload, -, rfl⟩ := releaseHeld_eq_ok h
  exact ⟨_, by rw [setFs_output, emit_output], by simp⟩

/-- A new shard sends the shard that was held, if any (R214). -/
theorem newShard_sendsOnlyTx {s t : State} {flags : Byte} {payload : Bytes} (h : s.newShard flags payload = .ok t) :
    SendsOnlyTx s t := by
  obtain ⟨s1, released, holds⟩ := newShard_eq_ok h
  obtain ⟨-, rfl⟩ := holdShard_eq_ok holds
  have held : SendsOnlyTx s s1 := by
    obtain ⟨-, rfl⟩ | ⟨-, release⟩ := releaseIfHeld_eq_ok released
    · exact sendsOnlyTx_of_output rfl
    · exact releaseHeld_sendsOnlyTx release
  exact sendsOnlyTx_trans held (sendsOnlyTx_of_output (setFs_output ..))

/-- The loop of FS_PUSH (R211). -/
theorem pushFrom_sendsOnlyTx {n j : Nat} {ds : List Bytes} {s t : State} (h : s.pushFrom n j ds = .ok t) :
    SendsOnlyTx s t := by
  induction ds generalizing s j with
  | nil =>
    cases h
    exact sendsOnlyTx_of_output rfl
  | cons d ds ih =>
    obtain ⟨s1, made, others⟩ := pushFrom_cons_eq_ok h
    exact sendsOnlyTx_trans (newShard_sendsOnlyTx made) (ih others)

theorem openFrame_output (s : State) (streamIdx : Byte) (frameIdx : U64) :
    (s.openFrame streamIdx frameIdx).output = s.output := by
  cases isOpen : s.fs.isOpen with
  | true => rw [openFrame_of_open isOpen]
  | false => rw [openFrame_of_closed isOpen, setFs_output]

theorem parityPackets_are_tx (streamIdx : Byte) (frameIdx : U64) (k p : Nat) (rows : List Bytes) :
    ∀ o ∈ parityPackets streamIdx frameIdx k p rows, ∃ k j b, o = .tx k j b := by
  intro o ho
  obtain ⟨j, _, rfl⟩ := List.mem_mapIdx.mp ho
  exact ⟨_, _, _, rfl⟩

/-- `fec_finalize` sends its parity packets, or none where the coder is unavailable (R240, R250). -/
theorem fecResult_packets_are_tx (coder : CoderChoice) (streamIdx : Byte) (frameIdx : U64) (k len : Nat)
    (payloads : List Bytes) :
    ∀ o ∈ (fecResult coder streamIdx frameIdx k len payloads).packets, ∃ k j b, o = .tx k j b := by
  simp only [fecResult]
  split
  case h_1 => simp
  case h_2 => exact parityPackets_are_tx _ _ _ _ _

/-- FS_PUSH once it is accepted (R211): the shards it releases, then its response. -/
theorem push_respondsLast {s t : State} {mp : Nat} {data : Bytes} (h : s.push mp data = .ok t) : RespondsLast s t := by
  obtain ⟨s1, run, rfl⟩ := push_eq_ok h
  exact respondsLast_respond (pushFrom_sendsOnlyTx run) _ _

/-- The end of FS_FINAL (R218, R240): the parity packets, then its response. -/
theorem finishFrame_respondsLast {s t : State} (h : s.finishFrame = .ok t) : RespondsLast s t := by
  obtain ⟨payloads, -, rfl⟩ := finishFrame_eq_ok h
  exact respondsLast_respond ⟨_, rfl, fecResult_packets_are_tx _ _ _ _ _ _⟩ _ _

/-- FS_FINAL once it is accepted (R218): the last shards, the parity packets, then its response. -/
theorem final_respondsLast {s t : State} {view : ViewInfo} (h : s.final view = .ok t) : RespondsLast s t := by
  obtain ⟨s1, s2, extra, release, finish⟩ := final_eq_ok h
  rw [extraShard_eq_pushFrom] at extra
  have last : SendsOnlyTx s1 s2 :=
    sendsOnlyTx_trans (t := s1.markEndOfFrame) (sendsOnlyTx_of_output rfl) (releaseHeld_sendsOnlyTx release)
  exact respondsLast_of_sendsOnlyTx (sendsOnlyTx_trans (pushFrom_sendsOnlyTx extra) last)
    (finishFrame_respondsLast finish)

/-- FS_PUSH and FS_FINAL answer last, behind the shards and the parity packets that they send (R211, R218, R251). -/
theorem exec_fs_respondsLast {i : Instr} {s t : State} (unit : agentOf i.opcode = .fs) (h : exec i s = .next t) :
    RespondsLast s t := by
  cases i <;> try (cases unit; done)
  case fsPush st fr mp d =>
    simp only [exec, execFsPush] at h
    split at h
    case isTrue accepted =>
      exact respondsLast_of_sendsOnlyTx (sendsOnlyTx_of_output (openFrame_output s st fr))
        (push_respondsLast (ofExcept_eq_next.mp h))
    case isFalse refused =>
      cases h
      exact respondsLast_of_output rfl _ _
  case fsFinal fr dt pose =>
    simp only [exec, execFsFinal] at h
    split at h
    case isTrue accepted => exact final_respondsLast (ofExcept_eq_next.mp h)
    case isFalse refused =>
      cases h
      exact respondsLast_of_output rfl _ _

/-! ### The reassembler -/

/-- From s to t, the view of a segment has left on PKT_OUT and nothing else, and its transfer is open. -/
def OpensCallout (s t : State) : Prop :=
  ∃ c n v, t.sr.callout = some c ∧ t.output = s.output ++ [.pktOut c n v]

/-- The append of SR_FEED answers, or where it fills the segment opens the callout and lets the response wait
(R186, R188). -/
theorem feed_responds_or_opens {s t : State} {c : Channel} {d : Bytes} (h : s.feed c d = .ok t) :
    RespondsLast s t ∨ OpensCallout s t := by
  rw [State.feed] at h
  split at h
  case h_1 => cases h
  case h_2 s1 wrote =>
    obtain ⟨-, rfl⟩ := segWrite_eq_ok wrote
    simp only [State.feedDone] at h
    split at h
    case isTrue full =>
      split at h
      case h_1 => cases h
      case h_2 view read =>
        cases h
        exact .inr ⟨c, _, view, by simp, by simp; rfl⟩
    case isFalse partly =>
      cases h
      exact .inl (respondsLast_of_output (by simp) _ _)

/-- SR_BEGIN answers, and so does SR_FEED unless it opens a callout (R182 to R188). -/
theorem exec_sr_responds_or_opens {i : Instr} {s t : State} (unit : agentOf i.opcode = .sr) (h : exec i s = .next t) :
    RespondsLast s t ∨ (i.opcode = .srFeed ∧ OpensCallout s t) := by
  cases i <;> try (cases unit; done)
  case srBegin b n =>
    left
    simp only [exec, execSrBegin] at h
    split at h
    case h_1 => cases h; exact respondsLast_of_output rfl _ _
    case h_2 c names =>
      split at h
      case isTrue above => cases h; exact respondsLast_of_output rfl _ _
      case isFalse fits => cases h; exact respondsLast_of_output (setSeg_output ..) _ _
  case srFeed b d =>
    simp only [exec, execSrFeed] at h
    split at h
    case h_1 => cases h; exact .inl (respondsLast_of_output rfl _ _)
    case h_2 c names =>
      split at h
      case isTrue idle =>
        split at h
        case isTrue empty => cases h; exact .inl (respondsLast_of_output rfl _ _)
        case isFalse nonempty => cases h; exact .inl (respondsLast_of_output rfl _ _)
      case isFalse begun =>
        split at h
        case isTrue above => cases h; exact .inl (respondsLast_of_output (setSeg_output ..) _ _)
        case isFalse fits => exact (feed_responds_or_opens (ofExcept_eq_next.mp h)).imp_right fun opens => ⟨rfl, opens⟩

/-! ### Every command -/

/-- A command answers last, or it is an SR_FEED whose response waits for the handler's return (R92, R188). -/
theorem exec_responds_or_opens {i : Instr} {s t : State} (h : exec i s = .next t) :
    RespondsLast s t ∨ (i.opcode = .srFeed ∧ OpensCallout s t) := by
  cases unit : agentOf i.opcode with
  | hc =>
    obtain ⟨st, r, answers⟩ := exec_hc unit
    cases (answers s).symm.trans h
    exact .inl (respondsLast_of_output rfl st r)
  | cs =>
    obtain ⟨_, st, r, -, answered, -⟩ := exec_cs unit rfl rfl h
    exact .inl (answered ▸ respondsLast_of_output (setCs_output ..) st r)
  | sr => exact exec_sr_responds_or_opens unit h
  | fs => exact .inl (exec_fs_respondsLast unit h)
  | block =>
    obtain rfl := eq_reset_of_agentOf_block unit
    cases h
    exact .inl (respondsLast_of_output rfl _ _)

/-- Settles O17, unit by unit: the sharder sends TX packets first, and SR_FEED alone can open a callout. -/
theorem oneResponseAndItComesLast : Obligations.OneResponseAndItComesLast := by
  intro i s t h
  refine (exec_responds_or_opens h).imp_right ?_
  rintro ⟨feeds, c, n, v, opened, sent⟩
  exact ⟨c, n, v, feeds, opened, sent⟩

end Sys2Proof.Machine

/-! PROOF. The packet format both ways (spec/30_encoding.md R90 to R107, R122): a well-formed command's packet decodes to the
command, a packet that decodes is its command's packet, and a packet whose length does not fit is refused (R94). -/

namespace Sys2Proof

/-! ### Fields that their widths can hold -/

/-- Every value can be held by the number of bytes of its field. -/
abbrev FieldsFit (widths values : List Nat) : Prop := List.Forall₂ (fun n v => v < 256 ^ n) widths values

theorem fieldsFit_splitFields {widths : List Nat} {bs : Bytes} : FieldsFit widths (splitFields widths bs) := by
  induction widths generalizing bs with
  | nil => exact .nil
  | cons n widths ih =>
    have len : (bs.take n).length ≤ n := List.length_take_le n bs
    exact .cons (Nat.lt_of_lt_of_le (fromLe_lt _) (Nat.pow_le_pow_right (by decide) len)) ih

theorem splitFields_packFields_of_fit {widths values : List Nat} (fit : FieldsFit widths values) (rest : Bytes) :
    splitFields widths (packFields widths values ++ rest) = values := by
  induction fit with
  | nil => rfl
  | cons holds _ ih =>
    rw [packFields, splitFields, List.append_assoc, take_le_append, drop_le_append, fromLe_le_of_lt holds, ih]

theorem splitFields_append (widths : List Nat) (n : Nat) (bs : Bytes) :
    splitFields (widths ++ [n]) bs = splitFields widths bs ++ [fromLe ((bs.drop widths.sum).take n)] := by
  induction widths generalizing bs with
  | nil => rfl
  | cons m widths ih => simp [splitFields, ih]

/-! ### The operand block -/

/-- `dlen` is the last field, four bytes long (R122). -/
theorem layout_of_hasDlen {op : Opcode} (h : op.hasDlen = true) : ∃ widths, op.layout = widths ++ [4] := by
  cases op with
  | hiEnc => exact ⟨[1, 2, 4, 4], rfl⟩
  | hiDec | echoUnpack => exact ⟨[], rfl⟩
  | srFeed => exact ⟨[1], rfl⟩
  | fsPush => exact ⟨[1, 8, 4], rfl⟩
  | _ => cases h

theorem blockLen_of_hasDlen {op : Opcode} (poseBytes : Nat) (h : op.hasDlen = true) :
    op.blockLen poseBytes = op.layout.sum := by
  have not_final : op ≠ .fsFinal := by rintro rfl; cases h
  rw [Opcode.blockLen, if_neg not_final, Nat.add_zero]

/-- What must follow the opcode byte (R90): the operand block, and the data that the last four bytes of the block count. -/
theorem layout_sum_add_tailLen (poseBytes : Nat) (op : Opcode) (rest : Bytes) :
    op.layout.sum + op.tailLen poseBytes (splitFields op.layout rest) = op.blockLen poseBytes +
      (if op.hasDlen then fromLe ((rest.drop (op.blockLen poseBytes - 4)).take 4) else 0) := by
  by_cases h : op.hasDlen = true
  · obtain ⟨widths, layout⟩ := layout_of_hasDlen h
    simp [Opcode.tailLen, h, blockLen_of_hasDlen, layout, splitFields_append]
  · simp [Opcode.tailLen, h, Opcode.blockLen]

/-! ### Decoding a packet (R90, R94) -/

theorem decode_cons (poseBytes : Nat) (op : Opcode) (rest : Bytes) :
    decode poseBytes (op.byte :: rest) = decodeBlock poseBytes op rest := by
  rw [decode, ofByte?_byte]

theorem decodeBlock_of_short {poseBytes : Nat} {op : Opcode} {rest : Bytes} (h : rest.length < op.blockLen poseBytes) :
    decodeBlock poseBytes op rest = .malformed op := by
  rw [decodeBlock, if_pos h]

theorem decodeBlock_of_misfit {poseBytes : Nat} {op : Opcode} {rest : Bytes}
    (h : rest.length ≠ op.layout.sum + op.tailLen poseBytes (splitFields op.layout rest)) :
    decodeBlock poseBytes op rest = .malformed op := by
  by_cases short : rest.length < op.blockLen poseBytes
  · exact decodeBlock_of_short short
  · have layout_le : op.layout.sum ≤ op.blockLen poseBytes := Nat.le_add_right _ _
    simp only [decodeBlock]
    rw [if_neg short, if_pos (by rw [List.length_drop]; omega)]

/-- Fields that fit, with a tail as long as they ask for, are read back and built into their command. -/
theorem decodeBlock_packFields {poseBytes : Nat} {op : Opcode} {fields : List Nat} {tail : Bytes} {i : Instr}
    (fit : FieldsFit op.layout fields) (len : tail.length = op.tailLen poseBytes fields)
    (built : op.build fields tail = some i) :
    decodeBlock poseBytes op (packFields op.layout fields ++ tail) = .ok i := by
  have pack_len : (packFields op.layout fields).length = op.layout.sum := packFields_length fit.length_eq
  have drop_tail : (packFields op.layout fields ++ tail).drop op.layout.sum = tail := List.drop_left' pack_len
  have block : op.blockLen poseBytes ≤ op.layout.sum + tail.length := by
    rw [len, ← splitFields_packFields_of_fit fit tail, layout_sum_add_tailLen]
    exact Nat.le_add_right _ _
  simp only [decodeBlock]
  rw [if_neg (by rw [List.length_append, pack_len]; omega), splitFields_packFields_of_fit fit, drop_tail,
    if_neg (not_not.mpr len), built]

/-! ### Commands and their fields -/

theorem fieldsFit_of_wellFormed {poseBytes : Nat} {i : Instr} (h : i.wellFormed poseBytes = true) :
    FieldsFit i.opcode.layout i.fieldValues := by
  cases i with
  | hiEnc mt rs ss aux d =>
    exact .cons mt.isLt (.cons rs.isLt (.cons ss.isLt (.cons aux.isLt (.cons (of_decide_eq_true h) .nil))))
  | hiDec d | echoUnpack d => exact .cons (of_decide_eq_true h) .nil
  | echoPack o r x f => exact .cons o.isLt (.cons r.isLt (.cons x.isLt (.cons f.isLt .nil)))
  | csSend now => exact .cons now.isLt .nil
  | csReply now id o r x => exact .cons now.isLt (.cons id.isLt (.cons o.isLt (.cons r.isLt (.cons x.isLt .nil))))
  | csExt t l ns => exact .cons t.isLt (.cons l.isLt (.cons ns.isLt .nil))
  | srBegin c n => exact .cons c.isLt (.cons n.isLt .nil)
  | srFeed c d => exact .cons c.isLt (.cons (of_decide_eq_true h) .nil)
  | fsPush st fr mp d => exact .cons st.isLt (.cons fr.isLt (.cons mp.isLt (.cons (of_decide_eq_true h) .nil)))
  | fsFinal fr dt pose => exact .cons fr.isLt (.cons dt.isLt .nil)
  | reset => exact .nil

theorem tail_length_of_wellFormed {poseBytes : Nat} {i : Instr} (h : i.wellFormed poseBytes = true) :
    i.tail.length = i.opcode.tailLen poseBytes i.fieldValues := by
  cases i with
  | fsFinal fr dt pose => exact of_decide_eq_true h
  | _ => rfl

theorem build_fieldValues (i : Instr) : i.opcode.build i.fieldValues i.tail = some i := by
  cases i <;> simp [Instr.opcode, Instr.fieldValues, Instr.tail, Opcode.build]

/-- Fields that fit, with a tail as long as they ask for, are those of the command they build, which is well formed. -/
theorem fields_of_build {poseBytes : Nat} {op : Opcode} {fields : List Nat} {tail : Bytes} {i : Instr}
    (fit : FieldsFit op.layout fields) (len : tail.length = op.tailLen poseBytes fields)
    (built : op.build fields tail = some i) :
    i.fieldValues = fields ∧ i.tail = tail ∧ i.wellFormed poseBytes = true := by
  rw [Opcode.build.eq_def] at built
  split at built
  case h_13 => cases built
  all_goals
    cases built
    simp_all [Opcode.layout, Opcode.tailLen, Opcode.hasDlen, Instr.fieldValues, Instr.tail, Instr.wellFormed, dataFits]

/-! ### The obligations -/

/-- Settles O1: the fields of a well-formed command fit, and build it. -/
theorem decodeInvertsEncode : Obligations.DecodeInvertsEncode := by
  intro poseBytes i wf
  rw [encode, decode_cons]
  exact decodeBlock_packFields (fieldsFit_of_wellFormed wf) (tail_length_of_wellFormed wf) (build_fieldValues i)

/-- Settles O2: the fields that were split are those of the command, and packing them gives the block back. -/
theorem encodeInvertsDecode : Obligations.EncodeInvertsDecode := by
  intro poseBytes b i h
  cases b with
  | nil => cases h
  | cons b rest =>
    obtain rfl : b = i.opcode.byte := Option.some.inj (decode_head h)
    rw [decode_cons] at h
    obtain ⟨block, len, built⟩ := decodeBlock_eq_ok h
    obtain ⟨values, tail, wf⟩ := fields_of_build fieldsFit_splitFields len built
    have layout_le : i.opcode.layout.sum ≤ rest.length := Nat.le_trans (Nat.le_add_right _ _) block
    refine ⟨?_, wf⟩
    rw [encode, values, tail, packFields_splitFields _ _ layout_le, List.take_append_drop]

theorem decode_of_encode {poseBytes : Nat} {b : Bytes} {i : Instr} (wf : i.wellFormed poseBytes = true)
    (packet : encode i = b) : decode poseBytes b = .ok i :=
  packet ▸ decodeInvertsEncode poseBytes i wf

/-- Settles O3: each is the packet of its command. -/
theorem packetsOfTheSpecDecode : Obligations.PacketsOfTheSpecDecode :=
  ⟨decode_of_encode rfl rfl, decode_of_encode rfl rfl, decode_of_encode rfl rfl, decode_of_encode rfl rfl,
    decode_of_encode rfl rfl, decode_of_encode rfl rfl⟩

end Sys2Proof

namespace Sys2Proof.Machine

open Sys2Proof.Safety

theorem sameState_respond (s : State) (st : Status) (r : Bytes) : SameState s (s.respond st r) := ⟨rfl, rfl, rfl, rfl, rfl⟩

/-- Settles O4: a block that is too short, and one whose length does not fit, are both malformed. -/
theorem malformedPacketIsRefused : Obligations.MalformedPacketIsRefused := by
  rintro s s1 _ rest op taken rfl misfit
  have malformed : decode s1.params.poseBytes (op.byte :: rest) = .malformed op := by
    rw [decode_cons, nextEvent_keeps_params taken]
    obtain short | misfit := misfit
    · exact decodeBlock_of_short short
    · exact decodeBlock_of_misfit (layout_sum_add_tailLen _ op rest ▸ misfit)
  have runs : step s = .next (s1.raise .argError op) := by rw [step_of_command taken, runPacket, malformed]
  exact ⟨_, runs, sameState_respond .., rfl⟩

end Sys2Proof.Machine

/-! PROOF. How a command ends (spec/60_exceptions.md R271 to R282), and what an error leaves of the state (R108, R282). -/

namespace Sys2Proof.Machine

open Sys2Proof.Safety

/-! ### The four ends of a command -/

/-- The segment after OverrunError: an EMPTY one stays, any other is discarded (R187, R190). -/
def Segment.discarded (g : Segment) : Segment := if g.state = .empty then g else g.emptied

theorem discarded_of_empty {g : Segment} (h : g.state = .empty) : g.discarded = g := if_pos h

theorem discarded_of_begun {g : Segment} (h : g.state ≠ .empty) : g.discarded = g.emptied := if_neg h

theorem discarded_keeps (g : Segment) :
    g.discarded.state = .empty ∧ g.discarded.capacity = g.capacity ∧ g.discarded.buf = g.buf := by
  by_cases idle : g.state = .empty
  · rw [discarded_of_empty idle]
    exact ⟨idle, rfl, rfl⟩
  · rw [discarded_of_begun idle]
    exact ⟨rfl, rfl, rfl⟩

/-- How a command can end: it completes, it opens a callout (R188), it is refused with the state as it was, or it overruns
(R282). -/
inductive Ending (i : Instr) (s : State) : State → Prop where
  | completes (u : State) {st : Status} (r : Bytes) (good : st = .ok ∨ st = .fecUnavailable) : Ending i s (u.respond st r)
  | opens {t : State} (opened : OpensCallout s t) : Ending i s t
  | refuses {st : Status} (not_overrun : st ≠ .overrunError) : Ending i s (s.raise st i.opcode)
  | overruns {b : Byte} {c : Channel} (channel : channelOf i = some b) (names : Channel.ofByte? b = some c) :
    Ending i s ((s.setSeg c (s.seg c).discarded).raise .overrunError i.opcode)

theorem exec_hc_ending {i : Instr} {s t : State} (unit : agentOf i.opcode = .hc) (h : exec i s = .next t) : Ending i s t := by
  cases i <;> try (cases unit; done)
  case hiEnc mt rs ss aux d => cases h; exact .completes _ _ (.inl rfl)
  case echoPack o r x f => cases h; exact .completes _ _ (.inl rfl)
  case hiDec d =>
    simp only [exec, execHiDec] at h
    split at h
    case isTrue short => cases h; exact .refuses (i := .hiDec d) (by decide)
    case isFalse => cases h; exact .completes _ _ (.inl rfl)
  case echoUnpack d =>
    simp only [exec, execEchoUnpack] at h
    split at h
    case isTrue short => cases h; exact .refuses (i := .echoUnpack d) (by decide)
    case isFalse => cases h; exact .completes _ _ (.inl rfl)

theorem exec_cs_ending {i : Instr} {s t : State} (unit : agentOf i.opcode = .cs) (h : exec i s = .next t) : Ending i s t := by
  cases i <;> try (cases unit; done)
  case csSend now => cases h; exact .completes _ _ (.inl rfl)
  case csExt t l ns => cases h; exact .completes _ _ (.inl rfl)
  case csReply now id o r x =>
    simp only [exec, execCsReply] at h
    split at h
    case isTrue accepted => cases h; exact .completes _ _ (.inl rfl)
    case isFalse stale => cases h; exact .refuses (i := .csReply now id o r x) (by decide)

/-- The append of SR_FEED answers OK, or opens the callout (R186, R188). -/
theorem feed_ending {i : Instr} {s t : State} {c : Channel} {d : Bytes} (h : s.feed c d = .ok t) : Ending i s t := by
  rw [State.feed] at h
  split at h
  case h_1 => cases h
  case h_2 s1 wrote =>
    obtain ⟨-, rfl⟩ := segWrite_eq_ok wrote
    simp only [State.feedDone] at h
    split at h
    case isTrue full =>
      split at h
      case h_1 => cases h
      case h_2 view read =>
        cases h
        exact .opens ⟨c, _, view, by simp, by simp; rfl⟩
    case isFalse partly =>
      cases h
      exact .completes _ _ (.inl rfl)

theorem exec_sr_ending {i : Instr} {s t : State} (unit : agentOf i.opcode = .sr) (h : exec i s = .next t) : Ending i s t := by
  cases i <;> try (cases unit; done)
  case srBegin b n =>
    simp only [exec, execSrBegin] at h
    split at h
    case h_1 => cases h; exact .refuses (i := .srBegin b n) (by decide)
    case h_2 c names =>
      split at h
      case isTrue above => cases h; exact .refuses (i := .srBegin b n) (by decide)
      case isFalse fits => cases h; exact .completes _ _ (.inl rfl)
  case srFeed b d =>
    simp only [exec, execSrFeed] at h
    split at h
    case h_1 => cases h; exact .refuses (i := .srFeed b d) (by decide)
    case h_2 c names =>
      have overruns := Ending.overruns (i := .srFeed b d) (s := s) rfl names
      split at h
      case isTrue idle =>
        rw [discarded_of_empty idle, setSeg_self] at overruns
        split at h
        case isTrue empty => cases h; exact .completes _ _ (.inl rfl)
        case isFalse nonempty => cases h; exact overruns
      case isFalse begun =>
        rw [discarded_of_begun begun] at overruns
        split at h
        case isTrue above => cases h; exact overruns
        case isFalse fits => exact feed_ending (ofExcept_eq_next.mp h)

/-- `fec_finalize` decides OK or FecUnavailable (R240, R250). -/
theorem fecResult_status (coder : CoderChoice) (streamIdx : Byte) (frameIdx : U64) (k len : Nat) (payloads : List Bytes) :
    (fecResult coder streamIdx frameIdx k len payloads).status = .ok ∨
      (fecResult coder streamIdx frameIdx k len payloads).status = .fecUnavailable := by
  simp only [fecResult]
  split
  case h_1 => exact .inr rfl
  case h_2 => exact .inl rfl

theorem exec_fs_ending {i : Instr} {s t : State} (unit : agentOf i.opcode = .fs) (h : exec i s = .next t) : Ending i s t := by
  cases i <;> try (cases unit; done)
  case fsPush st fr mp d =>
    simp only [exec, execFsPush] at h
    split at h
    case isTrue accepted =>
      obtain ⟨s1, -, rfl⟩ := push_eq_ok (ofExcept_eq_next.mp h)
      exact .completes _ _ (.inl rfl)
    case isFalse refused => cases h; exact .refuses (i := .fsPush st fr mp d) (by decide)
  case fsFinal fr dt pose =>
    simp only [exec, execFsFinal] at h
    split at h
    case isTrue accepted =>
      obtain ⟨s1, s2, -, -, finish⟩ := final_eq_ok (ofExcept_eq_next.mp h)
      obtain ⟨payloads, -, rfl⟩ := finishFrame_eq_ok finish
      exact .completes _ _ (fecResult_status ..)
    case isFalse refused => cases h; exact .refuses (i := .fsFinal fr dt pose) (by decide)

theorem exec_ending {i : Instr} {s t : State} (h : exec i s = .next t) : Ending i s t := by
  cases unit : agentOf i.opcode with
  | hc => exact exec_hc_ending unit h
  | cs => exact exec_cs_ending unit h
  | sr => exact exec_sr_ending unit h
  | fs => exact exec_fs_ending unit h
  | block =>
    obtain rfl := eq_reset_of_agentOf_block unit
    cases h
    exact .completes _ _ (.inl rfl)

/-! ### Errors -/

/-- The last output of a state that has just responded is its response. -/
theorem respond_output_eq {u : State} {st : Status} {r r' : Bytes} {os : List PortOut} {status : Byte}
    (h : (u.respond st r).output = os ++ [.resp (status :: r')]) : u.output = os ∧ st.byte = status ∧ r = r' := by
  simpa using List.append_inj' h rfl

theorem eq_overrunError_of_byte {st : Status} (h : st.byte = 0x03) : st = .overrunError := by
  cases st with
  | overrunError => rfl
  | _ => cases h

/-- Settles O19, by how a command can end. -/
theorem errorsLeaveTheState : Obligations.ErrorsLeaveTheState := by
  intro i s t pre status r h output not_ok not_unavailable
  cases exec_ending h with
  | completes u r' good =>
    obtain ⟨-, rfl, -⟩ := respond_output_eq output
    obtain rfl | rfl := good
    · exact absurd rfl not_ok
    · exact absurd rfl not_unavailable
  | opens opened =>
    obtain ⟨c, n, v, -, sent⟩ := opened
    cases (List.append_inj' (sent.symm.trans output) rfl).2
  | refuses not_overrun =>
    obtain ⟨unsent, rfl, rfl⟩ := respond_output_eq output
    refine ⟨List.self_eq_append_right.mp unsent, rfl, fun _ => sameState_respond .., fun overrun => ?_⟩
    exact absurd (eq_overrunError_of_byte overrun) not_overrun
  | @overruns b c channel names =>
    obtain ⟨unsent, rfl, rfl⟩ := respond_output_eq output
    rw [setSeg_output] at unsent
    refine ⟨List.self_eq_append_right.mp unsent, rfl, fun other => absurd rfl other, fun _ => ?_⟩
    obtain ⟨state, capacity, buf⟩ := discarded_keeps (s.seg c)
    refine ⟨b, c, channel, names, sameOutside_respond (sameOutside_setSeg s c _) _ _, setSeg_callout .., ?_⟩
    rw [raise_seg, setSeg_seg_self]
    refine ⟨state, capacity, buf, ?_⟩
    split
    case isTrue idle => exact discarded_of_empty idle
    case isFalse begun =>
      rw [discarded_of_begun begun]
      exact ⟨rfl, rfl⟩

end Sys2Proof.Machine

/-! PROOF. The records of the HeaderCodec as numbers and bytes (spec/30_encoding.md R110 to R113), what its commands answer
(spec/40_header_codec.md), and the issuer's sequences over them (R114, R121). -/

namespace Sys2Proof.Machine

open Sys2Proof.Safety

@[simp] theorem le32_length (v : U32) : (le32 v).length = 4 := le_length ..

@[simp] theorem le64_length (v : U64) : (le64 v).length = 8 := le_length ..

/-! ### The header -/

/-- The fields stand side by side in the word (R110, R111). -/
theorem hostInfo_word_toNat (h : HostInfo) :
    h.word.toNat = h.messageType.toNat + h.result.toNat * 2 ^ 4 + h.streamSizeWords.toNat * 2 ^ 14 := by
  have mt := h.messageType.isLt
  have rs := h.result.isLt
  have sw := h.streamSizeWords.isLt
  have low : h.messageType.toNat ||| h.result.toNat <<< 4 = h.messageType.toNat + h.result.toNat * 2 ^ 4 := by
    rw [Nat.or_comm, ← Nat.shiftLeft_add_eq_or_of_lt mt, Nat.shiftLeft_eq, Nat.add_comm]
  have all : (h.messageType.toNat + h.result.toNat * 2 ^ 4) ||| h.streamSizeWords.toNat <<< 14 =
      h.messageType.toNat + h.result.toNat * 2 ^ 4 + h.streamSizeWords.toNat * 2 ^ 14 := by
    rw [Nat.or_comm, ← Nat.shiftLeft_add_eq_or_of_lt (by omega), Nat.shiftLeft_eq, Nat.add_comm]
  have shifted : h.streamSizeWords.toNat <<< 14 < 2 ^ 32 := by rw [Nat.shiftLeft_eq]; omega
  have shifted' : h.result.toNat <<< 4 < 2 ^ 32 := by rw [Nat.shiftLeft_eq]; omega
  rw [HostInfo.word, BitVec.toNat_or, BitVec.toNat_or, BitVec.toNat_shiftLeft, BitVec.toNat_shiftLeft,
    BitVec.toNat_setWidth_of_le (by decide), BitVec.toNat_setWidth_of_le (by decide),
    BitVec.toNat_setWidth_of_le (by decide), Nat.mod_eq_of_lt shifted, Nat.mod_eq_of_lt shifted', low, all]

theorem hostInfo_streamSize_toNat (h : HostInfo) : h.streamSize.toNat = h.streamSizeWords.toNat * 4 := by
  have sw := h.streamSizeWords.isLt
  rw [HostInfo.streamSize, BitVec.toNat_shiftLeft, BitVec.toNat_setWidth_of_le (by decide), Nat.shiftLeft_eq]
  omega

/-- The word that HI_ENC makes of its operands (R111). -/
theorem ofOperands_word_toNat (mt : Byte) (rs : U16) (ss aux : U32) :
    (HostInfo.ofOperands mt rs ss aux).word.toNat =
      mt.toNat % 2 ^ 4 + rs.toNat % 2 ^ 10 * 2 ^ 4 + ss.toNat / 4 % 2 ^ 18 * 2 ^ 14 := by
  simp [hostInfo_word_toNat, HostInfo.ofOperands, Nat.shiftRight_eq_div_pow]

theorem fromLe_take_lt (n : Nat) (b : Bytes) : fromLe (b.take n) < 256 ^ n :=
  Nat.lt_of_lt_of_le (fromLe_lt _) (Nat.pow_le_pow_right (by decide) (List.length_take_le n b))

/-- Reading a field and writing it gives its bytes. -/
theorem le_fromLe_field {o n : Nat} {b : Bytes} (inside : o + n ≤ b.length) :
    le n (fromLe ((b.drop o).take n)) = (b.drop o).take n := by
  have len : ((b.drop o).take n).length = n := by rw [List.length_take, List.length_drop]; omega
  simpa [len] using le_fromLe ((b.drop o).take n)

/-- The fields of the header that bytes hold (R110). -/
theorem ofBytes_fields (b : Bytes) :
    (HostInfo.ofBytes b).messageType.toNat = fromLe (b.take 4) % 2 ^ 4 ∧
      (HostInfo.ofBytes b).result.toNat = fromLe (b.take 4) / 2 ^ 4 % 2 ^ 10 ∧
      (HostInfo.ofBytes b).streamSizeWords.toNat = fromLe (b.take 4) / 2 ^ 14 ∧
      (HostInfo.ofBytes b).aux.toNat = fromLe ((b.drop 4).take 4) := by
  have word := fromLe_take_lt 4 b
  have aux := fromLe_take_lt 4 (b.drop 4)
  simp only [HostInfo.ofBytes, BitVec.extractLsb'_toNat, BitVec.toNat_ofNat, Nat.shiftRight_eq_div_pow]
  omega

/-! ### The echo payload -/

theorem le64_i64At {o : Nat} {b : Bytes} (inside : o + 8 ≤ b.length) : le64 (i64At o b) = (b.drop o).take 8 := by
  have value := fromLe_take_lt 8 (b.drop o)
  rw [le64, i64At, BitVec.toNat_ofNat, Nat.mod_eq_of_lt (by omega), le_fromLe_field inside]

/-- The integer at the offset where its eight bytes stand (R113). -/
theorem i64At_append {o : Nat} {pre : Bytes} (len : pre.length = o) (v : I64) (rest : Bytes) :
    i64At o (pre ++ (le64 v ++ rest)) = v := by
  rw [i64At, List.drop_left' len, le64, take_le_append, fromLe_le_of_lt v.isLt, BitVec.ofNat_toNat, BitVec.setWidth_eq]

/-- The four integers of 32 bytes are those bytes (R113, R137). -/
theorem echoPayload_of_bytes {b : Bytes} (long : 32 ≤ b.length) :
    echoPayload (i64At 0 b) (i64At 8 b) (i64At 16 b) (i64At 24 b) = b.take 32 := by
  rw [echoPayload, le64_i64At (by omega), le64_i64At (by omega), le64_i64At (by omega), le64_i64At (by omega),
    List.drop_zero, ← List.take_add, ← List.take_add, ← List.take_add]

/-! ### What the commands of the HeaderCodec answer -/

/-- HI_ENC (R131); `dlen` is free where it does not fit (log 10). -/
theorem exec_hiEnc_eq (mt : Byte) (rs : U16) (ss aux : U32) (d : Bytes) (s : State) :
    exec (.hiEnc mt rs ss aux d) s = .next (s.respond .ok (le 4 (hiEncDlen d).toNat ++
      (le 4 (mt.toNat % 2 ^ 4 + rs.toNat % 2 ^ 10 * 2 ^ 4 + ss.toNat / 4 % 2 ^ 18 * 2 ^ 14) ++ le 4 aux.toNat ++ d))) := by
  rw [← ofOperands_word_toNat mt rs ss aux]
  rfl

theorem hiEncDlen_toNat {d : Bytes} (fits : 8 + d.length < 2 ^ 32) : (hiEncDlen d).toNat = 8 + d.length := by
  rw [hiEncDlen, if_pos fits, BitVec.toNat_ofNat, Nat.mod_eq_of_lt fits]

/-- The result block of HI_DEC: message type, result, stream size and `dlen` of the bytes after the header; the four bytes of
`aux` are copied (R97, R110, R133). -/
theorem hiDecResults_eq {d : Bytes} (long : 8 ≤ d.length) :
    hiDecResults d = le 1 (fromLe (d.take 4) % 2 ^ 4) ++ le 2 (fromLe (d.take 4) / 2 ^ 4 % 2 ^ 10) ++
      le 4 (fromLe (d.take 4) / 2 ^ 14 * 4) ++ (d.drop 4).take 4 ++ le 4 (d.length - 8) ++ d.drop 8 := by
  obtain ⟨mt, rs, sw, aux⟩ := ofBytes_fields d
  have mt_byte : [(HostInfo.ofBytes d).messageType.setWidth 8] = le 1 (fromLe (d.take 4) % 2 ^ 4) := by
    rw [← mt, ← BitVec.ofNat_toNat]
    rfl
  simp only [hiDecResults, mt_byte, le16, le32, hostInfo_streamSize_toNat, sw, aux,
    le_fromLe_field (show 4 + 4 ≤ d.length from long)]
  rw [BitVec.toNat_setWidth_of_le (by decide), rs]

theorem exec_hiDec_of_long {d : Bytes} (long : 8 ≤ d.length) (s : State) :
    exec (.hiDec d) s = .next (s.respond .ok (hiDecResults d)) := by
  simp only [exec, execHiDec]
  rw [if_neg (Nat.not_lt.mpr long)]

theorem exec_echoUnpack_of_long {d : Bytes} (long : 32 ≤ d.length) (s : State) :
    exec (.echoUnpack d) s = .next (s.respond .ok (d.take 32)) := by
  simp only [exec, execEchoUnpack]
  rw [if_neg (Nat.not_lt.mpr long), ← echoPayload_of_bytes long, echoPayload]

/-- Settles O20. -/
theorem hiEncPacksHeader : Obligations.HiEncPacksHeader := fun s mt rs ss aux d =>
  ⟨_, _, exec_hiEnc_eq mt rs ss aux d s, sameState_respond .., hiEncDlen_toNat, rfl⟩

/-- Settles O21. -/
theorem hiDecUnpacksHeader : Obligations.HiDecUnpacksHeader := fun s _ long =>
  ⟨_, exec_hiDec_of_long long s, sameState_respond .., by rw [hiDecResults_eq long]; rfl⟩

/-- Settles O24: packing is the layout, and unpacking reads the four integers of the first 32 bytes. -/
theorem echoPayloadLayout : Obligations.EchoPayloadLayout :=
  ⟨fun _ _ _ _ _ => ⟨_, rfl, sameState_respond .., rfl⟩,
    fun s _ long => ⟨_, exec_echoUnpack_of_long long s, sameState_respond .., rfl⟩⟩

/-! ### The issuer's sequences (R114, R121) -/

theorem newestResponse_concat (os : List PortOut) {p : Bytes} (nonempty : p ≠ []) :
    newestResponse (os ++ [.resp p]) = p := by
  induction os with
  | nil => simp [newestResponse]
  | cons o os ih =>
    cases o with
    | resp q => rw [List.cons_append, newestResponse, ih, if_neg nonempty]
    | tx => exact ih
    | pktOut => exact ih

/-- After a command that answers OK its sequence goes on with the result bytes. -/
theorem thenWith_of_ok {i : Instr} {rest : Bytes → State → Host.Outcome State Fault Refusal} {s u : State} {r : Bytes}
    (h : exec i s = .next (u.respond .ok r)) : thenWith i rest s = rest r (u.respond .ok r) := by
  have newest : newestResponse (u.respond .ok r).output = Status.ok.byte :: r :=
    newestResponse_concat u.output (List.cons_ne_nil _ _)
  rw [thenWith, h]
  simp only [newest]
  rfl

theorem ofNat_fromLe_le32 (v : U32) : BitVec.ofNat 32 (fromLe (le32 v)) = v := by
  rw [le32, fromLe_le_of_lt (n := 4) v.isLt, BitVec.ofNat_toNat, BitVec.setWidth_eq]

/-- The new id of CS_SEND, W bits of the id before and one (R152). -/
theorem sent_echoId_toNat {w : Nat} (narrow : w ≤ 32) (now : I64) (x : ClockSync) :
    (x.sent w now).echoId.toNat = (x.echoId.toNat + 1) % 2 ^ w := by
  have wraps : (2 : Nat) ^ w ∣ 2 ^ 32 := Nat.pow_dvd_pow 2 narrow
  have fits : (x.echoId.toNat + 1) % 2 ^ w < 2 ^ 32 :=
    Nat.lt_of_lt_of_le (Nat.mod_lt _ (Nat.two_pow_pos w)) (Nat.pow_le_pow_right (by decide) narrow)
  have next : (x.echoId + 1).toNat = (x.echoId.toNat + 1) % 2 ^ 32 := BitVec.toNat_add ..
  rw [ClockSync.sent, truncId, BitVec.toNat_ofNat, next, Nat.mod_mod_of_dvd _ wraps, Nat.mod_eq_of_lt fits]

/-- The three commands of ECHO_BUILD, each given the results of the one before (R114, R121). -/
theorem echoBuild_eq (now : I64) (s : State) :
    echoBuild now s = exec (.hiEnc (s.params.mtEcho.setWidth 8) 0 32 (s.cs.sent s.params.echoIdBits now).echoId
        (echoPayload now 0 0 0))
      (((s.setCs (s.cs.sent s.params.echoIdBits now)).respond .ok
        (le32 (s.cs.sent s.params.echoIdBits now).echoId ++ le64 now)).respond .ok (echoPayload now 0 0 0)) := by
  have new_id (v : U32) : BitVec.ofNat 32 (resultField 0 4 (le32 v ++ le64 now)) = v := by
    rw [resultField, List.drop_zero, le32, take_le_append]
    exact ofNat_fromLe_le32 v
  have time (v : U32) : i64At 4 (le32 v ++ le64 now) = now := by
    simpa using i64At_append (pre := le32 v) (by simp) now []
  rw [echoBuild, thenWith_of_ok rfl, time, thenWith_of_ok rfl, new_id]
  rfl

/-- The echo message: the header of HI_ENC over 40 bytes in all (R114). -/
theorem echoMessage_bytes (mtEcho : BitVec 4) (id : U32) (now : I64) :
    le 4 (hiEncDlen (echoPayload now 0 0 0)).toNat ++
      (le 4 ((mtEcho.setWidth 8).toNat % 2 ^ 4 + (0 : U16).toNat % 2 ^ 10 * 2 ^ 4 + (32 : U32).toNat / 4 % 2 ^ 18 * 2 ^ 14) ++
        le 4 id.toNat ++ echoPayload now 0 0 0) =
    le 4 40 ++ (le 4 (mtEcho.toNat + 8 * 2 ^ 14) ++ le 4 id.toNat ++ le 8 now.toNat ++ List.replicate 24 0) := by
  have dlen : (hiEncDlen (echoPayload now 0 0 0)).toNat = 40 := hiEncDlen_toNat (by simp [echoPayload])
  have field : (mtEcho.setWidth 8).toNat % 2 ^ 4 = mtEcho.toNat := by
    rw [BitVec.toNat_setWidth_of_le (by decide), Nat.mod_eq_of_lt mtEcho.isLt]
  have payload : echoPayload now 0 0 0 = le 8 now.toNat ++ List.replicate 24 0 := by
    simp only [echoPayload, List.append_assoc]
    rfl
  rw [dlen, field, payload]
  simp

theorem three_responses_output (s : State) (r r' r'' : Bytes) :
    (((s.respond .ok r).respond .ok r').respond .ok r'').output =
      s.output ++ [.resp (0x00 :: r), .resp (0x00 :: r'), .resp (0x00 :: r'')] := by
  simp [Status.byte]

/-- Settles O56: the id that HI_ENC is given is the one that CS_SEND has made. -/
theorem echoBuildMakesTheRequest : Obligations.EchoBuildMakesTheRequest := by
  rintro s now _ narrow rfl
  have runs := (echoBuild_eq now s).trans (exec_hiEnc_eq ..)
  rw [echoMessage_bytes, sent_echoId_toNat narrow] at runs
  exact ⟨_, _, _, runs, sent_echoId_toNat narrow .., rfl, rfl, rfl, three_responses_output (s.setCs _) _ _ _⟩

/-- HI_DEC copies `aux` to offset 7 of its results (R97). -/
theorem aux_of_hiDecResults {d : Bytes} (long : 8 ≤ d.length) :
    resultField 7 4 (hiDecResults d) = fromLe ((d.drop 4).take 4) := by
  have len : ((d.drop 4).take 4).length = 4 := by rw [List.length_take, List.length_drop]; omega
  rw [resultField, hiDecResults_eq long, List.append_assoc, List.append_assoc, List.drop_left' (by simp),
    List.take_left' len]

/-- HI_DEC copies the payload behind its result block (R97). -/
theorem payload_of_hiDecResults {d : Bytes} (long : 8 ≤ d.length) : (hiDecResults d).drop 15 = d.drop 8 := by
  have len : ((d.drop 4).take 4).length = 4 := by rw [List.length_take, List.length_drop]; omega
  rw [hiDecResults_eq long, List.drop_left' (by simp only [List.length_append, le_length, len])]

theorem i64At_window {o n a : Nat} (inside : o + 8 ≤ n) (b : Bytes) : i64At o ((b.drop a).take n) = i64At (a + o) b := by
  have whole : min 8 (n - o) = 8 := by omega
  rw [i64At, i64At, List.drop_take, List.take_take, List.drop_drop, whole]

/-- The three commands of ECHO_TAKE: CS_REPLY is given the header's `aux` and the first three integers of the payload
(R114, R121). -/
theorem echoTake_eq (now : I64) {m : Bytes} (long : 40 ≤ m.length) (s : State) :
    echoTake now m s =
      exec (.csReply now (BitVec.ofNat 32 (fromLe ((m.drop 4).take 4))) (i64At 8 m) (i64At 16 m) (i64At 24 m))
        ((s.respond .ok (hiDecResults m)).respond .ok ((m.drop 8).take 32)) := by
  have header : 8 ≤ m.length := by omega
  have payload : 32 ≤ (m.drop 8).length := by rw [List.length_drop]; omega
  rw [echoTake, thenWith_of_ok (exec_hiDec_of_long header s), aux_of_hiDecResults header, payload_of_hiDecResults header,
    thenWith_of_ok (exec_echoUnpack_of_long payload _), i64At_window (by decide), i64At_window (by decide),
    i64At_window (by decide)]

theorem exec_csReply_goes_on (now : I64) (id : U32) (org recv xmt : I64) (s : State) :
    ∃ t, exec (.csReply now id org recv xmt) s = .next t := by
  simp only [exec, execCsReply]
  split
  · exact ⟨_, rfl⟩
  · exact ⟨_, rfl⟩

/-- A command of ClockSync does the same after two other responses as before them: it reads its own registers alone. -/
theorem exec_cs_after_responses {i : Instr} {s u : State} (unit : agentOf i.opcode = .cs) (h : exec i s = .next u)
    (r r' : Bytes) :
    ∃ t, exec i ((s.respond .ok r).respond .ok r') = .next t ∧ SameState u t ∧
      ∃ o, t.output = s.output ++ [.resp (Status.ok.byte :: r), .resp (Status.ok.byte :: r'), o] ∧
        u.output = s.output ++ [o] := by
  obtain ⟨t, st, x, runs, hu, ht⟩ := exec_cs (s := s) (s' := (s.respond .ok r).respond .ok r') unit rfl rfl h
  generalize u.cs = y at hu ht
  subst hu ht
  exact ⟨_, runs, ⟨rfl, rfl, rfl, rfl, rfl⟩, .resp (st.byte :: x), by simp, rfl⟩

/-- Settles O57: HI_DEC and ECHO_UNPACK hand the fields of the message to CS_REPLY, and leave the state as it was. -/
theorem echoTakeActsAsReply : Obligations.EchoTakeActsAsReply := by
  intro s now w id org recv xmt offset more
  generalize message : le 4 w ++ le32 id ++ le64 org ++ le64 recv ++ le64 xmt ++ le64 offset ++ more = m
  simp only [List.append_assoc] at message
  have long : 40 ≤ m.length := by
    simp only [← message, List.length_append, le_length, le32_length, le64_length]
    omega
  have aux_at : (m.drop 4).take 4 = le32 id := by rw [← message, drop_le_append, le32, take_le_append]
  have org_at := i64At_append (o := 8) (pre := le 4 w ++ le32 id) (by simp) org
    (le64 recv ++ (le64 xmt ++ (le64 offset ++ more)))
  have recv_at := i64At_append (o := 16) (pre := le 4 w ++ le32 id ++ le64 org) (by simp) recv
    (le64 xmt ++ (le64 offset ++ more))
  have xmt_at := i64At_append (o := 24) (pre := le 4 w ++ le32 id ++ le64 org ++ le64 recv) (by simp) xmt
    (le64 offset ++ more)
  simp only [List.append_assoc, message] at org_at recv_at xmt_at
  obtain ⟨u, replies⟩ := exec_csReply_goes_on now id org recv xmt s
  obtain ⟨t, replies', same, o, sent, sent'⟩ := exec_cs_after_responses rfl replies _ _
  refine ⟨t, u, ?_, replies, same, _, _, o, sent, sent'⟩
  rw [echoTake_eq now long, aux_at, ofNat_fromLe_le32, org_at, recv_at, xmt_at]
  exact replies'

end Sys2Proof.Machine

/-! PROOF. The HeaderCodec both ways (spec/40_header_codec.md R130, R134, R138): packing and unpacking undo each other, and no
command of the unit reads or writes the state. -/

namespace Sys2Proof.Machine

open Sys2Proof.Safety

/-! ### The header record -/

/-- A header is its four fields (R110). -/
@[ext] theorem HostInfo.ext {g h : HostInfo} (mt : g.messageType = h.messageType) (rs : g.result = h.result)
    (sw : g.streamSizeWords = h.streamSizeWords) (aux : g.aux = h.aux) : g = h := by
  cases g
  cases h
  rw [HostInfo.mk.injEq]
  exact ⟨mt, rs, sw, aux⟩

theorem hostInfo_bytes_length (h : HostInfo) : h.bytes.length = 8 := by simp [HostInfo.bytes]

/-- The header is given back by its bytes (R110, R111). -/
theorem ofBytes_bytes (h : HostInfo) (d : Bytes) : HostInfo.ofBytes (h.bytes ++ d) = h := by
  have mt := h.messageType.isLt
  have rs := h.result.isLt
  have word_at : fromLe ((h.bytes ++ d).take 4) = h.word.toNat := by
    rw [HostInfo.bytes, le32, List.append_assoc, take_le_append, fromLe_le_of_lt h.word.isLt]
  have aux_at : fromLe (((h.bytes ++ d).drop 4).take 4) = h.aux.toNat := by
    rw [HostInfo.bytes, le32, List.append_assoc, drop_le_append, le32, take_le_append, fromLe_le_of_lt h.aux.isLt]
  obtain ⟨mt', rs', sw', aux'⟩ := ofBytes_fields (h.bytes ++ d)
  rw [word_at, hostInfo_word_toNat] at mt' rs' sw'
  ext1
  · exact BitVec.eq_of_toNat_eq (by omega)
  · exact BitVec.eq_of_toNat_eq (by omega)
  · exact BitVec.eq_of_toNat_eq (by omega)
  · exact BitVec.eq_of_toNat_eq (aux'.trans aux_at)

/-- The bytes are given back by the header that they hold (R110, R111). -/
theorem bytes_ofBytes {b : Bytes} (long : 8 ≤ b.length) : (HostInfo.ofBytes b).bytes = b.take 8 := by
  obtain ⟨mt, rs, sw, aux⟩ := ofBytes_fields b
  have word : (HostInfo.ofBytes b).word.toNat = fromLe (b.take 4) := by
    rw [hostInfo_word_toNat, mt, rs, sw]
    omega
  have word_bytes : le 4 (fromLe (b.take 4)) = b.take 4 := le_fromLe_field (o := 0) (by omega)
  rw [HostInfo.bytes, le32, le32, word, aux, word_bytes, le_fromLe_field (by omega), ← List.take_add]

/-- HI_ENC's operands are given back by the header's fields: no field is truncated (R111). -/
theorem ofOperands_fields (h : HostInfo) :
    HostInfo.ofOperands (h.messageType.setWidth 8) (h.result.setWidth 16) h.streamSize h.aux = h := by
  have words : (h.streamSize >>> 2).setWidth 18 = h.streamSizeWords := by
    have sw := h.streamSizeWords.isLt
    apply BitVec.eq_of_toNat_eq
    rw [BitVec.toNat_setWidth, BitVec.toNat_ushiftRight, hostInfo_streamSize_toNat, Nat.shiftRight_eq_div_pow]
    omega
  ext1
  · simp [HostInfo.ofOperands]
  · simp [HostInfo.ofOperands]
  · exact words
  · rfl

/-- Operands that their fields can hold are kept, but for the low two bits of the stream size (R111, R134). -/
theorem fields_ofOperands {mt : Byte} {rs : U16} {ss : U32} (mt_fits : mt.toNat < 16) (rs_fits : rs.toNat < 1024)
    (ss_fits : ss.toNat < 2 ^ 20) (aux : U32) :
    (HostInfo.ofOperands mt rs ss aux).messageType.setWidth 8 = mt ∧
      (HostInfo.ofOperands mt rs ss aux).result.setWidth 16 = rs ∧
      (HostInfo.ofOperands mt rs ss aux).streamSize.toNat = ss.toNat - ss.toNat % 4 := by
  refine ⟨BitVec.eq_of_toNat_eq ?_, BitVec.eq_of_toNat_eq ?_, ?_⟩
  · simp only [HostInfo.ofOperands, BitVec.toNat_setWidth]
    omega
  · simp only [HostInfo.ofOperands, BitVec.toNat_setWidth]
    omega
  · simp only [hostInfo_streamSize_toNat, HostInfo.ofOperands, BitVec.toNat_setWidth, BitVec.toNat_ushiftRight,
      Nat.shiftRight_eq_div_pow]
    omega

/-! ### HI_ENC and HI_DEC -/

theorem hiEncPacket_length (mt : Byte) (rs : U16) (ss aux : U32) (d : Bytes) :
    (hiEncPacket mt rs ss aux d).length = 8 + d.length := by
  rw [hiEncPacket, List.length_append, hostInfo_bytes_length]

/-- HI_ENC counts its packet where that fits `dlen` (R131). -/
theorem exec_hiEnc_of_fits {d : Bytes} (fits : 8 + d.length < 2 ^ 32) (mt : Byte) (rs : U16) (ss aux : U32) (s : State) :
    exec (.hiEnc mt rs ss aux d) s = .next (s.respond .ok
      (le 4 (hiEncPacket mt rs ss aux d).length ++ hiEncPacket mt rs ss aux d)) := by
  rw [hiEncPacket_length, ← hiEncDlen_toNat fits]
  rfl

/-- The result block of HI_DEC, as the operands of an HI_ENC (R97). -/
theorem hiDecResults_as_operands (b : Bytes) :
    hiDecResults b =
      le 1 ((HostInfo.ofBytes b).messageType.setWidth 8).toNat ++ le 2 ((HostInfo.ofBytes b).result.setWidth 16).toNat ++
        le 4 (HostInfo.ofBytes b).streamSize.toNat ++ le 4 (HostInfo.ofBytes b).aux.toNat ++
        le 4 (b.drop 8).length ++ b.drop 8 := by
  have byte (v : Byte) : le 1 v.toNat = [v] := by simp [le]
  rw [byte, List.length_drop]
  rfl

/-- HI_DEC answers the operands that HI_ENC packed (R134). -/
theorem hiDecResults_hiEncPacket {mt : Byte} {rs : U16} {ss : U32} (mt_fits : mt.toNat < 16) (rs_fits : rs.toNat < 1024)
    (ss_fits : ss.toNat < 2 ^ 20) (aux : U32) (d : Bytes) :
    hiDecResults (hiEncPacket mt rs ss aux d) =
      le 1 mt.toNat ++ le 2 rs.toNat ++ le 4 (ss.toNat - ss.toNat % 4) ++ le 4 aux.toNat ++ le 4 d.length ++ d := by
  obtain ⟨mt_kept, rs_kept, ss_kept⟩ := fields_ofOperands mt_fits rs_fits ss_fits aux
  rw [hiDecResults_as_operands, hiEncPacket, ofBytes_bytes, mt_kept, rs_kept, ss_kept,
    List.drop_left' (hostInfo_bytes_length _)]
  rfl

/-- HI_ENC packs the fields that HI_DEC reads, and the payload, to the bytes they were read from (R134). -/
theorem hiEncPacket_ofBytes {b : Bytes} (long : 8 ≤ b.length) :
    hiEncPacket ((HostInfo.ofBytes b).messageType.setWidth 8) ((HostInfo.ofBytes b).result.setWidth 16)
      (HostInfo.ofBytes b).streamSize (HostInfo.ofBytes b).aux (b.drop 8) = b := by
  rw [hiEncPacket, ofOperands_fields, bytes_ofBytes long, List.take_append_drop]

/-- Settles O23: the header record and its bytes, and the record and HI_ENC's operands, give each other back. -/
theorem headerRoundTrips : Obligations.HeaderRoundTrips := by
  constructor
  · intro s u mt rs ss aux d mt_fits rs_fits ss_fits fits
    have long : 8 ≤ (hiEncPacket mt rs ss aux d).length := by
      rw [hiEncPacket_length]
      omega
    refine ⟨_, _, _, exec_hiEnc_of_fits fits mt rs ss aux s, rfl, exec_hiDec_of_long long u, ?_⟩
    rw [hiDecResults_hiEncPacket mt_fits rs_fits ss_fits]
    rfl
  · intro s u b long short
    have fits : 8 + (b.drop 8).length < 2 ^ 32 := by
      rw [List.length_drop]
      omega
    have decodes := exec_hiDec_of_long long s
    have encodes := exec_hiEnc_of_fits fits ((HostInfo.ofBytes b).messageType.setWidth 8)
      ((HostInfo.ofBytes b).result.setWidth 16) (HostInfo.ofBytes b).streamSize (HostInfo.ofBytes b).aux u
    rw [hiDecResults_as_operands] at decodes
    rw [hiEncPacket_ofBytes long] at encodes
    exact ⟨_, _, _, _, _, _, _, decodes, rfl, encodes, rfl⟩

/-! ### ECHO_PACK and ECHO_UNPACK -/

theorem echoPayload_length (o r x f : I64) : (echoPayload o r x f).length = 32 := by simp [echoPayload]

/-- Settles O25: ECHO_UNPACK answers its first 32 bytes, which are the payload of the integers they hold. -/
theorem echoPayloadRoundTrips : Obligations.EchoPayloadRoundTrips := by
  constructor
  · intro s u o r x f
    have unpacks := exec_echoUnpack_of_long (echoPayload_length o r x f).ge u
    rw [List.take_of_length_le (echoPayload_length o r x f).le] at unpacks
    exact ⟨_, _, _, rfl, rfl, unpacks, rfl⟩
  · intro s u b len
    have whole : echoPayload (i64At 0 b) (i64At 8 b) (i64At 16 b) (i64At 24 b) = b := by
      rw [echoPayload_of_bytes len.ge, List.take_of_length_le len.le]
    have unpacks := exec_echoUnpack_of_long len.ge s
    rw [← echoPayload_of_bytes len.ge] at unpacks
    refine ⟨_, _, _, _, _, _, unpacks, rfl, rfl, ?_⟩
    rw [whole]
    rfl

/-! ### Purity -/

/-- Settles O26: every command of the unit is one response that does not depend on the state. -/
theorem headerCodecIsPure : Obligations.HeaderCodecIsPure := by
  intro i unit
  obtain ⟨st, r, answers⟩ := exec_hc unit
  exact ⟨st.byte :: r, fun s => ⟨_, answers s, sameState_respond s st r, respond_output s st r⟩⟩

end Sys2Proof.Machine

/-! PROOF. ClockSync (spec/41_clock_sync.md): what CS_SEND and an accepted CS_REPLY record, `echo_math` in integers (R156), and
the timestamp extension of CS_EXT (R161 to R163). -/

namespace Sys2Proof.Machine

/-! ### CS_SEND -/

/-- Settles O27: the id that is recorded is the id that is answered. -/
theorem csSendStartsExchange : Obligations.CsSendStartsExchange := by
  intro s now narrow
  have new_id := sent_echoId_toNat narrow now s.cs
  exact ⟨_, rfl, new_id, rfl, rfl, rfl, rfl, rfl, rfl, rfl, rfl, rfl, by rw [← new_id]; rfl⟩

/-! ### `echo_math` in integers -/

theorem ofInt_sub (w : Nat) (a b : Int) : BitVec.ofInt w (a - b) = BitVec.ofInt w a - BitVec.ofInt w b := by
  rw [Int.sub_eq_add_neg, BitVec.ofInt_add, BitVec.ofInt_neg, ← BitVec.sub_eq_add_neg]

/-- `tdiv2` truncates toward zero, and no quotient by 2 overflows (R12). -/
theorem tdiv2_toInt (v : I64) : (tdiv2 v).toInt = v.toInt.tdiv 2 :=
  BitVec.toInt_sdiv_of_ne_or_ne v 2 (.inr (by decide))

/-- The round-trip delay, in integers modulo 2^64 (R156). -/
theorem echoRtt_eq_ofInt (now org recv xmt : I64) :
    echoRtt now org recv xmt = .ofInt 64 ((now.toInt - org.toInt) - (xmt.toInt - recv.toInt)) := by
  simp only [echoRtt, ofInt_sub, BitVec.ofInt_toInt]

/-- The offset: its intermediates wrap together, and the division truncates what is left (R156). -/
theorem echoOffset_toInt (now org recv xmt : I64) :
    (echoOffset now org recv xmt).toInt =
      (((recv.toInt - org.toInt) + (xmt.toInt - now.toInt)).bmod (2 ^ 64)).tdiv 2 := by
  rw [echoOffset, tdiv2_toInt, ← BitVec.toInt_ofInt, BitVec.ofInt_add, ofInt_sub, ofInt_sub]
  simp only [BitVec.ofInt_toInt]

/-! ### CS_REPLY -/

/-- A reply with the pending id is accepted (R155, R157). -/
theorem exec_csReply_of_pending {s : State} (pending : s.cs.state = .echoSent)
    (id_fits : s.cs.echoId.toNat < 2 ^ s.params.echoIdBits) (now org recv xmt : I64) :
    exec (.csReply now s.cs.echoId org recv xmt) s =
      .next ((s.setCs (s.cs.accepted now xmt (echoOffset now org recv xmt))).respond .ok
        (le64 (echoRtt now org recv xmt) ++ le64 org ++ le64 recv ++ le64 xmt ++ le64 (echoOffset now org recv xmt))) := by
  have accepted : s.cs.matchesReply s.params.echoIdBits s.cs.echoId = true := matchesReply_iff.mpr ⟨pending, rfl, id_fits⟩
  simp only [exec, execCsReply]
  rw [if_pos accepted]

/-- Settles O28. -/
theorem csReplySettlesExchange : Obligations.CsReplySettlesExchange := by
  intro s now org recv xmt pending id_fits
  refine ⟨_, exec_csReply_of_pending pending id_fits now org recv xmt, echoOffset_toInt now org recv xmt,
    rfl, rfl, rfl, rfl, rfl, rfl, rfl, rfl, rfl, ?_⟩
  rw [← echoRtt_eq_ofInt]
  rfl

/-- The truncated half misses `Δ` by no more than half the asymmetry of the delays and 1 (R160). -/
theorem abs_tdiv_two_sub_le (delta d1 d2 : Int) : |(2 * delta + d1 - d2).tdiv 2 - delta| ≤ |d1 - d2| / 2 + 1 := by
  have remainder := Int.mul_tdiv_add_tmod (2 * delta + d1 - d2) 2
  have remainder_low := Int.lt_tmod_of_pos (2 * delta + d1 - d2) (b := 2) (by decide)
  have remainder_high := Int.tmod_lt_of_pos (2 * delta + d1 - d2) (b := 2) (by decide)
  have asymmetry_high := le_abs_self (d1 - d2)
  have asymmetry_low := neg_abs_le (d1 - d2)
  rw [abs_le]
  omega

/-- Settles O30: `recv - org` is `d1 + Δ` and `xmt - now` is `Δ - d2` (R158), and no timestamp wraps. -/
theorem echoOffsetConverges : Obligations.EchoOffsetConverges := by
  intro s delta d1 d2 hold org pending id_fits delta_small d1_small d2_small hold_small org_small
  rw [abs_lt] at delta_small d1_small d2_small hold_small org_small
  obtain ⟨t, runs, offset, -, -, -, -, -, -, -, -, -, answers⟩ := csReplySettlesExchange s
    (.ofInt 64 (org + d1 + hold + d2)) (.ofInt 64 org) (.ofInt 64 (org + d1 + delta))
    (.ofInt 64 (org + d1 + delta + hold)) pending id_fits
  have twice_offset : (org + d1 + delta - org) + (org + d1 + delta + hold - (org + d1 + hold + d2)) =
      2 * delta + d1 - d2 := by ring
  have round_trip : (org + d1 + hold + d2 - org) - (org + d1 + delta + hold - (org + d1 + delta)) = d1 + d2 := by ring
  have now_fits := BitVec.toInt_ofInt_eq_self (w := 64) (by decide) (n := org + d1 + hold + d2) (by omega) (by omega)
  have org_fits := BitVec.toInt_ofInt_eq_self (w := 64) (by decide) (n := org) (by omega) (by omega)
  have recv_fits := BitVec.toInt_ofInt_eq_self (w := 64) (by decide) (n := org + d1 + delta) (by omega) (by omega)
  have xmt_fits := BitVec.toInt_ofInt_eq_self (w := 64) (by decide) (n := org + d1 + delta + hold) (by omega) (by omega)
  rw [now_fits, org_fits, recv_fits, xmt_fits] at offset answers
  rw [twice_offset, Int.bmod_eq_of_le (by omega) (by omega)] at offset
  rw [round_trip] at answers
  simp only [List.append_assoc] at answers
  refine ⟨t, runs, offset, ?_, ?_, _, answers⟩
  · rw [offset]
    exact abs_tdiv_two_sub_le delta d1 d2
  · rintro rfl
    rw [offset, Int.add_sub_cancel, Int.mul_tdiv_cancel_left _ (by decide)]

/-! ### CS_EXT -/

/-- The extended time, in integers modulo 2^64 (R161). -/
theorem extendNs_eq_ofInt (t l : U32) (lastNs : I64) :
    extendNs t l lastNs = .ofInt 64 (lastNs.toInt + extDelta t l * 1000) := by
  rw [BitVec.ofInt_add, BitVec.ofInt_toInt, extendNs]

/-- Settles O31: the wrapping sums of the extended time and the offset are integer sums, wrapped once. -/
theorem csExtExtendsTimestamp : Obligations.CsExtExtendsTimestamp := by
  intro s t l lastNs delta is_delta
  obtain rfl : delta = extDelta t l := is_delta
  refine ⟨_, _, _, rfl, sameState_respond .., extendNs_eq_ofInt t l lastNs, ?_, rfl⟩
  rw [extendNs_eq_ofInt]
  cases s.params.offsetApply with
  | subtract => simp only [applyOffset, ofInt_sub, BitVec.ofInt_toInt]
  | add => simp only [applyOffset, BitVec.ofInt_add, BitVec.ofInt_toInt]

/-- Across a wrap or not, `delta` is the distance of two samples of a device time that does not decrease (R162, R163). -/
theorem extDelta_of_samples {time0 time1 : Nat} (forward : time0 ≤ time1) (near : time1 - time0 < 2 ^ 31) :
    extDelta (.ofNat 32 time1) (.ofNat 32 time0) = (time1 - time0 : Nat) := by
  simp only [extDelta, BitVec.toNat_ofNat]
  split
  case isTrue wrapped => omega
  case isFalse risen => omega

/-- The extended time of the later of two such samples, where the sum is an i64 (R163, R164). -/
theorem extendNs_of_samples_toInt {time0 time1 : Nat} {lastNs : I64} (forward : time0 ≤ time1)
    (near : time1 - time0 < 2 ^ 31) (room : lastNs.toInt + 2 ^ 31 * 1000 < 2 ^ 63) :
    (extendNs (.ofNat 32 time1) (.ofNat 32 time0) lastNs).toInt = lastNs.toInt + (time1 - time0 : Nat) * 1000 := by
  have low : -2 ^ 63 ≤ lastNs.toInt := BitVec.le_toInt lastNs
  rw [extendNs_eq_ofInt, extDelta_of_samples forward near,
    BitVec.toInt_ofInt_eq_self (by decide) (by omega) (by omega)]

/-- Settles O32: the answer depends on the operands, the parameters and `ns_offset`, which CS_EXT leaves as they are; and the
distance of two samples is added without a wrap. -/
theorem csExtNeverMovesBackward : Obligations.CsExtNeverMovesBackward := by
  constructor
  · intro s u v t l lastNs x first second answered
    cases first
    cases second
    rw [← List.append_cancel_left answered]
    rfl
  · intro s time0 time1 lastNs forward near room
    have moved := extendNs_of_samples_toInt forward near room
    exact ⟨_, _, _, rfl, rfl, moved, by omega⟩

end Sys2Proof.Machine

/-! PROOF. The reassembler (spec/42_reassembler.md): what SR_BEGIN and SR_FEED do on a channel and what they refuse (R181 to
R191), and that a segment fed in pieces reaches the handler whole (R188, R189, R191). -/

namespace Sys2Proof.Machine

open Sys2Proof.Safety

/-! ### What is refused for its operands (R181, R183) -/

theorem ofByte?_eq_none_of_three_le {b : Byte} (high : 3 ≤ b.toNat) : Channel.ofByte? b = none := by
  cases names : Channel.ofByte? b with
  | none => rfl
  | some c =>
    have index := ofByte?_eq_some_iff_index.mp names
    cases c <;> simp only [Channel.index] at index <;> omega

theorem exists_ofByte?_of_lt_three {b : Byte} (low : b.toNat < 3) : ∃ c, Channel.ofByte? b = some c := by
  obtain zero | one | two : b.toNat = 0 ∨ b.toNat = 1 ∨ b.toNat = 2 := by omega
  · exact ⟨.ch0, ofByte?_eq_some_iff_index.mpr zero⟩
  · exact ⟨.ch1, ofByte?_eq_some_iff_index.mpr one⟩
  · exact ⟨.ch2, ofByte?_eq_some_iff_index.mpr two⟩

theorem exec_srBegin_of_no_channel {b : Byte} (high : 3 ≤ b.toNat) (n : U32) (s : State) :
    exec (.srBegin b n) s = .next (s.raise .argError .srBegin) := by
  simp only [exec, execSrBegin, ofByte?_eq_none_of_three_le high]

theorem exec_srFeed_of_no_channel {b : Byte} (high : 3 ≤ b.toNat) (d : Bytes) (s : State) :
    exec (.srFeed b d) s = .next (s.raise .argError .srFeed) := by
  simp only [exec, execSrFeed, ofByte?_eq_none_of_three_le high]

/-- SR_BEGIN for a length above SEG_CEILING (R183). -/
theorem exec_srBegin_of_above {s : State} {b : Byte} {n : U32} (low : b.toNat < 3)
    (above : s.params.segCeiling < n.toNat) : exec (.srBegin b n) s = .next (s.raise .capacityError .srBegin) := by
  obtain ⟨c, names⟩ := exists_ofByte?_of_lt_three low
  simp only [exec, execSrBegin, names, if_pos above]

/-- Settles O34. -/
theorem srRefusalsChangeNothing : Obligations.SrRefusalsChangeNothing := fun s _ n d =>
  ⟨fun high => ⟨_, exec_srBegin_of_no_channel high n s, sameState_respond .., rfl⟩,
    fun high => ⟨_, exec_srFeed_of_no_channel high d s, sameState_respond .., rfl⟩,
    fun low above => ⟨_, exec_srBegin_of_above low above, sameState_respond .., rfl⟩⟩

/-! ### SR_BEGIN -/

theorem begun_capacity_toNat (g : Segment) (n : U32) : (g.begun n).capacity.toNat = max g.capacity.toNat n.toNat := by
  simp only [Segment.begun, BitVec.lt_def]
  split <;> omega

theorem exec_srBegin_of_fits {s : State} {b : Byte} {c : Channel} {n : U32} (index : b.toNat = c.index)
    (fits : n.toNat ≤ s.params.segCeiling) :
    exec (.srBegin b n) s =
      .next ((s.setSeg c ((s.seg c).begun n)).respond .ok (le32 ((s.seg c).begun n).capacity)) := by
  simp only [exec, execSrBegin, ofByte?_eq_some_iff_index.mpr index, if_neg (Nat.not_lt.mpr fits)]

/-- A command that puts a segment on a channel and answers sends that answer alone. -/
theorem answers_of_setSeg (s : State) (c : Channel) (g : Segment) (st : Status) (r : Bytes) :
    Answers s ((s.setSeg c g).respond st r) st.byte r := by
  rw [Answers, respond_output, setSeg_output]

/-- Settles O33: the segment that SR_BEGIN puts on the channel, field by field. -/
theorem srBeginOpensSegment : Obligations.SrBeginOpensSegment := by
  intro s b c n index fits
  refine ⟨_, exec_srBegin_of_fits index fits, ?_⟩
  rw [respond_seg, setSeg_seg_self, ← begun_capacity_toNat]
  exact ⟨rfl, rfl, rfl, rfl, rfl, setSeg_callout .., sameOutside_respond (sameOutside_setSeg ..) ..,
    answers_of_setSeg ..⟩

/-! ### SR_FEED -/

/-- SR_FEED on an EMPTY channel (R190). -/
theorem exec_srFeed_of_empty {s : State} {b : Byte} {c : Channel} (index : b.toNat = c.index)
    (idle : (s.seg c).state = .empty) (d : Bytes) :
    exec (.srFeed b d) s =
      if d = [] then .next (s.respond .ok (le 1 0 ++ le32 0)) else .next (s.raise .overrunError .srFeed) := by
  simp only [exec, execSrFeed, ofByte?_eq_some_iff_index.mpr index, if_pos idle]

/-- SR_FEED past the end of a segment (R187). -/
theorem exec_srFeed_of_overrun {s : State} {b : Byte} {c : Channel} {d : Bytes} (index : b.toNat = c.index)
    (begun : (s.seg c).state ≠ .empty) (past : (s.seg c).room < d.length) :
    exec (.srFeed b d) s = .next ((s.setSeg c (s.seg c).emptied).raise .overrunError .srFeed) := by
  simp only [exec, execSrFeed, ofByte?_eq_some_iff_index.mpr index, if_neg begun, if_pos past]

/-- SR_FEED of bytes for which the segment has room appends them (R186). -/
theorem exec_srFeed_of_fed {s t : State} {b : Byte} {c : Channel} {d : Bytes} (index : b.toNat = c.index)
    (begun : (s.seg c).state ≠ .empty) (room : (s.seg c).validLen.toNat + d.length ≤ (s.seg c).expectedLen.toNat)
    (fed : s.feed c d = .ok t) : exec (.srFeed b d) s = .next t := by
  have within : ¬ (s.seg c).room < d.length := by
    rw [Segment.room]
    omega
  simp only [exec, execSrFeed, ofByte?_eq_some_iff_index.mpr index, if_neg begun, if_neg within, ofExcept_eq_next, fed]

theorem ne_empty_of_accumulating {g : Segment} (gathering : g.state = .accumulating) : g.state ≠ .empty := by
  rw [gathering]
  decide

/-- Settles O37. -/
theorem srFeedOverrunsAndEmptyFeeds : Obligations.SrFeedOverrunsAndEmptyFeeds := by
  intro s b c d index
  refine ⟨fun gathering _ past => ?overrun, fun idle no_bytes => ?nothing, fun idle bytes => ?refused⟩
  case overrun =>
    refine ⟨_, exec_srFeed_of_overrun index (ne_empty_of_accumulating gathering) past, ?_⟩
    rw [raise_seg, setSeg_seg_self]
    exact ⟨rfl, rfl, rfl, rfl, rfl, setSeg_callout .., sameOutside_respond (sameOutside_setSeg ..) ..,
      answers_of_setSeg ..⟩
  case nothing =>
    rw [exec_srFeed_of_empty index idle, if_pos no_bytes]
    exact ⟨_, rfl, sameState_respond .., rfl⟩
  case refused =>
    rw [exec_srFeed_of_empty index idle, if_neg bytes]
    exact ⟨_, rfl, sameState_respond .., rfl⟩

/-- Settles O35, by what the append does where it does not fill the segment. -/
theorem srFeedAppends : Obligations.SrFeedAppends := by
  intro s b c d index seg gathering short
  obtain ⟨t, _, fed, same, expected, capacity, valid, buf, -, -, -, ending⟩ := feed_of_room seg (Nat.le_of_lt short)
  rw [if_neg (Nat.ne_of_lt short)] at ending
  obtain ⟨state, callout, answers⟩ := ending
  refine ⟨t, ?_, state.trans gathering, valid, expected, capacity, fun a => ?_, callout, same, answers⟩
  · exact exec_srFeed_of_fed index (ne_empty_of_accumulating gathering) (Nat.le_of_lt short) fed
  · rw [buf, Cells.get?_write]

/-- Settles O36, by what the append does where it fills the segment. -/
theorem srFeedCompletesSegment : Obligations.SrFeedCompletesSegment := by
  intro s b c d index seg gathering fills
  obtain ⟨t, earlier, fed, same, expected, capacity, valid, buf, len, held, -, ending⟩ :=
    feed_of_room seg (Nat.le_of_eq fills)
  rw [if_pos fills] at ending
  obtain ⟨state, callout, output⟩ := ending
  refine ⟨t, earlier, ?_, state, BitVec.eq_of_toNat_eq (valid.trans fills), expected, capacity, fun a => ?_, callout,
    same, len, held, output⟩
  · exact exec_srFeed_of_fed index (ne_empty_of_accumulating gathering) (Nat.le_of_eq fills) fed
  · rw [buf, Cells.get?_write]

/-! ### A segment fed in pieces -/

/-- With no transfer open, channel c gathers a segment of n bytes and has got these so far. -/
structure Gathers (s : State) (c : Channel) (n : U32) (got : Bytes) : Prop where
  inv : Inv s
  closed : s.sr.callout = none
  state : (s.seg c).state = .accumulating
  expected : (s.seg c).expectedLen = n
  len : got.length = (s.seg c).validLen.toNat
  held : ∀ a, a < got.length → Cells.get? (s.seg c).buf a = got[a]?

theorem sameOutsideChannel_trans {c : Channel} {s t u : State} (h : SameOutsideChannel c s t)
    (h' : SameOutsideChannel c t u) : SameOutsideChannel c s u where
  params := h'.params.trans h.params
  cs := h'.cs.trans h.cs
  fs := h'.fs.trans h.fs
  input := h'.input.trans h.input
  others := fun d other => (h'.others d other).trans (h.others d other)

theorem execAll_cons_of_next {i : Instr} {s t : State} (runs : exec i s = .next t) (rest : List Instr) :
    execAll (i :: rest) s = execAll rest t := by
  rw [execAll, runs]

theorem transfers_of_answers {s t : State} {st : Byte} {r : Bytes} (h : Answers s t st r) :
    transfers t.output = transfers s.output := by
  simp [h, transfers]

theorem transfers_append_pktOut (os : List PortOut) (c : Channel) (n : U32) (view : Bytes) :
    transfers (os ++ [.pktOut c n view]) = transfers os ++ [(c, n, view)] := by
  simp [transfers]

/-- What the SR unit leaves with no transfer open meets the invariant (R182 to R188). -/
theorem inv_of_exec_sr {i : Instr} {s t : State} (unit : agentOf i.opcode = .sr) (h : Inv s)
    (closed : s.sr.callout = none) (runs : exec i s = .next t) : Inv t := by
  obtain ⟨u, runs', inv⟩ := exec_sr_keeps_inv unit h closed
  obtain rfl : t = u := by simpa using runs.symm.trans runs'
  exact inv

/-- SR_BEGIN starts a segment with nothing got (R182). -/
theorem gathers_of_srBegin {s : State} {b : Byte} {c : Channel} {n : U32} (inv : Inv s) (closed : s.sr.callout = none)
    (index : b.toNat = c.index) (fits : n.toNat ≤ s.params.segCeiling) :
    ∃ t, exec (.srBegin b n) s = .next t ∧ Gathers t c n [] ∧ SameOutsideChannel c s t ∧
      transfers t.output = transfers s.output := by
  obtain ⟨t, runs, state, valid, expected, -, -, callout, same, answers⟩ := srBeginOpensSegment s b c n index fits
  refine ⟨t, runs, ?_, same, transfers_of_answers answers⟩
  exact ⟨inv_of_exec_sr rfl inv closed runs, callout.trans closed, state, expected, by rw [valid]; rfl,
    fun _ none_below => absurd none_below (Nat.not_lt_zero _)⟩

/-- A piece that does not fill the segment is got behind the earlier ones (R186, R191). -/
theorem gathers_of_srFeed {s : State} {b : Byte} {c : Channel} {n : U32} {got d : Bytes} (h : Gathers s c n got)
    (index : b.toNat = c.index) (short : got.length + d.length < n.toNat) :
    ∃ t, exec (.srFeed b d) s = .next t ∧ Gathers t c n (got ++ d) ∧ SameOutsideChannel c s t ∧
      transfers t.output = transfers s.output := by
  obtain ⟨t, runs, state, valid, expected, -, bytes, callout, same, answers⟩ :=
    srFeedAppends s b c d index (h.inv.segs c) h.state (by rw [← h.len, h.expected]; exact short)
  refine ⟨t, runs, ?_, same, transfers_of_answers answers⟩
  refine ⟨inv_of_exec_sr rfl h.inv h.closed runs, callout.trans h.closed, state, expected.trans h.expected,
    by rw [valid, List.length_append, h.len], fun a below => ?_⟩
  rw [List.length_append] at below
  rw [bytes, ← h.len]
  split
  case isTrue new => rw [List.getElem?_append_right new.1]
  case isFalse old =>
    have old : a < got.length := by omega
    rw [List.getElem?_append_left old, h.held a old]

/-- The piece that fills the segment hands everything got, and itself, to the handler (R188, R189). -/
theorem delivers_of_srFeed {s : State} {b : Byte} {c : Channel} {n : U32} {got d : Bytes} (h : Gathers s c n got)
    (index : b.toNat = c.index) (fills : got.length + d.length = n.toNat) :
    ∃ t, exec (.srFeed b d) s = .next t ∧ t.sr.callout = some c ∧ SameOutsideChannel c s t ∧
      transfers t.output = transfers s.output ++ [(c, n, got ++ d)] := by
  obtain ⟨t, earlier, runs, -, -, -, -, -, callout, same, len, held, output⟩ :=
    srFeedCompletesSegment s b c d index (h.inv.segs c) h.state (by rw [← h.len, h.expected]; exact fills)
  obtain rfl : got = earlier := eq_of_segAlike ⟨rfl, rfl, rfl, rfl, fun _ _ => rfl⟩ len h.len held h.held
  exact ⟨t, runs, callout, same, by rw [output, transfers_append_pktOut, h.expected]⟩

/-- The pieces of the rest of a segment, by induction on those before the last: none of them fills the segment, since
bytes of the last are still missing. -/
theorem delivers_of_srFeeds {b : Byte} {c : Channel} {n : U32} (index : b.toNat = c.index) (last : Bytes)
    {first : List Bytes} {s : State} {got : Bytes} (h : Gathers s c n got)
    (fills : n.toNat = got.length + (first ++ [last]).flatten.length) (last_fills : first = [] ∨ last ≠ []) :
    ∃ t, execAll ((first ++ [last]).map (fun d => .srFeed b d)) s = .next t ∧ t.sr.callout = some c ∧
      SameOutsideChannel c s t ∧
      transfers t.output = transfers s.output ++ [(c, n, got ++ (first ++ [last]).flatten)] := by
  induction first generalizing s got with
  | nil =>
    simp only [List.nil_append, List.flatten_singleton] at fills ⊢
    obtain ⟨t, runs, delivered⟩ := delivers_of_srFeed h index fills.symm
    exact ⟨t, execAll_cons_of_next runs [], delivered⟩
  | cons d ds ih =>
    have missing : last ≠ [] := last_fills.resolve_left (List.cons_ne_nil d ds)
    have missing_pos := List.length_pos_iff.mpr missing
    simp only [List.cons_append, List.flatten_cons, List.flatten_append, List.length_append] at fills ih ⊢
    obtain ⟨u, runs, gathers, same, silent⟩ := gathers_of_srFeed (d := d) h index (by omega)
    obtain ⟨t, rest, callout, same', delivered⟩ :=
      ih gathers (by rw [List.length_append]; omega) (.inr missing)
    refine ⟨t, (execAll_cons_of_next runs _).trans rest, callout, sameOutsideChannel_trans same same', ?_⟩
    rw [delivered, silent, List.append_assoc]

/-- Settles O38, by what is got after each piece. -/
theorem segmentIsDeliveredWhole : Obligations.SegmentIsDeliveredWhole := by
  intro s b c n first last inv closed index fits len last_fills
  obtain ⟨u, runs, gathers, same, silent⟩ := gathers_of_srBegin inv closed index fits
  obtain ⟨t, rest, callout, same', delivered⟩ :=
    delivers_of_srFeeds index last gathers (by rw [len, List.length_nil, Nat.zero_add]) last_fills
  refine ⟨t, (execAll_cons_of_next runs _).trans rest, callout, sameOutsideChannel_trans same same', ?_⟩
  rw [delivered, silent, List.nil_append]

end Sys2Proof.Machine

/-! PROOF. What FS_PUSH and FS_FINAL refuse (spec/43_frame_sharder.md R212, R218, spec/60_exceptions.md R277), and how a
push cuts its data (R211, R213). -/

namespace Sys2Proof.Machine

open Sys2Proof.Safety

/-! ### Refusals -/

/-- Settles O45. -/
theorem finalIsRefusedWithoutItsFrame : Obligations.FinalIsRefusedWithoutItsFrame := by
  intro s fr dt pose no_frame
  have refused : ¬ (s.fs.isOpen && decide (fr = s.fs.frameIdx)) = true := by
    rw [Bool.and_eq_true, decide_eq_true_eq]
    rintro ⟨is_open, same_frame⟩
    obtain closed | other := no_frame
    · rw [closed] at is_open
      cases is_open
    · exact other same_frame
  have runs : exec (.fsFinal fr dt pose) s = .next (s.raise .argError .fsFinal) := by
    rw [exec, execFsFinal, if_neg refused]
  exact ⟨_, runs, sameState_respond .., rfl⟩

/-- An FS_PUSH that `check_push` refuses (R212). -/
theorem exec_fsPush_of_refused {s : State} {st : Byte} {fr : U64} {mp : U32} {d : Bytes}
    (refused : ¬ s.pushAccepted st fr mp d.length = true) :
    exec (.fsPush st fr mp d) s = .next (s.raise .argError .fsPush) := by
  rw [exec, execFsPush, if_neg refused]

/-- An accepted FS_PUSH that goes on has run its loop and answers OK (R211). -/
theorem loop_of_fsPush_accepted {s t : State} {st : Byte} {fr : U64} {mp : U32} {d : Bytes}
    (accepted : s.pushAccepted st fr mp d.length = true) (runs : exec (.fsPush st fr mp d) s = .next t) :
    ∃ (u : State) (r : Bytes), t = u.respond .ok r ∧
      (s.openFrame st fr).pushFrom (shardCount d.length mp.toNat) 0 (pieces mp.toNat d) = .ok u := by
  rw [exec, execFsPush, if_pos accepted, ofExcept_eq_next] at runs
  obtain ⟨u, loop, rfl⟩ := push_eq_ok runs
  exact ⟨u, _, rfl, loop⟩

/-- The three checks of R212, from the side of the refusal. -/
theorem not_pushAccepted_iff {s : State} {st : Byte} {fr : U64} {mp : U32} {len : Nat}
    (one_row : 1 ≤ s.params.fsMaxShards) :
    ¬ s.pushAccepted st fr mp len = true ↔
      mp = 0 ∨ s.params.protoMaxPayload < mp.toNat ∨
        (s.fs.isOpen = true ∧ (fr ≠ s.fs.frameIdx ∨ st ≠ s.fs.streamIdx)) ∨
        s.params.fsMaxShards - 1 < (if s.fs.isOpen then s.fs.nextIdx.toNat else 0) + shardCount len mp.toNat := by
  have no_room : ∀ made : Nat, ¬ made + 1 ≤ s.params.fsMaxShards ↔ s.params.fsMaxShards - 1 < made := by omega
  simp only [pushAccepted_iff, not_and_or, not_not, ne_eq, Nat.not_le, Classical.not_imp, ← no_room]

/-- Settles O44: a failed check makes `check_push` refuse, and an accepted push answers another status. -/
theorem pushIsRefusedExactlyByItsChecks : Obligations.PushIsRefusedExactlyByItsChecks := by
  intro s st fr mp data one_row
  refine (not_pushAccepted_iff one_row).symm.trans ⟨fun refused => ?refused, fun answered accepted => ?accepted⟩
  case refused => exact ⟨_, exec_fsPush_of_refused refused, sameState_respond .., rfl⟩
  case accepted =>
    obtain ⟨t, runs, -, answer⟩ := answered
    obtain ⟨u, r, rfl, -⟩ := loop_of_fsPush_accepted accepted runs
    obtain ⟨-, status, -⟩ := respond_output_eq answer
    cases status

/-! ### The pieces of a push -/

theorem flatten_cut (mp n : Nat) (d : Bytes) : (cut mp n d).flatten = d.take (n * mp) := by
  induction n generalizing d with
  | zero => simp [cut]
  | succ n ih => rw [cut, List.flatten_cons, ih, ← List.take_add, Nat.succ_mul, Nat.add_comm]

/-- The shards of a push are just enough for its bytes (R211). -/
theorem shardCount_bounds {mp : Nat} (positive : 0 < mp) (len : Nat) :
    len ≤ shardCount len mp * mp ∧ (0 < shardCount len mp → (shardCount len mp - 1) * mp < len) := by
  have exact_div := Nat.div_add_mod' (len + mp - 1) mp
  have rest := Nat.mod_lt (len + mp - 1) positive
  rw [← ceilDiv, ← shardCount] at exact_div
  refine ⟨by omega, fun some_made => ?_⟩
  have := Nat.le_mul_of_pos_left mp some_made
  rw [Nat.sub_mul, Nat.one_mul]
  omega

/-- The pieces of a push are its data (R213). -/
theorem flatten_pieces {mp : Nat} (positive : 0 < mp) (data : Bytes) : (pieces mp data).flatten = data := by
  rw [pieces, flatten_cut, List.take_of_length_le (shardCount_bounds positive _).1]

theorem pieces_length (mp : Nat) (data : Bytes) : (pieces mp data).length = shardCount data.length mp := cut_length ..

theorem pieceAt_length (mp : Nat) (data : Bytes) (j : Nat) :
    (pieceAt mp data j).length = min mp (data.length - j * mp) := by
  rw [pieceAt, List.length_take, List.length_drop]

theorem pieces_getElem? {mp : Nat} {data p : Bytes} {j : Nat} :
    (pieces mp data)[j]? = some p ↔ j < shardCount data.length mp ∧ pieceAt mp data j = p := by
  rw [pieces_eq, List.getElem?_map, Option.map_eq_some_iff]
  simp [List.getElem?_eq_some_iff]

/-- Settles O43. -/
theorem piecesRejoinToTheData : Obligations.PiecesRejoinToTheData := by
  intro mp data positive
  refine ⟨flatten_pieces positive data, pieces_length mp data, fun j p piece => ?_⟩
  obtain ⟨inside, rfl⟩ := pieces_getElem?.mp piece
  obtain ⟨enough, needed⟩ := shardCount_bounds positive data.length
  rw [pieces_length, pieceAt_length]
  constructor
  case left =>
    intro more
    have before : (j + 1) * mp ≤ (shardCount data.length mp - 1) * mp := Nat.mul_le_mul_right _ (by omega)
    rw [Nat.succ_mul] at before
    have := needed (by omega)
    omega
  case right =>
    intro last
    rw [← last, Nat.succ_mul] at enough
    have := needed (by omega)
    rw [← last, Nat.add_sub_cancel] at this ⊢
    omega

end Sys2Proof.Machine

/-! PROOF. What an accepted FS_PUSH stores and what it releases (spec/43_frame_sharder.md R211, R213 to R217). -/

namespace Sys2Proof.Machine

open Sys2Proof.Safety

/-! ### The frame that a push opens -/

/-- Where the block numbers a push's shards from: a closed frame context has made none (R45). -/
theorem pushBase_eq_nextIdx {p : Params} {x : Sharder} (h : ShardInv p x) :
    (if x.isOpen then x.nextIdx.toNat else 0) = x.nextIdx.toNat := by
  cases is_open : x.isOpen with
  | true => rfl
  | false => rw [(h.closed is_open).2]; rfl

/-- The frame context once a push to this frame has opened it (R210, R211). -/
theorem openFrame_fs {s : State} {st : Byte} {fr : U64} (h : ShardInv s.params s.fs)
    (same_frame : s.fs.isOpen = true → fr = s.fs.frameIdx ∧ st = s.fs.streamIdx) :
    (s.openFrame st fr).fs =
      { s.fs with
        isOpen := true, frameIdx := fr, streamIdx := st, heldFlags := if s.fs.isOpen then s.fs.heldFlags else 0 } := by
  cases is_open : s.fs.isOpen with
  | true =>
    obtain ⟨rfl, rfl⟩ := same_frame is_open
    rw [openFrame_of_open is_open, if_pos rfl, ← is_open]
  | false =>
    obtain ⟨unheld, none_made⟩ := h.closed is_open
    simp only [openFrame_of_closed is_open, setFs_fs, Sharder.withoutShards, unheld, none_made, Bool.false_eq_true,
      if_false]

/-! ### What the loop leaves unchanged -/

/-- The frame context after one more shard (R214). -/
theorem newShard_fs {s t : State} {flags : Byte} {payload : Bytes} (h : s.newShard flags payload = .ok t) :
    t.params = s.params ∧ t.fs = (shardAdded s flags payload []).fs := by
  obtain ⟨s1, released, holds⟩ := newShard_eq_ok h
  obtain ⟨-, rfl⟩ := holdShard_eq_ok holds
  obtain ⟨-, rfl⟩ | ⟨-, release⟩ := releaseIfHeld_eq_ok released
  · exact ⟨rfl, rfl⟩
  · obtain ⟨payload, -, rfl⟩ := releaseHeld_eq_ok release
    exact ⟨rfl, rfl⟩

/-- The loop of FS_PUSH writes the rows of its shards, as far as their payloads reach, and no other (R214, R216). -/
theorem pushFrom_keeps_elsewhere {s t : State} {n j : Nat} {ds : List Bytes} (h : s.pushFrom n j ds = .ok t)
    (no_wrap : s.fs.nextIdx.toNat + ds.length < 2 ^ 32) :
    (∀ i, ¬(s.fs.nextIdx.toNat ≤ i ∧ i < s.fs.nextIdx.toNat + ds.length) → t.fs.rowlen.at i = s.fs.rowlen.at i) ∧
      ∀ a, (∀ k (hk : k < ds.length), ¬(s.rowBase (s.fs.nextIdx.toNat + k) ≤ a ∧
          a < s.rowBase (s.fs.nextIdx.toNat + k) + ds[k].length)) →
        Cells.get? t.fs.store a = Cells.get? s.fs.store a := by
  induction ds generalizing s j with
  | nil =>
    cases h
    exact ⟨fun _ _ => rfl, fun _ _ => rfl⟩
  | cons d ds ih =>
    obtain ⟨u, made, others⟩ := pushFrom_cons_eq_ok h
    obtain ⟨params, fs⟩ := newShard_fs made
    simp only [List.length_cons] at no_wrap ⊢
    have next : u.fs.nextIdx.toNat = s.fs.nextIdx.toNat + 1 := by
      rw [fs]
      exact BitVec.toNat_add_of_lt (show s.fs.nextIdx.toNat + 1 < 2 ^ 32 by omega)
    have base : ∀ i, u.rowBase i = s.rowBase i := fun i => by rw [State.rowBase, State.rowBase, params]
    obtain ⟨rowlen, bytes⟩ := ih others (by omega)
    constructor
    case left =>
      intro i outside
      rw [rowlen i (by omega), fs]
      exact (RowLens.at_set ..).trans (if_neg (by omega))
    case right =>
      intro a outside
      rw [bytes a fun k hk => ?_, fs]
      · exact Cells.get?_write_outside _ _ _ _ (outside 0 (Nat.zero_lt_succ _))
      · rw [base, next, Nat.add_assoc, Nat.add_comm 1]
        exact outside (k + 1) (Nat.succ_lt_succ hk)

/-! ### Flags and payloads of the shards of one push -/

/-- The flags of the last shard of a push (R211). -/
theorem sliceFlags_last {n : Nat} (some_made : n ≠ 0) : sliceFlags (0 + n - 1) n = if n = 1 then 0x03 else 0x02 := by
  have last : 0 + n - 1 + 1 = n := by omega
  have only : 0 + n - 1 = 0 ↔ n = 1 := by omega
  rw [sliceFlags, if_pos last]
  simp only [only]
  split <;> rfl

/-- The flags of every other shard of a push (R211). -/
theorem sliceFlags_of_not_last {j n : Nat} (more : j + 1 < n) : sliceFlags j n = if j = 0 then 0x01 else 0x00 := by
  rw [sliceFlags, if_neg (Nat.ne_of_lt more)]
  split <;> rfl

theorem pieces_getElem (mp : Nat) (data : Bytes) (k : Nat) (hk : k < (pieces mp data).length) :
    (pieces mp data)[k] = pieceAt mp data k :=
  cut_getElem _ _ _ _ hk

/-- Settles O41: what the loop makes, on the frame that the push has opened. -/
theorem pushStoresItsShards : Obligations.PushStoresItsShards := by
  intro s st fr mp data base n inv nonzero mp_le same_frame base_eq n_eq room
  have accepted : s.pushAccepted st fr mp data.length = true :=
    pushAccepted_iff.mpr ⟨nonzero, mp_le, same_frame, by rwa [← base_eq, shardCount, ceilDiv, ← n_eq]⟩
  obtain ⟨t, runs, made, -⟩ := fsPush_makes inv accepted
  obtain ⟨u, r, ends, loop⟩ := loop_of_fsPush_accepted accepted runs
  have loop_fs : u.fs = t.fs := (congrArg State.fs ends).symm
  obtain ⟨same, -⟩ := openFrame_keeps inv.shards st fr
  have fs := openFrame_fs inv.shards same_frame
  have start : (s.openFrame st fr).fs.nextIdx.toNat = base := by
    rw [fs, base_eq, pushBase_eq_nextIdx inv.shards]
  have count : (pieces mp.toNat data).length = n := (pieces_length ..).trans n_eq.symm
  have row_base : ∀ i, (s.openFrame st fr).rowBase i = s.rowBase i := fun i => by
    rw [State.rowBase, State.rowBase, same.params]
  have no_wrap : base + n < 2 ^ 32 := by have := (fsMaxShards_range inv.params).2; omega
  obtain ⟨rowlen, bytes⟩ := pushFrom_keeps_elsewhere loop (by rwa [start, count])
  simp only [start, count, loop_fs, row_base, pieces_getElem] at rowlen bytes
  rw [fs] at rowlen bytes
  refine ⟨_, runs, ⟨made.same.params.trans same.params, made.same.cs.trans same.cs, made.same.sr.trans same.sr,
    made.same.input.trans same.input⟩, ?isOpen, ?frameIdx, ?streamIdx, ?nextIdx, ?heldValid, ?heldFlags, ?rows, rowlen,
    bytes⟩
  case isOpen => rw [respond_fs, made.isOpen, fs]
  case frameIdx => rw [respond_fs, made.frameIdx, fs]
  case streamIdx => rw [respond_fs, made.streamIdx, fs]
  case nextIdx => rw [respond_fs, made.nextIdx, start, count]
  case heldValid => rw [respond_fs, made.heldValid, fs, count]
  case heldFlags =>
    rw [respond_fs, made.heldFlags, count, fs, n_eq]
    split
    · rfl
    · exact sliceFlags_last ‹_›
  case rows =>
    intro j hj
    rw [← count] at hj
    have row := made.made j hj
    rw [start, pieces_getElem] at row
    exact row

end Sys2Proof.Machine

/-! PROOF. What the loop of FS_PUSH releases (spec/43_frame_sharder.md R211, R214, R215, R217). -/

namespace Sys2Proof.Machine

open Sys2Proof.Safety

/-! ### The shard in the delay and the packets of shards -/

/-- The shard in the delay, its flags and its payload, or none (R44, R214). -/
structure Holds (s : State) (held : Option (Byte × Bytes)) : Prop where
  valid : s.fs.heldValid = held.isSome
  shard : ∀ x, held = some x → s.fs.heldFlags = x.1 ∧ RowIs s (s.fs.nextIdx.toNat - 1) x.2

/-- Where a shard is held, shards have been made (R45). -/
theorem nextIdx_pos_of_held {p : Params} {x : Sharder} (h : FrameInv p x) (held : x.heldValid = true) :
    0 < x.nextIdx.toNat :=
  Nat.pos_of_ne_zero fun none_made => h.held_iff.mp held (BitVec.eq_of_toNat_eq none_made)

theorem exists_holds {s : State} (h : FrameInv s.params s.fs) : ∃ held, Holds s held := by
  by_cases valid : s.fs.heldValid = true
  · obtain ⟨d, row, -⟩ := exists_rowIs h (Nat.sub_one_lt_of_lt (nextIdx_pos_of_held h valid))
    exact ⟨some (s.fs.heldFlags, d), valid, fun x hx => by cases hx; exact ⟨rfl, row⟩⟩
  · exact ⟨none, Bool.eq_false_iff.mpr valid, fun _ hx => nomatch hx⟩

/-- The held shard is one of those made (R44, R45). -/
theorem Holds.length_le {s : State} {held : Option (Byte × Bytes)} (h : Holds s held) (inv : FrameInv s.params s.fs) :
    held.toList.length ≤ s.fs.nextIdx.toNat := by
  cases held with
  | none => exact Nat.zero_le _
  | some x => exact nextIdx_pos_of_held inv h.valid

/-- The shards with these payloads as numbers j, j + 1 and so on of the n of a push: flags and payloads (R211). -/
def numberedShards (n j : Nat) (ds : List Bytes) : List (Byte × Bytes) := ds.mapIdx (fun k d => (sliceFlags (j + k) n, d))

@[simp] theorem numberedShards_length (n j : Nat) (ds : List Bytes) : (numberedShards n j ds).length = ds.length :=
  List.length_mapIdx

theorem numberedShards_payloads (n j : Nat) (ds : List Bytes) : (numberedShards n j ds).map (fun x => x.2) = ds := by
  apply List.ext_getElem
  · simp
  · simp [numberedShards]

/-- The DATA packets, without view_info, of shards with these flags and payloads from index i on (R115, R214). -/
def shardPackets (st : Byte) (fr : U64) (i : Nat) (xs : List (Byte × Bytes)) : List PortOut :=
  xs.mapIdx (fun j x => .tx .data 0 (dataPacket st fr (i + j) x.1 [] x.2))

theorem shardPackets_cons (st : Byte) (fr : U64) (i : Nat) (x : Byte × Bytes) (xs : List (Byte × Bytes)) :
    shardPackets st fr i (x :: xs) = .tx .data 0 (dataPacket st fr i x.1 [] x.2) :: shardPackets st fr (i + 1) xs := by
  simp only [shardPackets, List.mapIdx_cons, Nat.add_zero, Nat.add_assoc, Nat.add_comm 1]

/-- Making shards releases, of the shard held before and of them, all but the last, in order (R214). -/
theorem released_eq (st : Byte) (fr : U64) {i : Nat} {held : Option (Byte × Bytes)} (xs : List (Byte × Bytes))
    (made : held.toList.length ≤ i) :
    released st fr i held xs = shardPackets st fr (i - held.toList.length) (held.toList ++ xs).dropLast := by
  induction xs generalizing i held with
  | nil => cases held <;> rfl
  | cons x xs ih =>
    have rest := ih (i := i + 1) (held := some x) (Nat.le_add_left ..)
    cases held with
    | none => exact rest
    | some h =>
      have next : i - 1 + 1 = i := Nat.sub_add_cancel made
      rw [released, rest]
      simp only [Option.toList_some, List.length_singleton, List.singleton_append, List.dropLast_cons_cons,
        shardPackets_cons, next, Nat.add_sub_cancel]

theorem ShardsMade.sends {s t : State} {n j : Nat} {ds : List Bytes} (made : ShardsMade s t n j ds)
    (inv : FrameInv s.params s.fs) {held : Option (Byte × Bytes)} (h : Holds s held) :
    t.output = s.output ++ shardPackets s.fs.streamIdx s.fs.frameIdx (s.fs.nextIdx.toNat - held.toList.length)
      (held.toList ++ numberedShards n j ds).dropLast := by
  rw [← released_eq _ _ _ (h.length_le inv)]
  cases held with
  | none =>
    have sent := made.sent [] (fun valid => by rw [h.valid] at valid; cases valid)
    rwa [h.valid] at sent
  | some x =>
    obtain ⟨flags, row⟩ := h.shard x rfl
    have sent := made.sent x.2 (fun _ => row)
    rwa [h.valid, flags] at sent

theorem openFrame_holds {s : State} {st : Byte} {fr : U64} (h : ShardInv s.params s.fs)
    (same_frame : s.fs.isOpen = true → fr = s.fs.frameIdx ∧ st = s.fs.streamIdx) {held : Option (Byte × Bytes)}
    (holds : Holds s held) : Holds (s.openFrame st fr) held := by
  obtain ⟨same, -⟩ := openFrame_keeps h st fr
  have fs := openFrame_fs h same_frame
  refine ⟨by rw [fs]; exact holds.valid, fun x hx => ?_⟩
  obtain ⟨flags, row⟩ := holds.shard x hx
  have is_open : s.fs.isOpen = true := (h.held (by rw [holds.valid, hx]; rfl)).1
  simp only [RowIs, State.rowBase, fs, same.params, if_pos is_open]
  exact ⟨flags, row⟩

/-- The shards of a push but the last, as they go out on TX (R211, R217). -/
theorem shardPackets_pieces_dropLast (st : Byte) (fr : U64) (i mp : Nat) (data : Bytes) :
    shardPackets st fr i (numberedShards (shardCount data.length mp) 0 (pieces mp data)).dropLast =
      (List.range (shardCount data.length mp - 1)).map (fun j => .tx .data 0
        (dataPacket st fr (i + j) (if j = 0 then 0x01 else 0x00) [] (pieceAt mp data j))) := by
  apply List.ext_getElem
  · simp [shardPackets, pieces_length]
  · intro j hj hj'
    rw [List.length_map, List.length_range] at hj'
    have more : j + 1 < shardCount data.length mp := by omega
    simp [shardPackets, numberedShards, pieces_getElem, sliceFlags_of_not_last more]

/-- What a push releases: the shard held before if it makes any, and its own but the last (R211, R214). -/
theorem shardPackets_push (st : Byte) (fr : U64) {base : Nat} {held : Option (Byte × Bytes)} (mp : Nat) (data : Bytes)
    (made : held.toList.length ≤ base) :
    shardPackets st fr (base - held.toList.length)
        (held.toList ++ numberedShards (shardCount data.length mp) 0 (pieces mp data)).dropLast =
      (if 0 < shardCount data.length mp then shardPackets st fr (base - held.toList.length) held.toList else []) ++
        (List.range (shardCount data.length mp - 1)).map (fun j => .tx .data 0
          (dataPacket st fr (base + j) (if j = 0 then 0x01 else 0x00) [] (pieceAt mp data j))) := by
  rw [← shardPackets_pieces_dropLast]
  split
  case isTrue some_made =>
    have nonempty : numberedShards (shardCount data.length mp) 0 (pieces mp data) ≠ [] := by
      rw [← List.length_pos_iff, numberedShards_length, pieces_length]
      exact some_made
    rw [List.dropLast_append_of_ne_nil nonempty]
    cases held with
    | none => rfl
    | some x =>
      have next : base - 1 + 1 = base := Nat.sub_add_cancel made
      simp only [Option.toList_some, List.length_singleton, List.singleton_append, shardPackets_cons, next]
      rfl
  case isFalse none_made =>
    have empty : pieces mp data = [] := List.length_eq_zero_iff.mp (by rw [pieces_length]; omega)
    rw [empty]
    cases held <;> rfl

/-- Settles O42: the shard held before, and of the shards made all but the last. -/
theorem pushReleasesAllButTheLast : Obligations.PushReleasesAllButTheLast := by
  intro s st fr mp data base n inv nonzero mp_le same_frame base_eq n_eq room
  obtain rfl : n = shardCount data.length mp.toNat := n_eq
  have accepted : s.pushAccepted st fr mp data.length = true :=
    pushAccepted_iff.mpr ⟨nonzero, mp_le, same_frame, by rwa [← base_eq]⟩
  obtain ⟨t, runs, made, -⟩ := fsPush_makes inv accepted
  obtain ⟨same, silent, -, -, frame⟩ := openFrame_keeps inv.shards st fr
  have fs := openFrame_fs inv.shards same_frame
  have start : base = s.fs.nextIdx.toNat := base_eq.trans (pushBase_eq_nextIdx inv.shards)
  obtain ⟨held, holds⟩ := exists_holds (frameInv_of_shardInv inv.shards)
  have sent := made.sends (by rwa [same.params]) (openFrame_holds inv.shards same_frame holds)
  simp only [silent, fs, ← start] at sent
  rw [shardPackets_push st fr _ _ (start ▸ holds.length_le (frameInv_of_shardInv inv.shards))] at sent
  refine ⟨_, (held.elim [] Prod.snd), runs, fun valid => ?row, ?sent⟩
  case row =>
    obtain ⟨x, rfl⟩ := Option.isSome_iff_exists.mp (holds.valid.symm.trans valid)
    rw [start]
    exact (holds.shard x rfl).2
  case sent =>
    have answer : releasedCount (s.openFrame st fr).fs.heldValid (shardCount data.length mp.toNat) =
        releasedCount s.fs.heldValid (shardCount data.length mp.toNat) := by rw [fs]
    rw [respond_output, sent, answer, ← List.append_assoc]
    congr 3
    cases held with
    | none => simp [holds.valid, shardPackets]
    | some x =>
      rw [(holds.shard x rfl).1]
      simp [holds.valid, shardPackets]

end Sys2Proof.Machine

/-! PROOF. What FS_FINAL sends and leaves (spec/43_frame_sharder.md R218 to R220, spec/44_fec_encoder.md R240, R242,
R250). -/

namespace Sys2Proof.Machine

open Sys2Proof.Safety

/-! ### The extra shard -/

/-- The index of the held shard (R44). -/
theorem lastIdx_toNat_of_held {s : State} (h : ShardInv s.params s.fs) (held : s.fs.heldValid = true) :
    s.fs.lastIdx.toNat = s.fs.nextIdx.toNat - 1 :=
  toNat_sub_one (Nat.sub_add_cancel (nextIdx_pos_of_held (frameInv_of_shardInv h) held)).symm

/-- Whether the frame has no shard yet, or its last has no room for the view_info (R219, R220). -/
theorem needsExtraShard_eq {s : State} (h : ShardInv s.params s.fs) :
    s.needsExtraShard = (!s.fs.heldValid ||
      decide (s.params.protoMaxPayload < (s.fs.rowlen.at (s.fs.nextIdx.toNat - 1)).toNat + (8 + s.params.poseBytes))) := by
  rw [State.needsExtraShard, Params.viewBytes]
  cases held : s.fs.heldValid with
  | false => rfl
  | true => rw [lastIdx_toNat_of_held h held]

theorem extraPayloads_of_needed {s : State} (h : s.needsExtraShard = true) : extraPayloads s = [[]] := if_pos h

theorem extraPayloads_length (s : State) : (extraPayloads s).length = if s.needsExtraShard then 1 else 0 := by
  rw [extraPayloads]
  split <;> rfl

/-- The extra shard is empty: its row has length 0, and nothing is written to STORE (R219). -/
theorem extraShard_rows {s u : State} (wf : Memory.wf s.fs.store) (h : s.extraShard = .ok u) :
    u.params = s.params ∧ u.fs.store = s.fs.store ∧ ∀ i, u.fs.rowlen.at i =
      if s.needsExtraShard = true ∧ i = s.fs.nextIdx.toNat then 0 else s.fs.rowlen.at i := by
  obtain ⟨enough, rfl⟩ | ⟨extra, made⟩ := extraShard_eq_ok h
  · exact ⟨rfl, rfl, fun i => by simp [enough]⟩
  · obtain ⟨params, fs⟩ := newShard_fs made
    rw [fs]
    refine ⟨params, Cells.write_nil wf _, fun i => ?_⟩
    simp only [extra, true_and]
    exact RowLens.at_set ..

/-- The shards before the extra one are as they were. -/
theorem rowIs_before_extraShard {s u : State} (wf : Memory.wf s.fs.store) (h : s.extraShard = .ok u) {i : Nat} {x : Bytes}
    (before : i < s.fs.nextIdx.toNat) (row : RowIs u i x) : RowIs s i x := by
  obtain ⟨params, store, rowlen⟩ := extraShard_rows wf h
  have not_new : ¬(s.needsExtraShard = true ∧ i = s.fs.nextIdx.toNat) := fun new => Nat.ne_of_lt before new.2
  rwa [RowIs, State.rowBase, params, store, rowlen, if_neg not_new] at row

theorem rowIs_extraShard {s u : State} (made : ShardsMade s u 1 0 (extraPayloads s)) (needed : s.needsExtraShard = true) :
    RowIs u s.fs.nextIdx.toNat [] := by
  rw [extraPayloads_of_needed needed] at made
  exact made.made 0 Nat.one_pos

/-- The extra shard releases the one that was held (R214, R219). -/
theorem extraShard_sends {s u : State} (made : ShardsMade s u 1 0 (extraPayloads s)) {held : Bytes}
    (row : s.fs.heldValid = true → RowIs s (s.fs.nextIdx.toNat - 1) held) :
    u.output = s.output ++
      if s.needsExtraShard = true ∧ s.fs.heldValid = true then [.tx .data 0 (dataPacket s.fs.streamIdx s.fs.frameIdx
        (s.fs.nextIdx.toNat - 1) s.fs.heldFlags [] held)] else [] := by
  rw [made.sent held row]
  congr 1
  cases needs : s.needsExtraShard with
  | false => cases valid : s.fs.heldValid <;> simp [extraPayloads, needs, released]
  | true => cases valid : s.fs.heldValid <;> simp [extraPayloads_of_needed needs, released]

theorem extraShard_flags {s u : State} (made : ShardsMade s u 1 0 (extraPayloads s)) :
    u.fs.heldFlags = if s.needsExtraShard then 0x03 else s.fs.heldFlags := by
  rw [made.heldFlags, extraPayloads_length]
  split <;> rfl

/-! ### Parity -/

theorem parityCount_eq (k : Nat) : parityCount k = max 1 ((k + 19) / 20) := by
  simp [parityCount, ceilDiv, Config.fecMin, Config.fecNum, Config.fecDen]

/-- The PARITY packets, where the counts fit their fields (R118). -/
theorem parityPackets_eq (st : Byte) (fr : U64) {k p : Nat} (k_fits : k < 2 ^ 32) (p_fits : p < 2 ^ 32)
    (rows : List Bytes) :
    parityPackets st fr k p rows = rows.mapIdx (fun j row => .tx .parity j (parityPacket st fr k p row)) := by
  simp only [parityPackets, ParityShard.serialize, parityPacket, le64, le32, BitVec.toNat_ofNat, Nat.mod_eq_of_lt k_fits,
    Nat.mod_eq_of_lt p_fits]

theorem eq_ok_of_byte {st : Status} (h : st.byte = 0x00) : st = .ok := by
  cases st with
  | ok => rfl
  | _ => cases h

/-- FS_FINAL of the frame in flight makes its extra shard and ends the frame (R218). -/
theorem exec_fsFinal_of_finish {s u s2 t : State} {dt : I64} {pose : Bytes} (is_open : s.fs.isOpen = true)
    (adds : s.extraShard = .ok u) (release : u.markEndOfFrame.releaseHeld (some ⟨dt, pose⟩) = .ok s2)
    (finish : s2.finishFrame = .ok t) : exec (.fsFinal s.fs.frameIdx dt pose) s = .next t := by
  simp only [exec, execFsFinal, is_open, decide_true, Bool.and_self, if_true, State.final, adds, release, finish, ofExcept]

/-- Settles O46: the extra shard, then the end of a frame whose rows can all be read. -/
theorem finalEndsTheFrame : Obligations.FinalEndsTheFrame := by
  intro s dt pose next k p extra inv is_open next_eq extra_eq k_eq p_eq
  have wf := inv.shards.store_wf
  obtain ⟨u, adds, made, some_made⟩ := extraShard_makes inv
  obtain ⟨-, store, rowlen⟩ := extraShard_rows wf adds
  obtain rfl : extra = s.needsExtraShard := by rw [extra_eq, next_eq, needsExtraShard_eq inv.shards]
  have count : u.fs.nextIdx.toNat = k := by rw [made.nextIdx, extraPayloads_length, k_eq, next_eq]
  obtain ⟨s2, t, payloads, rows, len, status, fieldBits, release, finish, same, fs, payload_count, row, max, longest,
    coded, answered, output⟩ :=
      finish_of u k count (count ▸ some_made) made.frame.store_wf (count ▸ made.frame.rows) ⟨dt, pose⟩
  rw [parityCount_eq, ← p_eq] at coded answered output
  have reads : ∀ i, i < k → payloads[i]? = some (payloads.getD i []) := fun i hi => by
    rw [← payload_count] at hi
    rw [List.getD_eq_getElem?_getD, List.getElem?_eq_getElem hi, Option.getD_some]
  have old : ∀ i x, i < next → payloads[i]? = some x → RowIs s i x := fun i x before here =>
    rowIs_before_extraShard wf adds (next_eq ▸ before) (row i x here)
  have empty : s.needsExtraShard = true → payloads[next]? = some [] := by
    intro needed
    have here := reads next (by rw [k_eq, if_pos needed]; exact Nat.lt_succ_self _)
    rw [here, rowIs_unique (row next _ here) (next_eq ▸ rowIs_extraShard made needed)]
  have sent := extraShard_sends made (held := payloads.getD (next - 1) []) fun held => by
    have := nextIdx_pos_of_held (frameInv_of_shardInv inv.shards) held
    exact next_eq ▸ old (next - 1) _ (by omega) (reads _ (by omega))
  refine ⟨t, payloads, rows, len, status.byte, fieldBits, exec_fsFinal_of_finish is_open adds release finish,
    ⟨same.params.trans made.same.params, same.cs.trans made.same.cs, same.sr.trans made.same.sr,
      same.input.trans made.same.input⟩, by rw [fs], by rw [fs], by rw [fs], by rw [fs], by rw [fs]; exact made.frameIdx,
    by rw [fs]; exact made.streamIdx, by rw [fs]; exact store, by rw [fs, next_eq]; exact rowlen, payload_count, old, empty,
    max, longest, ?coded, fun ok => answered (eq_ok_of_byte ok), ?output⟩
  case coded =>
    rw [made.same.params] at coded
    change match fecCoder s.params.coder k p len (payloads.map (padRow len)) with
      | none => _
      | some a => _
    cases answer : fecCoder s.params.coder k p len (payloads.map (padRow len)) with
    | none =>
      simp only [answer] at coded ⊢
      exact ⟨coded.1 ▸ rfl, coded.2⟩
    | some a =>
      simp only [answer] at coded ⊢
      exact ⟨coded.1 ▸ rfl, coded.2⟩
  case output =>
    have k_fits : k < 2 ^ 32 := count ▸ u.fs.nextIdx.isLt
    rw [output, sent, extraShard_flags made, made.frameIdx, made.streamIdx, parityPackets_eq _ _ k_fits (by omega), next_eq]
    rfl

end Sys2Proof.Machine

/-! PROOF. A whole frame on TX (spec/43_frame_sharder.md R213, R221, spec/44_fec_encoder.md R251): the shards made so far
are on TX, in order, but for the last, which is held. -/

namespace Sys2Proof.Machine

open Sys2Proof.Safety

/-! ### The DATA packets among outputs -/

theorem dataPackets_append (os os' : List PortOut) : dataPackets (os ++ os') = dataPackets os ++ dataPackets os' :=
  List.filterMap_append

theorem dataPackets_parityPackets (st : Byte) (fr : U64) (k p : Nat) (rows : List Bytes) :
    dataPackets (parityPackets st fr k p rows) = [] := by
  rw [dataPackets, List.filterMap_eq_nil_iff]
  intro o ho
  obtain ⟨j, _, rfl⟩ := List.mem_mapIdx.mp ho
  rfl

theorem dataPackets_shardPackets (st : Byte) (fr : U64) (i : Nat) (xs : List (Byte × Bytes)) :
    dataPackets (shardPackets st fr i xs) = xs.mapIdx (fun j x => dataPacket st fr (i + j) x.1 [] x.2) := by
  induction xs generalizing i with
  | nil => rfl
  | cons x xs ih =>
    rw [shardPackets_cons, List.mapIdx_cons]
    refine congrArg₂ _ rfl ((ih (i + 1)).trans ?_)
    simp only [Nat.add_assoc, Nat.add_comm 1]

/-! ### The frame so far -/

/-- A shard that a push makes: END_OF_FRAME is clear, and the payload is within the protocol's maximum (R211, R212). -/
def PlainShard (max : Nat) (x : Byte × Bytes) : Prop := x.1 &&& endOfFrame = 0 ∧ x.2.length ≤ max

/-- On the way from s to u the frame has got these shards: on TX are all but the last, which is held (R214, R221). -/
structure Carries (s u : State) (st : Byte) (fr : U64) (shards : List (Byte × Bytes)) : Prop where
  params : u.params = s.params
  frameIdx : u.fs.frameIdx = fr
  streamIdx : u.fs.streamIdx = st
  nextIdx : u.fs.nextIdx.toNat = shards.length
  holds : Holds u shards.getLast?
  plain : ∀ x ∈ shards, PlainShard s.params.protoMaxPayload x
  sent : ∃ new, u.output = s.output ++ new ∧
    dataPackets new = shards.dropLast.mapIdx (fun i x => dataPacket st fr i x.1 [] x.2)

theorem sliceFlags_not_endOfFrame (j n : Nat) : sliceFlags j n &&& endOfFrame = 0 := by
  rw [sliceFlags]
  split <;> split <;> decide

theorem plain_of_mem_numberedShards {max n j : Nat} {ds : List Bytes} (fit : ∀ d ∈ ds, d.length ≤ max)
    {x : Byte × Bytes} (h : x ∈ numberedShards n j ds) : PlainShard max x := by
  obtain ⟨k, hk, rfl⟩ := List.mem_mapIdx.mp h
  exact ⟨sliceFlags_not_endOfFrame _ _, fit _ (List.getElem_mem hk)⟩

theorem numberedShards_concat (n j : Nat) (ds : List Bytes) (d : Bytes) :
    numberedShards n j (ds ++ [d]) = numberedShards n j ds ++ [(sliceFlags (j + ds.length) n, d)] :=
  List.mapIdx_concat

/-- After shards are made, the last of them is held, or where there are none the shard held before (R214). -/
theorem ShardsMade.holds {s t : State} {n j : Nat} {ds : List Bytes} (made : ShardsMade s t n j ds)
    (inv : FrameInv s.params s.fs) {held : Option (Byte × Bytes)} (h : Holds s held) :
    Holds t (held.toList ++ numberedShards n j ds).getLast? := by
  rcases List.eq_nil_or_concat' ds with rfl | ⟨init, d, rfl⟩
  case inl =>
    have last : (held.toList ++ numberedShards n j []).getLast? = held := by cases held <;> rfl
    rw [last]
    refine ⟨by rw [made.heldValid, h.valid]; exact Bool.or_false _, fun x hx => ?_⟩
    obtain ⟨flags, row⟩ := h.shard x hx
    have one_made := h.length_le inv
    rw [hx, Option.toList_some, List.length_singleton] at one_made
    rw [made.heldFlags, made.nextIdx]
    exact ⟨flags, made.kept _ _ (Nat.sub_one_lt_of_lt one_made) row⟩
  case inr =>
    rw [numberedShards_concat, ← List.append_assoc, List.getLast?_concat]
    refine ⟨by rw [made.heldValid]; simp, fun x hx => ?_⟩
    cases hx
    have row := made.made init.length (by simp)
    rw [List.getElem_concat_length rfl] at row
    rw [made.heldFlags, made.nextIdx, List.length_append, List.length_singleton]
    exact ⟨if_neg (Nat.succ_ne_zero _), row⟩

/-- What is released when the shards xs follow those of which all but the last have been. -/
theorem dropLast_release (xs ys : List (Byte × Bytes)) (f : Nat → Byte × Bytes → Bytes) :
    xs.dropLast.mapIdx f ++
        (xs.getLast?.toList ++ ys).dropLast.mapIdx (fun j x => f (xs.length - xs.getLast?.toList.length + j) x) =
      (xs ++ ys).dropLast.mapIdx f := by
  rcases List.eq_nil_or_concat' xs with rfl | ⟨init, x, rfl⟩
  case inl => simp
  case inr =>
    have split : (init ++ [x] ++ ys).dropLast = init ++ ([x] ++ ys).dropLast := by
      rw [List.append_assoc, List.dropLast_append_of_ne_nil (by simp)]
    rw [split, List.mapIdx_append]
    simp [Nat.add_comm]

/-- What is held when the shards ys follow xs: the last of the ys, or the last of xs where there are none. -/
theorem getLast?_held (xs ys : List (Byte × Bytes)) : (xs ++ ys).getLast? = (xs.getLast?.toList ++ ys).getLast? := by
  rw [List.getLast?_append, List.getLast?_append]
  cases xs.getLast? <;> rfl

/-- More shards of the frame. -/
theorem Carries.more {s u t : State} {st : Byte} {fr : U64} {shards : List (Byte × Bytes)} {n j : Nat} {ds : List Bytes}
    (h : Carries s u st fr shards) (inv : FrameInv u.params u.fs) (made : ShardsMade u t n j ds)
    (fit : ∀ d ∈ ds, d.length ≤ s.params.protoMaxPayload) : Carries s t st fr (shards ++ numberedShards n j ds) where
  params := made.same.params.trans h.params
  frameIdx := made.frameIdx.trans h.frameIdx
  streamIdx := made.streamIdx.trans h.streamIdx
  nextIdx := by rw [made.nextIdx, h.nextIdx, List.length_append, numberedShards_length]
  holds := by
    rw [getLast?_held]
    exact made.holds inv h.holds
  plain := fun x hx => (List.mem_append.mp hx).elim (h.plain x) (plain_of_mem_numberedShards fit)
  sent := by
    obtain ⟨new, output, packets⟩ := h.sent
    refine ⟨_, by rw [made.sends inv h.holds, output, List.append_assoc], ?_⟩
    rw [dataPackets_append, packets, dataPackets_shardPackets, h.frameIdx, h.streamIdx, h.nextIdx]
    exact dropLast_release shards _ _

/-- A response is no shard. -/
theorem Carries.respond {s u : State} {st : Byte} {fr : U64} {shards : List (Byte × Bytes)} (h : Carries s u st fr shards)
    (status : Status) (r : Bytes) : Carries s (u.respond status r) st fr shards where
  params := h.params
  frameIdx := h.frameIdx
  streamIdx := h.streamIdx
  nextIdx := h.nextIdx
  holds := ⟨h.holds.valid, h.holds.shard⟩
  plain := h.plain
  sent := by
    obtain ⟨new, output, packets⟩ := h.sent
    refine ⟨_, by rw [respond_output, output, List.append_assoc], ?_⟩
    rw [dataPackets_append, packets]
    exact List.append_nil _

/-- A push to a closed frame context begins with a frame that has no shard (R210). -/
theorem carries_openFrame {s : State} (closed : s.fs.isOpen = false) (st : Byte) (fr : U64) :
    Carries s (s.openFrame st fr) st fr [] := by
  rw [openFrame_of_closed closed]
  exact ⟨rfl, rfl, rfl, rfl, ⟨rfl, fun _ hx => nomatch hx⟩, fun _ hx => absurd hx List.not_mem_nil,
    [], (List.append_nil _).symm, rfl⟩

/-! ### Its pushes -/

/-- The shards of one slice: flags and payloads (R211, R213). -/
def sliceShards (x : U32 × Bytes) : List (Byte × Bytes) :=
  numberedShards (shardCount x.2.length x.1.toNat) 0 (pieces x.1.toNat x.2)

theorem sliceShards_length (x : U32 × Bytes) : (sliceShards x).length = shardCount x.2.length x.1.toNat := by
  rw [sliceShards, numberedShards_length, pieces_length]

theorem sliceShards_payloads {x : U32 × Bytes} (nonzero : x.1 ≠ 0) :
    ((sliceShards x).map (fun y => y.2)).flatten = x.2 := by
  have positive : 0 < x.1.toNat := Nat.pos_of_ne_zero fun zero => nonzero (BitVec.eq_of_toNat_eq zero)
  rw [sliceShards, numberedShards_payloads, flatten_pieces positive]

/-- An accepted FS_PUSH adds the shards of its slice to the frame (R211, R213). -/
theorem carries_of_fsPush {s v : State} {st : Byte} {fr : U64} {x : U32 × Bytes} {shards : List (Byte × Bytes)}
    (inv : Inv v) (same_frame : v.fs.isOpen = true → fr = v.fs.frameIdx ∧ st = v.fs.streamIdx)
    (h : Carries s (v.openFrame st fr) st fr shards) (nonzero : x.1 ≠ 0) (mp_le : x.1.toNat ≤ s.params.protoMaxPayload)
    (room : shards.length + (sliceShards x).length + 1 ≤ s.params.fsMaxShards) :
    ∃ t, exec (.fsPush st fr x.1 x.2) v = .next t ∧ Inv t ∧ t.fs.isOpen = true ∧
      Carries s t st fr (shards ++ sliceShards x) := by
  obtain ⟨same, -, is_open, start, frame⟩ := openFrame_keeps inv.shards st fr
  have params : v.params = s.params := same.params.symm.trans h.params
  have accepted : v.pushAccepted st fr x.1 x.2.length = true := by
    refine pushAccepted_iff.mpr ⟨nonzero, by rwa [params], same_frame, ?_⟩
    rwa [← start, h.nextIdx, params, ← sliceShards_length]
  obtain ⟨u, runs, made, -⟩ := fsPush_makes inv accepted
  obtain ⟨t, runs', inv'⟩ := exec_fs_keeps_inv (i := .fsPush st fr x.1 x.2) rfl inv
  obtain rfl : _ = t := Host.Outcome.next.inj (runs.symm.trans runs')
  have carries := h.more (by rwa [same.params]) made fun d hd => (length_le_of_mem_pieces hd).trans mp_le
  exact ⟨_, runs, inv', made.isOpen.trans is_open, carries.respond _ _⟩

/-- The pushes of a frame, slice by slice. -/
theorem carries_of_fsPushes {s v : State} {st : Byte} {fr : U64} {slices : List (U32 × Bytes)}
    {shards : List (Byte × Bytes)} (inv : Inv v)
    (same_frame : v.fs.isOpen = true → fr = v.fs.frameIdx ∧ st = v.fs.streamIdx)
    (h : Carries s (v.openFrame st fr) st fr shards)
    (bounds : ∀ x ∈ slices, x.1 ≠ 0 ∧ x.1.toNat ≤ s.params.protoMaxPayload)
    (room : shards.length + (slices.map (fun x => (sliceShards x).length)).sum + 1 ≤ s.params.fsMaxShards)
    (opens : v.fs.isOpen = true ∨ slices ≠ []) (rest : List Instr) :
    ∃ t, execAll (slices.map (fun x => .fsPush st fr x.1 x.2) ++ rest) v = execAll rest t ∧ Inv t ∧
      t.fs.isOpen = true ∧ Carries s t st fr (shards ++ slices.flatMap sliceShards) := by
  induction slices generalizing v shards with
  | nil =>
    have is_open := opens.resolve_right (fun some_left => some_left rfl)
    rw [openFrame_of_open is_open] at h
    exact ⟨v, rfl, inv, is_open, by rwa [List.flatMap_nil, List.append_nil]⟩
  | cons x xs ih =>
    rw [List.map_cons, List.sum_cons] at room
    obtain ⟨nonzero, mp_le⟩ := bounds x List.mem_cons_self
    obtain ⟨u, runs, inv', is_open, carries⟩ := carries_of_fsPush inv same_frame h nonzero mp_le (by omega)
    obtain ⟨t, others, done⟩ := ih inv' (fun _ => ⟨carries.frameIdx.symm, carries.streamIdx.symm⟩)
      (by rwa [openFrame_of_open is_open]) (fun y hy => bounds y (List.mem_cons_of_mem x hy))
      (by rw [List.length_append]; omega) (.inl is_open)
    rw [List.append_assoc] at done
    exact ⟨t, (execAll_cons_of_next runs _).trans others, done⟩

/-! ### Its end -/

theorem eq_nil_of_mem_extraPayloads {s : State} {d : Bytes} (h : d ∈ extraPayloads s) : d = [] := by
  rw [extraPayloads] at h
  split at h
  · exact List.mem_singleton.mp h
  · cases h

/-- The end of a frame sends its last shard, marked and with the view_info (R218), and no other DATA packet. -/
theorem carries_finish {s v : State} {st : Byte} {fr : U64} {shards : List (Byte × Bytes)} (inv : Inv v)
    (is_open : v.fs.isOpen = true) (h : Carries s v st fr shards) (dt : I64) (pose : Bytes) :
    ∃ (t : State) (new : List PortOut) (init : List (Byte × Bytes)) (last : Byte × Bytes),
      exec (.fsFinal fr dt pose) v = .next t ∧ t.output = s.output ++ new ∧
      shards ++ numberedShards 1 0 (extraPayloads v) = init ++ [last] ∧
      (∀ x ∈ init ++ [last], PlainShard s.params.protoMaxPayload x) ∧
      dataPackets new = init.mapIdx (fun i x => dataPacket st fr i x.1 [] x.2) ++
        [dataPacket st fr init.length (last.1 ||| endOfFrame) (le 8 dt.toNat ++ pose) last.2] := by
  obtain ⟨u, adds, made, some_made⟩ := extraShard_makes inv
  have carries := h.more (frameInv_of_shardInv inv.shards) made fun d hd => by
    rw [eq_nil_of_mem_extraPayloads hd]
    exact Nat.zero_le _
  generalize every : shards ++ numberedShards 1 0 (extraPayloads v) = all at carries
  have count := carries.nextIdx
  rcases List.eq_nil_or_concat' all with rfl | ⟨init, last, rfl⟩
  case inl => rw [count] at some_made; cases some_made
  case inr =>
    obtain ⟨s2, t, payloads, _, _, _, _, release, finish, -, -, payload_count, row, -, -, -, -, output⟩ :=
      finish_of u _ rfl some_made made.frame.store_wf made.frame.rows ⟨dt, pose⟩
    obtain ⟨new, sent, packets⟩ := carries.sent
    obtain ⟨flags, held⟩ := carries.holds.shard last List.getLast?_concat
    have payload : payloads.getD (u.fs.nextIdx.toNat - 1) [] = last.2 := by
      have inside : u.fs.nextIdx.toNat - 1 < payloads.length := by omega
      rw [List.getD_eq_getElem?_getD, List.getElem?_eq_getElem inside, Option.getD_some]
      exact rowIs_unique (row _ _ (List.getElem?_eq_getElem inside)) held
    have index : u.fs.nextIdx.toNat - 1 = init.length := by
      rw [count, List.length_append, List.length_singleton, Nat.add_sub_cancel]
    refine ⟨t, _, init, last, h.frameIdx ▸ exec_fsFinal_of_finish is_open adds release finish,
      by rw [output, sent, List.append_assoc, List.append_assoc, List.append_assoc], rfl, carries.plain, ?_⟩
    rw [dataPackets_append, packets, List.dropLast_concat, dataPackets_append, dataPackets_append,
      dataPackets_parityPackets, payload, index, flags, carries.frameIdx, carries.streamIdx]
    rfl

/-- The bytes of the slices, by their shards and then by what the extra shard holds (R213, R219). -/
theorem payloads_of_slices {slices : List (U32 × Bytes)} (nonzero : ∀ x ∈ slices, x.1 ≠ 0) (v : State) :
    ((slices.flatMap sliceShards ++ numberedShards 1 0 (extraPayloads v)).map (fun x => x.2)).flatten =
      (slices.map (fun x => x.2)).flatten := by
  induction slices with
  | nil =>
    rw [List.flatMap_nil, List.nil_append, numberedShards_payloads]
    exact List.flatten_eq_nil_iff.mpr fun _ hd => eq_nil_of_mem_extraPayloads hd
  | cons x xs ih =>
    rw [List.flatMap_cons, List.append_assoc, List.map_append, List.flatten_append,
      ih (fun y hy => nonzero y (List.mem_cons_of_mem x hy)), sliceShards_payloads (nonzero x List.mem_cons_self)]
    rfl

theorem endOfFrame_set : ∀ flags : Byte, (flags ||| endOfFrame) &&& endOfFrame = endOfFrame := by decide

/-- Settles O47: the pushes make the frame's shards, and its end marks and releases the last. -/
theorem frameCarriesItsBytes : Obligations.FrameCarriesItsBytes := by
  intro s st fr slices dt pose inv closed some_slices bounds room
  have counts : slices.map (fun x => (sliceShards x).length) =
      slices.map (fun x => (x.2.length + x.1.toNat - 1) / x.1.toNat) := List.map_congr_left fun x _ => sliceShards_length x
  obtain ⟨v, pushes, inv', is_open, carries⟩ := carries_of_fsPushes (shards := []) inv
    (fun opened => by simp [closed] at opened) (carries_openFrame closed st fr) bounds
    (by rwa [counts, List.length_nil, Nat.zero_add]) (.inr some_slices) [.fsFinal fr dt pose]
  obtain ⟨t, new, init, last, ends, output, every, plain, packets⟩ := carries_finish inv' is_open carries dt pose
  refine ⟨t, new, init ++ [(last.1 ||| endOfFrame, last.2)], pushes.trans (execAll_cons_of_next ends []), output, by simp,
    ?packets, fun i x here => ?bounded, ?joined⟩
  case packets =>
    rw [packets, List.mapIdx_concat, List.length_append, List.length_singleton, if_pos rfl]
    congr 1
    refine List.mapIdx_eq_mapIdx_iff.mpr fun i hi => ?_
    rw [if_neg (by omega)]
  case bounded =>
    rw [List.length_append, List.length_singleton]
    by_cases before : i < init.length
    · rw [List.getElem?_append_left before] at here
      rw [if_neg (by omega)]
      exact plain x (List.mem_append_left _ (List.mem_of_getElem? here))
    · obtain ⟨inside, rfl⟩ := List.getElem?_eq_some_iff.mp here
      rw [List.length_append, List.length_singleton] at inside
      obtain rfl : i = init.length := by omega
      rw [if_pos rfl, List.getElem_concat_length rfl]
      exact ⟨endOfFrame_set _, (plain last (List.mem_append_right _ List.mem_cons_self)).2⟩
  case joined =>
    rw [← payloads_of_slices (fun x hx => (bounds x hx).1) v, ← List.nil_append (slices.flatMap sliceShards), every]
    simp

end Sys2Proof.Machine

/-! PROOF. The product of two field elements (spec/44_fec_encoder.md R244): it is linear in each factor, so its laws need
only be shown of the powers of two, which are the doublings of 1. -/

namespace Sys2Proof.Machine

section Multiplication

variable {m : Nat}

/-! ### Bit vectors as sums of powers of two -/

/-- What holds of 0 and of each power of two, and of two vectors' exclusive or with them, holds of every bit vector. -/
theorem bitVec_induction {P : BitVec m → Prop} (zero : P 0#m) (xor : ∀ a b, P a → P b → P (a ^^^ b))
    (twoPow : ∀ i, i < m → P (BitVec.twoPow m i)) (a : BitVec m) : P a := by
  suffices below : ∀ n, n ≤ m → ∀ a : BitVec m, (∀ i, n ≤ i → a.getLsbD i = false) → P a from
    below m le_rfl a fun i hi => BitVec.getLsbD_of_ge a i hi
  intro n
  induction n with
  | zero =>
    intro _ a high
    obtain rfl : a = 0#m := BitVec.eq_of_getLsbD_eq fun i _ => by simp [high i (Nat.zero_le i)]
    exact zero
  | succ n ih =>
    intro hn a high
    cases top : a.getLsbD n with
    | false =>
      refine ih (by omega) a fun i hi => ?_
      rcases Nat.eq_or_lt_of_le hi with rfl | later
      · exact top
      · exact high i later
    | true =>
      have rest : P (a ^^^ BitVec.twoPow m n) := by
        refine ih (by omega) _ fun i hi => ?_
        rw [BitVec.getLsbD_xor, BitVec.getLsbD_twoPow]
        rcases Nat.eq_or_lt_of_le hi with rfl | later
        · simp [top, show n < m by omega]
        · simp [high i later, show n ≠ i by omega]
      have both := xor _ _ rest (twoPow n (by omega))
      rwa [BitVec.xor_assoc, BitVec.xor_self, BitVec.xor_zero] at both

theorem twoPow_zero : BitVec.twoPow m 0 = 1#m := by
  rw [BitVec.twoPow_eq, BitVec.shiftLeft_zero]

theorem twoPow_succ_ushiftRight {i : Nat} (hi : i + 1 < m) : BitVec.twoPow m (i + 1) >>> 1 = BitVec.twoPow m i :=
  BitVec.eq_of_getLsbD_eq fun j hj => by
    simp only [BitVec.getLsbD_ushiftRight, BitVec.getLsbD_twoPow]
    by_cases here : i = j
    · simp [here, Nat.add_comm]
      omega
    · simp [here, show i + 1 ≠ 1 + j by omega]

/-- A choice by the parity of two bits. -/
theorem ite_bne_eq_xor (p q : Bool) (a : BitVec m) :
    (if p ^^ q then a else 0#m) = (if p then a else 0#m) ^^^ (if q then a else 0#m) := by
  cases p <;> cases q <;> simp

/-! ### Doubling (R244) -/

/-- Doubling shifts, and subtracts POLY_m where a bit falls out. -/
theorem gfDouble_eq (a : BitVec m) :
    gfDouble a = a <<< 1 ^^^ if a.msb then (fieldPoly m).setWidth m else 0#m := by
  have top : (a.setWidth (m + 1) <<< 1).getLsbD m = a.msb := by
    cases m with
    | zero => simp [BitVec.of_length_zero]
    | succ n => simp [BitVec.msb_eq_getLsbD_last]
  have low : (a.setWidth (m + 1) <<< 1).setWidth m = a <<< 1 :=
    BitVec.eq_of_getLsbD_eq fun i hi => by simp [hi]
  simp only [gfDouble, top]
  split <;> simp [BitVec.setWidth_xor, low]

theorem gfDouble_xor (a b : BitVec m) : gfDouble (a ^^^ b) = gfDouble a ^^^ gfDouble b := by
  simp only [gfDouble_eq, BitVec.shiftLeft_xor_distrib, BitVec.msb_xor, ite_bne_eq_xor]
  ac_rfl

theorem gfDouble_zero : gfDouble 0#m = 0#m := by
  have twice := gfDouble_xor 0#m 0#m
  rwa [BitVec.xor_self, BitVec.xor_self] at twice

theorem gfDouble_twoPow {i : Nat} (hi : i + 1 < m) : gfDouble (BitVec.twoPow m i) = BitVec.twoPow m (i + 1) := by
  have no_overflow : (BitVec.twoPow m i).msb = false := by
    rw [BitVec.msb_twoPow]
    simp
    omega
  rw [gfDouble_eq, no_overflow]
  simp [BitVec.twoPow_eq, ← BitVec.shiftLeft_add]

/-- The powers of two are the doublings of 1. -/
theorem gfDouble_iterate_one {i : Nat} (hi : i < m) : gfDouble^[i] (1#m) = BitVec.twoPow m i := by
  induction i with
  | zero => exact twoPow_zero.symm
  | succ i ih => rw [Function.iterate_succ_apply', ih (by omega), gfDouble_twoPow hi]

/-! ### Multiplication is linear (R244) -/

theorem gmul_eq (a b : BitVec m) : gmul a b = gmulLoop m a b 0#m := rfl

/-- A round adds a where the bit is set. -/
theorem gmulLoop_succ (n : Nat) (a b r : BitVec m) :
    gmulLoop (n + 1) a b r = gmulLoop n (gfDouble a) (b >>> 1) (r ^^^ if b.getLsbD 0 then a else 0#m) := by
  rw [gmulLoop]
  split <;> simp

theorem gmulLoop_xor_left (n : Nat) (a a' b r r' : BitVec m) :
    gmulLoop n (a ^^^ a') b (r ^^^ r') = gmulLoop n a b r ^^^ gmulLoop n a' b r' := by
  induction n generalizing a a' b r r' with
  | zero => rfl
  | succ n ih =>
    have term : (if b.getLsbD 0 then a ^^^ a' else 0#m) =
        (if b.getLsbD 0 then a else 0#m) ^^^ (if b.getLsbD 0 then a' else 0#m) := by split <;> simp
    simp only [gmulLoop_succ, gfDouble_xor, ← ih, term]
    congr 1
    ac_rfl

theorem gmulLoop_xor_right (n : Nat) (a b b' r r' : BitVec m) :
    gmulLoop n a (b ^^^ b') (r ^^^ r') = gmulLoop n a b r ^^^ gmulLoop n a b' r' := by
  induction n generalizing a b b' r r' with
  | zero => rfl
  | succ n ih =>
    simp only [gmulLoop_succ, BitVec.ushiftRight_xor_distrib, ← ih, BitVec.getLsbD_xor, ite_bne_eq_xor]
    congr 1
    ac_rfl

theorem gmulLoop_gfDouble (n : Nat) (a b r : BitVec m) :
    gmulLoop n (gfDouble a) b (gfDouble r) = gfDouble (gmulLoop n a b r) := by
  induction n generalizing a b r with
  | zero => rfl
  | succ n ih =>
    simp only [gmulLoop, ← ih]
    congr 1
    split
    · rw [gfDouble_xor]
    · rfl

theorem xor_gmul (a b c : BitVec m) : gmul (a ^^^ b) c = gmul a c ^^^ gmul b c := by
  simpa only [gmul_eq, BitVec.xor_self] using gmulLoop_xor_left m a b c 0#m 0#m

theorem gmul_xor (a b c : BitVec m) : gmul a (b ^^^ c) = gmul a b ^^^ gmul a c := by
  simpa only [gmul_eq, BitVec.xor_self] using gmulLoop_xor_right m a b c 0#m 0#m

theorem gfDouble_gmul (a b : BitVec m) : gmul (gfDouble a) b = gfDouble (gmul a b) := by
  simpa only [gmul_eq, gfDouble_zero] using gmulLoop_gfDouble m a b 0#m

theorem zero_gmul (a : BitVec m) : gmul 0#m a = 0#m := by
  simpa only [BitVec.xor_self] using xor_gmul 0#m 0#m a

theorem gmul_zero (a : BitVec m) : gmul a 0#m = 0#m := by
  simpa only [BitVec.xor_self] using gmul_xor a 0#m 0#m

/-! ### Multiplication by a power of two -/

theorem gmulLoop_zero_right (n : Nat) (a r : BitVec m) : gmulLoop n a 0#m r = r := by
  induction n generalizing a with
  | zero => rfl
  | succ n ih =>
    rw [gmulLoop_succ, BitVec.zero_ushiftRight, BitVec.getLsbD_zero, if_neg Bool.false_ne_true, BitVec.xor_zero, ih]

theorem gmulLoop_twoPow {n i : Nat} (a : BitVec m) (hn : i < n) (hm : i < m) :
    gmulLoop n a (BitVec.twoPow m i) 0#m = gfDouble^[i] a := by
  induction n generalizing i a with
  | zero => omega
  | succ n ih =>
    rw [gmulLoop_succ, BitVec.getLsbD_twoPow]
    cases i with
    | zero =>
      have gone : BitVec.twoPow m 0 >>> 1 = 0#m :=
        BitVec.eq_of_getLsbD_eq fun j _ => by simp; omega
      rw [gone, gmulLoop_zero_right]
      simp [hm]
    | succ i =>
      rw [twoPow_succ_ushiftRight hm, Function.iterate_succ_apply, ← ih (gfDouble a) (by omega) (by omega)]
      simp

/-- A power of two doubles as often as its exponent says. -/
theorem gmul_twoPow {i : Nat} (a : BitVec m) (hi : i < m) : gmul a (BitVec.twoPow m i) = gfDouble^[i] a :=
  gmulLoop_twoPow a hi hi

/-! ### The laws of a commutative ring (R244) -/

theorem gmul_comm (a b : BitVec m) : gmul a b = gmul b a := by
  induction b using bitVec_induction with
  | zero => rw [gmul_zero, zero_gmul]
  | xor b c hb hc => rw [gmul_xor, xor_gmul, hb, hc]
  | twoPow j hj =>
    induction a using bitVec_induction with
    | zero => rw [gmul_zero, zero_gmul]
    | xor a c ha hc => rw [gmul_xor, xor_gmul, ha, hc]
    | twoPow i hi =>
      rw [gmul_twoPow _ hj, gmul_twoPow _ hi, ← gfDouble_iterate_one hi, ← gfDouble_iterate_one hj,
        ← Function.iterate_add_apply, ← Function.iterate_add_apply, Nat.add_comm]

theorem gmul_gfDouble (a b : BitVec m) : gmul a (gfDouble b) = gfDouble (gmul a b) := by
  rw [gmul_comm, gfDouble_gmul, gmul_comm]

theorem gmul_assoc (a b c : BitVec m) : gmul (gmul a b) c = gmul a (gmul b c) := by
  induction c using bitVec_induction with
  | zero => simp only [gmul_zero]
  | xor c d hc hd => simp only [gmul_xor, hc, hd]
  | twoPow i hi =>
    have doubles : Function.Semiconj (gmul a) gfDouble gfDouble := gmul_gfDouble a
    rw [gmul_twoPow _ hi, gmul_twoPow _ hi, (doubles.iterate_right i).eq]

theorem gmul_one (a : BitVec m) : gmul a 1#m = a := by
  rcases Nat.eq_zero_or_pos m with rfl | pos
  · exact Subsingleton.elim ..
  · rw [← twoPow_zero, gmul_twoPow a pos, Function.iterate_zero_apply]

end Multiplication

/-- Settles O52. -/
theorem fieldMultiplicationDistributes : Obligations.FieldMultiplicationDistributes :=
  ⟨fun a b c => ⟨gmul_xor a b c, xor_gmul b c a⟩, fun a b c => ⟨gmul_xor a b c, xor_gmul b c a⟩⟩

end Sys2Proof.Machine

/-! PROOF. The bit vectors of 8 and of 16 bits are fields, and `ginv` is their inverse (spec/44_fec_encoder.md R244,
R245): every nonzero element is a power of 2. -/

namespace Sys2Proof.Machine

/-- R is the ring whose elements are the bit vectors of m bits: its sum is the exclusive or, its product is `gmul`. -/
structure IsGfRing {m : Nat} {R : Type} [CommRing R] (φ : BitVec m → R) : Prop where
  bijective : Function.Bijective φ
  map_xor : ∀ a b, φ (a ^^^ b) = φ a + φ b
  map_gmul : ∀ a b, φ (gmul a b) = φ a * φ b
  map_one : φ 1#m = 1

/-- The ring of R244 on the bit vectors themselves; each is its own negative. -/
@[reducible] def gfCommRing (m : Nat) : CommRing (BitVec m) :=
  @CommRing.ofMinimalAxioms (BitVec m) ⟨fun a b => a ^^^ b⟩ ⟨gmul⟩ ⟨id⟩ ⟨0#m⟩ ⟨1#m⟩
    BitVec.xor_assoc (fun _ => BitVec.zero_xor) (fun _ => BitVec.xor_self) gmul_assoc gmul_comm
    (fun a => (gmul_comm _ a).trans (gmul_one a)) gmul_xor

/-- There is such a ring, whose operations do not get mixed up with the arithmetic of bit vectors. -/
theorem exists_gfRing (m : Nat) : ∃ (R : Type) (_ : CommRing R) (φ : BitVec m → R), IsGfRing φ :=
  ⟨BitVec m, gfCommRing m, id,
    @IsGfRing.mk m (BitVec m) (gfCommRing m) id Function.bijective_id (fun _ _ => rfl) (fun _ _ => rfl) rfl⟩

namespace IsGfRing

section
variable {m : Nat} {R : Type} [CommRing R] {φ : BitVec m → R}

theorem map_zero (h : IsGfRing φ) : φ 0#m = 0 := by
  have twice := h.map_xor 0#m 0#m
  rwa [BitVec.xor_self, left_eq_add] at twice

theorem map_eq_zero_iff (h : IsGfRing φ) (a : BitVec m) : φ a = 0 ↔ a = 0#m := by
  rw [← h.map_zero, h.bijective.injective.eq_iff]

/-- Every element is its own negative. -/
theorem map_xor_eq_sub (h : IsGfRing φ) (a b : BitVec m) : φ (a ^^^ b) = φ a - φ b := by
  rw [eq_sub_iff_add_eq, ← h.map_xor, BitVec.xor_assoc, BitVec.xor_self, BitVec.xor_zero]

/-- Square-and-multiply gives the power (R245). -/
theorem map_gpow (h : IsGfRing φ) {n : Nat} (a : BitVec m) {e : Nat} (he : e < 2 ^ n) : φ (gpow n a e) = φ a ^ e := by
  induction n generalizing a e with
  | zero =>
    obtain rfl : e = 0 := by omega
    rw [gpow, h.map_one, pow_zero]
  | succ n ih =>
    have half := ih (gmul a a) (e := e / 2) (by rw [Nat.pow_succ] at he; omega)
    rw [h.map_gmul, ← pow_two, ← pow_mul] at half
    rw [gpow]
    split
    case isTrue odd => rw [h.map_gmul, half, ← pow_succ', show 2 * (e / 2) + 1 = e by omega]
    case isFalse even => rw [half, show 2 * (e / 2) = e by omega]

end

end IsGfRing

/-! ### The powers of 2 -/

/-- The powers of the element 2 have period 2^m - 1, and no shorter one. -/
def TwoGenerates (m : Nat) : Prop :=
  gpow m 2#m (2 ^ m - 1) = 1#m ∧ ∀ q : Nat, q.Prime → q ∣ 2 ^ m - 1 → gpow m 2#m ((2 ^ m - 1) / q) ≠ 1#m

/-- It suffices to try the prime factors of 2^m - 1. -/
theorem twoGenerates_of_factors {m : Nat} (factors : List Nat) (prime : ∀ q ∈ factors, q.Prime)
    (product : factors.prod = 2 ^ m - 1) (period : gpow m 2#m (2 ^ m - 1) = 1#m)
    (no_shorter : ∀ q ∈ factors, gpow m 2#m ((2 ^ m - 1) / q) ≠ 1#m) : TwoGenerates m := by
  refine ⟨period, fun q q_prime dvd => no_shorter q ?_⟩
  exact mem_list_primes_of_dvd_prod q_prime.prime (fun r hr => (prime r hr).prime) (product ▸ dvd)

theorem twoGenerates_8 : TwoGenerates 8 :=
  twoGenerates_of_factors [3, 5, 17] (by norm_num) (by decide) (by decide +kernel) (by decide +kernel)

theorem twoGenerates_16 : TwoGenerates 16 :=
  twoGenerates_of_factors [3, 5, 17, 257] (by norm_num) (by decide) (by decide +kernel) (by decide +kernel)

theorem TwoGenerates.two_le {m : Nat} (gen : TwoGenerates m) : 2 ≤ 2 ^ m := by
  have pos : m ≠ 0 := by
    rintro rfl
    exact gen.2 2 Nat.prime_two (by decide) (Subsingleton.elim ..)
  exact Nat.pow_le_pow_right (n := 2) Nat.two_pos (Nat.one_le_iff_ne_zero.mpr pos)

namespace IsGfRing

section
variable {m : Nat} {R : Type} [CommRing R] {φ : BitVec m → R}

theorem orderOf_two (h : IsGfRing φ) (gen : TwoGenerates m) : orderOf (φ 2#m) = 2 ^ m - 1 := by
  have two_le := gen.two_le
  refine orderOf_eq_of_pow_and_pow_div_prime (by omega) ?_ fun q prime dvd => ?_
  · rw [← h.map_gpow (n := m) _ (by omega), gen.1, h.map_one]
  · have below : (2 ^ m - 1) / q < 2 ^ m := Nat.lt_of_le_of_lt (Nat.div_le_self ..) (by omega)
    rw [← h.map_gpow _ below, ← h.map_one]
    exact fun same => gen.2 q prime dvd (h.bijective.injective same)

theorem two_pow_period (h : IsGfRing φ) (gen : TwoGenerates m) : φ 2#m ^ (2 ^ m - 1) = 1 :=
  h.orderOf_two gen ▸ pow_orderOf_eq_one _

/-- The 2^m - 1 powers of 2 are not 0 and differ, so every element other than 0 is one of them. -/
theorem exists_two_pow_eq (h : IsGfRing φ) (gen : TwoGenerates m) {x : R} (nonzero : x ≠ 0) : ∃ i, φ 2#m ^ i = x := by
  classical
  have two_le := gen.two_le
  have : Nontrivial R := nontrivial_of_ne x 0 nonzero
  have : Fintype R := .ofBijective φ h.bijective
  have count : (Finset.univ.erase (0 : R)).card = 2 ^ m - 1 := by
    rw [Finset.card_erase_of_mem (Finset.mem_univ _), Finset.card_univ, ← Fintype.card_of_bijective h.bijective,
      ← FinEnum.card_eq_fintypeCard, FinEnum.card_bitVec]
  have unit : IsUnit (φ 2#m) := .of_pow_eq_one (h.two_pow_period gen) (by omega)
  have all : Set.SurjOn (φ 2#m ^ ·) (Finset.range (2 ^ m - 1)) (Finset.univ.erase (0 : R)) := by
    refine Finset.surjOn_of_injOn_of_card_le _ (fun i _ => ?_) ?_ (by rw [count, Finset.card_range])
    · simpa using (unit.pow i).ne_zero
    · rw [Finset.coe_range, ← h.orderOf_two gen]
      exact pow_injOn_Iio_orderOf
  obtain ⟨i, -, power⟩ := all (Finset.mem_coe.mpr (Finset.mem_erase.mpr ⟨nonzero, Finset.mem_univ x⟩))
  exact ⟨i, power⟩

theorem pow_eq_one (h : IsGfRing φ) (gen : TwoGenerates m) {x : R} (nonzero : x ≠ 0) : x ^ (2 ^ m - 1) = 1 := by
  obtain ⟨i, rfl⟩ := h.exists_two_pow_eq gen nonzero
  rw [← pow_mul, mul_comm, pow_mul, h.two_pow_period gen, one_pow]

/-- `ginv` is an inverse (R245). -/
theorem map_mul_map_ginv (h : IsGfRing φ) (gen : TwoGenerates m) {a : BitVec m} (nonzero : a ≠ 0#m) :
    φ a * φ (ginv a) = 1 := by
  have two_le := gen.two_le
  rw [ginv, h.map_gpow _ (by omega), ← pow_succ', show 2 ^ m - 2 + 1 = 2 ^ m - 1 by omega]
  exact h.pow_eq_one gen fun zero => nonzero ((h.map_eq_zero_iff a).mp zero)

end

end IsGfRing

/-! ### Inverses (R245) -/

/-- The bit vectors of m bits are the elements of a field. -/
theorem exists_gfField {m : Nat} (gen : TwoGenerates m) : ∃ (K : Type) (_ : Field K) (φ : BitVec m → K), IsGfRing φ := by
  obtain ⟨R, _, φ, h⟩ := exists_gfRing m
  have two_le := gen.two_le
  have zero_ne_one : φ 0#m ≠ φ 1#m := fun same => by
    have values := congrArg BitVec.toNat (h.bijective.injective same)
    rw [BitVec.toNat_ofNat, BitVec.toNat_ofNat, Nat.zero_mod, Nat.mod_eq_of_lt two_le] at values
    exact absurd values Nat.zero_ne_one
  have field : IsField R := by
    refine ⟨⟨_, _, zero_ne_one⟩, mul_comm, fun {x} nonzero => ?_⟩
    obtain ⟨a, rfl⟩ := h.bijective.surjective x
    exact ⟨_, h.map_mul_map_ginv gen fun zero => nonzero ((h.map_eq_zero_iff a).mpr zero)⟩
  exact ⟨R, field.toField, φ, h.bijective, h.map_xor, h.map_gmul, h.map_one⟩

theorem gmul_eq_one_iff {m : Nat} (gen : TwoGenerates m) {a : BitVec m} (nonzero : a ≠ 0#m) (b : BitVec m) :
    gmul a b = 1#m ↔ b = ginv a := by
  obtain ⟨K, _, φ, h⟩ := exists_gfField gen
  have inverse := h.map_mul_map_ginv gen nonzero
  rw [← h.bijective.injective.eq_iff, ← h.bijective.injective.eq_iff (a := b), h.map_gmul, h.map_one, ← inverse]
  exact mul_right_inj' fun zero => nonzero ((h.map_eq_zero_iff a).mp zero)

theorem IsGfRing.map_ginv {m : Nat} {K : Type} [Field K] {φ : BitVec m → K} (h : IsGfRing φ) (gen : TwoGenerates m)
    {a : BitVec m} (nonzero : a ≠ 0#m) : φ (ginv a) = (φ a)⁻¹ :=
  eq_inv_of_mul_eq_one_right (h.map_mul_map_ginv gen nonzero)

/-- Settles O51. -/
theorem fieldInverseIsUnique : Obligations.FieldInverseIsUnique :=
  fun _ b nonzero => gmul_eq_one_iff twoGenerates_8 nonzero b

/-- Settles O59. -/
theorem wordFieldInverseIsUnique : Obligations.WordFieldInverseIsUnique :=
  fun _ b nonzero => gmul_eq_one_iff twoGenerates_16 nonzero b

end Sys2Proof.Machine

/-! PROOF. The parity rows of the reference coder (spec/44_fec_encoder.md R246 to R249, R254): each symbol is the sum of
its column of the data rows, weighted by the coefficients of the Cauchy matrix. -/

namespace Sys2Proof.Machine

/-! ### Symbols of 16 bits (R246) -/

theorem bytes16_symbols16 : ∀ (n : Nat) (b : Bytes), b.length = 2 * n → bytes16 (symbols16 b) = b
  | 0, b, h => by rw [List.length_eq_zero_iff.mp (by omega : b.length = 0)]; rfl
  | n + 1, lo :: hi :: rest, h => by
    rw [symbols16, bytes16, BitVec.extractLsb'_append_eq_right, BitVec.extractLsb'_append_eq_left,
      bytes16_symbols16 n rest (by simp at h; omega)]
  | n + 1, [], h => by simp at h
  | n + 1, [_], h => by simp at h; omega

theorem symbols16_bytes16 (xs : List (BitVec 16)) : symbols16 (bytes16 xs) = xs := by
  induction xs with
  | nil => rfl
  | cons x xs ih =>
    have whole : x.extractLsb' 8 8 ++ x.extractLsb' 0 8 = x := BitVec.extractLsb'_append_extractLsb'
    rw [bytes16, symbols16, ih, whole]

theorem symbols16_getD : ∀ (n : Nat) (b : Bytes) (t : Nat), b.length = 2 * n → t < n →
    (symbols16 b).getD t 0 = b.getD (2 * t + 1) 0 ++ b.getD (2 * t) 0
  | n + 1, lo :: hi :: rest, 0, _, _ => rfl
  | n + 1, lo :: hi :: rest, t + 1, h, ht => symbols16_getD n rest t (by simp at h; omega) (by omega)
  | n + 1, [], t, h, _ => by simp at h
  | n + 1, [_], t, h, _ => by simp at h; omega

theorem bytes16_getElem? (xs : List (BitVec 16)) (t : Nat) :
    (bytes16 xs)[2 * t]? = xs[t]?.map (fun x => x.extractLsb' 0 8) ∧
      (bytes16 xs)[2 * t + 1]? = xs[t]?.map (fun x => x.extractLsb' 8 8) := by
  induction xs generalizing t with
  | nil => exact ⟨rfl, rfl⟩
  | cons x xs ih =>
    cases t with
    | zero => exact ⟨rfl, rfl⟩
    | succ t => exact ih t

/-! ### A parity symbol is the sum of its column (R249) -/

section
variable {m : Nat}

/-- The term that data row i adds to symbol t of parity row j (R249). -/
def parityTerm (k j t : Nat) (rows : List (List (BitVec m))) (i : Nat) : BitVec m :=
  gmul (cauchy m k j i) ((rows.getD i []).getD t 0)

/-- The sum of the terms of all k data rows (R249). -/
def columnSum (k j t : Nat) (rows : List (List (BitVec m))) : BitVec m :=
  ((List.range k).map (parityTerm k j t rows)).foldl (fun x y => x ^^^ y) 0

theorem parityFrom_getD (k j : Nat) {n t : Nat} (ht : t < n) (rows : List (List (BitVec m))) :
    ∀ (i : Nat) (par : List (BitVec m)), par.length = n → (∀ row ∈ rows, row.length = n) →
      (parityFrom k j i rows par).getD t 0 = ((List.range rows.length).map (fun d =>
        gmul (cauchy m k j (i + d)) ((rows.getD d []).getD t 0))).foldl (fun x y => x ^^^ y) (par.getD t 0) := by
  induction rows with
  | nil => intro i par _ _; rfl
  | cons row rows ih =>
    intro i par par_len rows_len
    have row_len := rows_len row List.mem_cons_self
    have added : (addTerms (cauchy m k j i) par row).getD t 0 =
        par.getD t 0 ^^^ gmul (cauchy m k j i) (row.getD t 0) := by
      simp [addTerms, List.getD_eq_getElem?_getD, par_len, row_len, ht]
    rw [parityFrom, ih (i + 1) _ (by simp [addTerms, par_len, row_len]) fun r hr =>
        rows_len r (List.mem_cons_of_mem row hr), added, List.length_cons, List.range_succ_eq_map, List.map_cons, List.foldl_cons, List.map_map]
    congr 1
    refine List.map_congr_left fun d _ => ?_
    rw [Function.comp_apply, Nat.succ_eq_add_one, List.getD_cons_succ, Nat.add_assoc, Nat.add_comm 1]

theorem parityRow_getD {k n t : Nat} (j : Nat) {rows : List (List (BitVec m))} (count : rows.length = k)
    (rows_len : ∀ row ∈ rows, row.length = n) (ht : t < n) :
    (parityRow k n j rows).getD t 0 = columnSum k j t rows := by
  have start : (List.replicate n (0 : BitVec m)).getD t 0 = 0 := by simp [ht]
  have index : (fun d => gmul (cauchy m k j (0 + d)) ((rows.getD d []).getD t 0)) = parityTerm k j t rows := by
    simp only [Nat.zero_add]
    rfl
  rw [parityRow, parityFrom_getD k j ht rows 0 _ List.length_replicate rows_len, count, start, index, columnSum]

theorem parityRow_getElem? {k n t : Nat} (j : Nat) {rows : List (List (BitVec m))} (count : rows.length = k)
    (rows_len : ∀ row ∈ rows, row.length = n) (ht : t < n) :
    (parityRow k n j rows)[t]? = some (columnSum k j t rows) := by
  have inside : t < (parityRow k n j rows).length := by rwa [parityRow_length k n j rows rows_len]
  rw [← parityRow_getD j count rows_len ht, List.getElem?_eq_getElem inside, List.getD_eq_getElem _ _ inside]

/-- The p parity rows of k rows of n symbols (R249). -/
def parityRows (k p n : Nat) (rows : List (List (BitVec m))) : List (List (BitVec m)) :=
  (List.range p).map fun j => parityRow k n j rows

theorem parityRows_length (k p n : Nat) (rows : List (List (BitVec m))) : (parityRows k p n rows).length = p := by
  simp [parityRows]

theorem parityRows_getElem? {p j : Nat} (k n : Nat) (rows : List (List (BitVec m))) (hj : j < p) :
    (parityRows k p n rows)[j]? = some (parityRow k n j rows) := by
  simp [parityRows, hj]

end

/-! ### The reference coder (R247) -/

theorem referenceCoder_of_bytes {k p : Nat} (len : Nat) (rows : List Bytes) (fits : k + p ≤ 256) :
    referenceCoder k p len rows = some ⟨8, parityRows k p len rows⟩ := if_pos fits

theorem referenceCoder_of_words {k p len : Nat} (rows : List Bytes) (long : 256 < k + p) (fits : k + p ≤ 65536)
    (even : len % 2 = 0) :
    referenceCoder k p len rows = some ⟨16, (parityRows k p (len / 2) (rows.map symbols16)).map bytes16⟩ := by
  rw [referenceCoder, if_neg (by omega), if_pos ⟨fits, even⟩, parityRows, List.map_map]
  rfl

theorem referenceCoder_unavailable {k p len : Nat} (rows : List Bytes) (long : 256 < k + p)
    (no_room : ¬(k + p ≤ 65536 ∧ len % 2 = 0)) : referenceCoder k p len rows = none := by
  rw [referenceCoder, if_neg (by omega), if_neg no_room]

/-- Settles O50. -/
theorem parityByteIsItsColumnSum : Obligations.ParityByteIsItsColumnSum := by
  intro k p len rows j t fits count rows_len hj ht
  exact ⟨_, parityRow k len j rows, referenceCoder_of_bytes len rows fits, parityRows_length ..,
    parityRows_getElem? _ _ _ hj, parityRow_length k len j rows rows_len, parityRow_getElem? j count rows_len ht⟩

theorem map_symbols16_length {n : Nat} {rows : List Bytes} (rows_len : ∀ row ∈ rows, row.length = 2 * n) :
    ∀ row ∈ rows.map symbols16, row.length = n := by
  intro row hr
  obtain ⟨b, hb, rfl⟩ := List.mem_map.mp hr
  exact symbols16_length n b (rows_len b hb)

theorem columnSum_symbols16 {k n t : Nat} (j : Nat) {rows : List Bytes} (count : rows.length = k)
    (rows_len : ∀ row ∈ rows, row.length = 2 * n) (ht : t < n) :
    columnSum k j t (rows.map symbols16) = ((List.range k).map (fun i => gmul (cauchy 16 k j i)
      ((rows.getD i []).getD (2 * t + 1) 0 ++ (rows.getD i []).getD (2 * t) 0))).foldl (fun x y => x ^^^ y) 0 := by
  rw [columnSum]
  congr 1
  refine List.map_congr_left fun i hi => ?_
  have inside : i < rows.length := count ▸ List.mem_range.mp hi
  have symbols : (rows.map symbols16).getD i [] = symbols16 (rows.getD i []) := List.getD_map rows [] symbols16
  rw [parityTerm, symbols, List.getD_eq_getElem _ _ inside,
    symbols16_getD n _ t (rows_len _ (List.getElem_mem inside)) ht]

/-- Settles O58. -/
theorem parityWordIsItsColumnSum : Obligations.ParityWordIsItsColumnSum := by
  intro k p len rows j t long fits count rows_len hj ht
  have symbols_len := map_symbols16_length rows_len
  have symbols_count : (rows.map symbols16).length = k := by rw [List.length_map, count]
  have symbol := parityRow_getElem? j symbols_count symbols_len ht
  obtain ⟨low, high⟩ := bytes16_getElem? (parityRow k len j (rows.map symbols16)) t
  rw [symbol, Option.map_some] at low high
  refine ⟨⟨16, (parityRows k p len (rows.map symbols16)).map bytes16⟩, _, _, ?answers, ?count, ?row, ?length, low, high,
    columnSum_symbols16 j count rows_len ht⟩
  case answers =>
    rw [referenceCoder_of_words rows long fits (Nat.mul_mod_right 2 len), Nat.mul_div_cancel_left len Nat.two_pos]
  case count => rw [List.length_map, parityRows_length]
  case row => rw [List.getElem?_map, parityRows_getElem? _ _ _ hj, Option.map_some]
  case length => rw [bytes16_length, parityRow_length k len j _ symbols_len]

end Sys2Proof.Machine

/-! PROOF. Any k of the k + p rows determine the data rows (spec/44_fec_encoder.md R243, R252): a column of the difference
of two frames solves a square Cauchy system, and only 0 does. -/

namespace Sys2Proof.Machine

/-! ### Cauchy systems -/

/-- Numbers whose Cauchy-weighted sums vanish at as many points as there are numbers are all 0: the sums are, up to a
factor, the values there of a polynomial of lower degree. -/
theorem eq_zero_of_cauchy_sums {K : Type} [Field K] {S J : Finset Nat} {x : Nat → K} (distinct : Set.InjOn x ↑(S ∪ J))
    (disjoint : Disjoint S J) (card_le : S.card ≤ J.card) {u : Nat → K}
    (sums : ∀ q ∈ J, ∑ i ∈ S, (x q - x i)⁻¹ * u i = 0) : ∀ i ∈ S, u i = 0 := by
  have distinct_S : Set.InjOn x S := distinct.mono (Finset.coe_subset.mpr Finset.subset_union_left)
  have distinct_J : Set.InjOn x J := distinct.mono (Finset.coe_subset.mpr Finset.subset_union_right)
  have weight : ∀ i ∈ S, Lagrange.nodalWeight S x i ≠ 0 := fun i hi => Lagrange.nodalWeight_ne_zero distinct_S hi
  have apart : ∀ q ∈ J, ∀ i ∈ S, x q ≠ x i := fun q hq i hi same =>
    Finset.disjoint_left.mp disjoint hi
      (distinct (Finset.mem_union_right S hq) (Finset.mem_union_left J hi) same ▸ hq)
  have vanishes : Lagrange.interpolate S x (fun i => (Lagrange.nodalWeight S x i)⁻¹ * u i) = 0 := by
    refine Polynomial.eq_zero_of_degree_lt_of_eval_index_eq_zero _ distinct_J
      ((Lagrange.degree_interpolate_lt _ distinct_S).trans_le (Nat.cast_le.mpr card_le)) fun q hq => ?_
    rw [Lagrange.eval_interpolate_not_at_node _ (apart q hq)]
    refine mul_eq_zero_of_right _ ((Finset.sum_congr rfl fun i hi => ?_).trans (sums q hq))
    rw [mul_comm (Lagrange.nodalWeight S x i), mul_assoc, mul_inv_cancel_left₀ (weight i hi)]
  intro i hi
  have at_node := Lagrange.eval_interpolate_at_node (fun i => (Lagrange.nodalWeight S x i)⁻¹ * u i) distinct_S hi
  rw [vanishes, Polynomial.eval_zero] at at_node
  exact (mul_eq_zero.mp at_node.symm).resolve_left (inv_ne_zero (weight i hi))

/-! ### A column of symbols in the field -/

section
variable {m : Nat} {K : Type} [Field K] {φ : BitVec m → K}

theorem IsGfRing.map_foldl_xor (h : IsGfRing φ) (f : Nat → BitVec m) (k : Nat) :
    φ (((List.range k).map f).foldl (fun x y => x ^^^ y) 0) = ∑ i ∈ Finset.range k, φ (f i) := by
  induction k with
  | zero => exact h.map_zero
  | succ k ih =>
    rw [List.range_succ, List.map_append, List.foldl_append, List.map_singleton, List.foldl_cons, List.foldl_nil,
      h.map_xor, ih, Finset.sum_range_succ]

/-- The element that stands for place i (R248). -/
def placeElement (φ : BitVec m → K) (i : Nat) : K := φ (BitVec.ofNat m i)

theorem placeElement_injOn (h : IsGfRing φ) : Set.InjOn (placeElement φ) {i | i < 2 ^ m} := by
  intro i hi j hj same
  have values := congrArg BitVec.toNat (h.bijective.injective same)
  rwa [BitVec.toNat_ofNat, BitVec.toNat_ofNat, Nat.mod_eq_of_lt hi, Nat.mod_eq_of_lt hj] at values

theorem map_cauchy (h : IsGfRing φ) (gen : TwoGenerates m) {k j i : Nat} (hi : i < k) (fits : k + j < 2 ^ m) :
    φ (cauchy m k j i) = (placeElement φ (k + j) - placeElement φ i)⁻¹ := by
  have differ : BitVec.ofNat m i ^^^ BitVec.ofNat m (k + j) ≠ 0#m := by
    rw [Ne, BitVec.xor_eq_zero_iff]
    intro same
    have := placeElement_injOn h (Set.mem_ofPred.mpr (by omega : i < 2 ^ m)) fits (congrArg φ same)
    omega
  rw [cauchy, h.map_ginv gen differ, BitVec.xor_comm, h.map_xor_eq_sub, placeElement, placeElement]

theorem map_columnSum (h : IsGfRing φ) (gen : TwoGenerates m) {k j : Nat} (fits : k + j < 2 ^ m) (t : Nat)
    (rows : List (List (BitVec m))) :
    φ (columnSum k j t rows) = ∑ i ∈ Finset.range k,
      (placeElement φ (k + j) - placeElement φ i)⁻¹ * φ ((rows.getD i []).getD t 0) := by
  rw [columnSum, h.map_foldl_xor]
  refine Finset.sum_congr rfl fun i hi => ?_
  rw [parityTerm, h.map_gmul, map_cauchy h gen (Finset.mem_range.mp hi) fits]

end

/-! ### Recovery (R243) -/

/-- Two frames of k rows of n symbols are the same at these k of the k + p places. -/
structure SameAtPlaces {m : Nat} (k p n : Nat) (places : Finset Nat) (rows rows' : List (List (BitVec m))) : Prop where
  rows_are : rows.length = k ∧ ∀ row ∈ rows, row.length = n
  rows'_are : rows'.length = k ∧ ∀ row ∈ rows', row.length = n
  card : places.card = k
  same : ∀ i ∈ places, i < k + p ∧ (rows ++ parityRows k p n rows)[i]? = (rows' ++ parityRows k p n rows')[i]?

namespace SameAtPlaces

section
variable {m k p n : Nat} {places : Finset Nat} {rows rows' : List (List (BitVec m))}

theorem data_row (h : SameAtPlaces k p n places rows rows') {i : Nat} (known : i ∈ places) (hi : i < k) :
    rows.getD i [] = rows'.getD i [] := by
  obtain ⟨-, same⟩ := h.same i known
  rw [List.getElem?_append_left (h.rows_are.1 ▸ hi), List.getElem?_append_left (h.rows'_are.1 ▸ hi)] at same
  rw [List.getD_eq_getElem?_getD, same, List.getD_eq_getElem?_getD]

theorem parity_row (h : SameAtPlaces k p n places rows rows') {j : Nat} (known : k + j ∈ places) :
    parityRow k n j rows = parityRow k n j rows' := by
  obtain ⟨inside, same⟩ := h.same _ known
  have hj : j < p := by omega
  rw [List.getElem?_append_right (by rw [h.rows_are.1]; omega), List.getElem?_append_right (by rw [h.rows'_are.1]; omega),
    h.rows_are.1, h.rows'_are.1, Nat.add_sub_cancel_left, parityRows_getElem? _ _ _ hj,
    parityRows_getElem? _ _ _ hj] at same
  exact Option.some.inj same

/-- As many parity places are known as data places are not. -/
theorem card_unknown_le (h : SameAtPlaces k p n places rows rows') :
    (Finset.range k \ places).card ≤ (places \ Finset.range k).card := by
  have data := Finset.card_sdiff_add_card_inter (Finset.range k) places
  have known := Finset.card_sdiff_add_card_inter places (Finset.range k)
  rw [Finset.card_range] at data
  rw [Finset.inter_comm, h.card] at known
  omega

end

section
variable {m k p n : Nat} {places : Finset Nat} {rows rows' : List (List (BitVec m))}
  {K : Type} [Field K] {φ : BitVec m → K}

/-- How much symbol t of data row i of one frame is above that of the other. -/
def difference (φ : BitVec m → K) (rows rows' : List (List (BitVec m))) (t i : Nat) : K :=
  φ ((rows.getD i []).getD t 0) - φ ((rows'.getD i []).getD t 0)

theorem difference_of_known (h : SameAtPlaces k p n places rows rows') {i : Nat} (known : i ∈ places) (hi : i < k)
    (t : Nat) : difference φ rows rows' t i = 0 := by
  rw [difference, h.data_row known hi, sub_self]

/-- A known parity row is a Cauchy equation for the differences in each column. -/
theorem sum_difference (h : SameAtPlaces k p n places rows rows') (ring : IsGfRing φ) (gen : TwoGenerates m)
    (fits : k + p ≤ 2 ^ m) {t : Nat} (ht : t < n) {q : Nat} (known : q ∈ places) (hq : k ≤ q) :
    ∑ i ∈ Finset.range k \ places, (placeElement φ q - placeElement φ i)⁻¹ * difference φ rows rows' t i = 0 := by
  obtain ⟨j, rfl⟩ := Nat.exists_eq_add_of_le hq
  have inside := (h.same _ known).1
  have symbol : columnSum k j t rows = columnSum k j t rows' := by
    rw [← parityRow_getD j h.rows_are.1 h.rows_are.2 ht, h.parity_row known,
      parityRow_getD j h.rows'_are.1 h.rows'_are.2 ht]
  have sums := congrArg φ symbol
  rw [map_columnSum ring gen (by omega), map_columnSum ring gen (by omega), ← sub_eq_zero,
    ← Finset.sum_sub_distrib] at sums
  simp only [← mul_sub] at sums
  rw [← sums]
  refine Finset.sum_subset Finset.sdiff_subset fun i data not_unknown => ?_
  have i_known : i ∈ places := by_contra fun unknown => not_unknown (Finset.mem_sdiff.mpr ⟨data, unknown⟩)
  exact mul_eq_zero_of_right _ (h.difference_of_known i_known (Finset.mem_range.mp data) t)

theorem difference_eq_zero (h : SameAtPlaces k p n places rows rows') (ring : IsGfRing φ) (gen : TwoGenerates m)
    (fits : k + p ≤ 2 ^ m) {t : Nat} (ht : t < n) {i : Nat} (hi : i < k) : difference φ rows rows' t i = 0 := by
  by_cases known : i ∈ places
  · exact h.difference_of_known known hi t
  · refine eq_zero_of_cauchy_sums (x := placeElement φ) ((placeElement_injOn ring).mono fun q hq => ?_)
      (Finset.disjoint_left.mpr fun q unknown parity => ?_) h.card_unknown_le (fun q parity => ?_) i
      (Finset.mem_sdiff.mpr ⟨Finset.mem_range.mpr hi, known⟩)
    · have place : q < k + p := by
        rcases Finset.mem_union.mp (Finset.mem_coe.mp hq) with unknown | parity
        · have := Finset.mem_range.mp (Finset.mem_sdiff.mp unknown).1
          omega
        · exact (h.same q (Finset.mem_sdiff.mp parity).1).1
      exact Nat.lt_of_lt_of_le place fits
    · exact (Finset.mem_sdiff.mp unknown).2 (Finset.mem_sdiff.mp parity).1
    · obtain ⟨q_known, not_data⟩ := Finset.mem_sdiff.mp parity
      exact h.sum_difference ring gen fits ht q_known (by simpa using not_data)

end

/-- Any k of the k + p rows of symbols determine the data rows. -/
theorem rows_eq {m k p n : Nat} {places : Finset Nat} {rows rows' : List (List (BitVec m))}
    (h : SameAtPlaces k p n places rows rows') (gen : TwoGenerates m) (fits : k + p ≤ 2 ^ m) : rows = rows' := by
  obtain ⟨K, _, φ, ring⟩ := exists_gfField gen
  obtain ⟨count, rows_len⟩ := h.rows_are
  obtain ⟨count', rows_len'⟩ := h.rows'_are
  refine List.ext_getElem (count.trans count'.symm) fun i hi hi' => ?_
  have len := rows_len _ (List.getElem_mem hi)
  have len' := rows_len' _ (List.getElem_mem hi')
  refine List.ext_getElem (len.trans len'.symm) fun t ht ht' => ring.bijective.injective (sub_eq_zero.mp ?_)
  have equal := h.difference_eq_zero ring gen fits (len ▸ ht) (count ▸ hi)
  rwa [difference, List.getD_eq_getElem _ _ hi, List.getD_eq_getElem _ _ hi', List.getD_eq_getElem _ _ ht,
    List.getD_eq_getElem _ _ ht'] at equal

end SameAtPlaces

theorem referenceCoder_recovers_of_bytes {k p : Nat} (len : Nat) (fits : k + p ≤ 256) :
    RecoversFromAny k p len (referenceCoder k p len) := by
  intro rows rows' a a' places are are' answer answer' card same
  rw [referenceCoder_of_bytes len _ fits, Option.some.injEq] at answer answer'
  subst answer answer'
  exact SameAtPlaces.rows_eq ⟨are, are', card, same⟩ twoGenerates_8 fits

/-- A frame of rows of bytes, as symbols. -/
theorem map_symbols16_frame (k p n : Nat) (rows : List Bytes) :
    (rows ++ (parityRows k p n (rows.map symbols16)).map bytes16).map symbols16 =
      rows.map symbols16 ++ parityRows k p n (rows.map symbols16) := by
  have inverse : Function.LeftInverse symbols16 bytes16 := symbols16_bytes16
  rw [List.map_append, inverse.list_map]

theorem map_bytes16_map_symbols16 {n : Nat} {rows : List Bytes} (rows_len : ∀ row ∈ rows, row.length = 2 * n) :
    (rows.map symbols16).map bytes16 = rows := by
  rw [List.map_map]
  exact (List.map_congr_left fun b hb => bytes16_symbols16 n b (rows_len b hb)).trans (List.map_id rows)

theorem referenceCoder_recovers_of_words {k p : Nat} (len : Nat) (long : 256 < k + p) :
    RecoversFromAny k p len (referenceCoder k p len) := by
  intro rows rows' a a' places are are' answer answer' card same
  by_cases room : k + p ≤ 65536 ∧ len % 2 = 0
  case neg =>
    rw [referenceCoder_unavailable _ long room] at answer
    cases answer
  case pos =>
    obtain ⟨fits, even⟩ := room
    have len_eq : len = 2 * (len / 2) := by omega
    rw [referenceCoder_of_words _ long fits even, Option.some.injEq] at answer answer'
    subst answer answer'
    have rows_len : ∀ row ∈ rows, row.length = 2 * (len / 2) := fun row hr => (are.2 row hr).trans len_eq
    have rows_len' : ∀ row ∈ rows', row.length = 2 * (len / 2) := fun row hr => (are'.2 row hr).trans len_eq
    have symbols : rows.map symbols16 = rows'.map symbols16 := by
      refine SameAtPlaces.rows_eq (p := p) (n := len / 2)
        ⟨⟨by rw [List.length_map, are.1], map_symbols16_length rows_len⟩, ⟨by rw [List.length_map, are'.1], map_symbols16_length rows_len'⟩, card, fun i hi => ⟨(same i hi).1, ?_⟩⟩
        twoGenerates_16 fits
      rw [← map_symbols16_frame, ← map_symbols16_frame, List.getElem?_map, (same i hi).2, List.getElem?_map]
    rw [← map_bytes16_map_symbols16 rows_len, symbols, map_bytes16_map_symbols16 rows_len']

/-- Settles O53. -/
theorem anyRowsRecoverTheData : Obligations.AnyRowsRecoverTheData := by
  intro c k p len fits
  refine ⟨fun rows a are answer => fecCoder_rows answer are, ?_⟩
  cases c with
  | reference => exact referenceCoder_recovers_of_bytes len (fits rfl)
  | custom name => exact customCoder_recovers name k p len

/-- Settles O60. -/
theorem anyRowsRecoverTheDataOfLongFrames : Obligations.AnyRowsRecoverTheDataOfLongFrames :=
  fun _ _ len long => ⟨fun _ _ are answer => fecCoder_rows (c := .reference) answer are,
    referenceCoder_recovers_of_words len long⟩

end Sys2Proof.Machine

/-! PROOF. The parity count (spec/44_fec_encoder.md R241) and what FS_FINAL reports of the reference coder (R247, R250,
R275). -/

namespace Sys2Proof.Machine

/-- Settles O48. -/
theorem parityCountIsFivePercent : Obligations.ParityCountIsFivePercent := by
  intro k
  rw [parityCount_eq]
  refine ⟨?_, ?_, fun q hq enough => ?_⟩ <;> omega

theorem le_injective_of_lt {n v w : Nat} (hv : v < 256 ^ n) (hw : w < 256 ^ n) (same : le n v = le n w) : v = w := by
  rw [← fromLe_le_of_lt hv, same, fromLe_le_of_lt hw]

/-- A result block of FS_FINAL determines what it reports (R106). -/
theorem finalResults_injective {k k' p p' len len' : Nat} {bits bits' : Byte} (hk : k < 2 ^ 32) (hk' : k' < 2 ^ 32)
    (hp : p < 2 ^ 32) (hp' : p' < 2 ^ 32) (hlen : len < 2 ^ 32) (hlen' : len' < 2 ^ 32)
    (same : finalResults k p len bits = finalResults k' p' len' bits') : k = k' ∧ p = p' ∧ len = len' ∧ bits = bits' := by
  simp only [finalResults] at same
  obtain ⟨same, bits_eq⟩ := List.append_inj same (by simp)
  obtain ⟨same, len_eq⟩ := List.append_inj same (by simp)
  obtain ⟨k_eq, p_eq⟩ := List.append_inj same (by simp)
  exact ⟨le_injective_of_lt hk hk' k_eq, le_injective_of_lt hp hp' p_eq, le_injective_of_lt hlen hlen' len_eq,
    List.head_eq_of_cons_eq bits_eq⟩

/-- A padded length is a row length, or 0. -/
theorem paddedLen_lt (s : State) (k : Nat) : s.paddedLen k < 2 ^ 32 := by
  obtain ⟨-, -, zero | row⟩ := foldl_max_spec ((List.range k).map fun i => (s.fs.rowlen.at i).toNat) 0
  · rw [State.paddedLen, zero]
    exact Nat.two_pow_pos 32
  · obtain ⟨i, -, len⟩ := List.mem_map.mp row
    rw [State.paddedLen, ← len]
    exact (s.fs.rowlen.at i).isLt

/-- The status and the symbol width that `fec_finalize` reports of the reference coder (R247, R250). -/
def referenceReport (k p len : Nat) : Byte × Byte :=
  if k + p ≤ 256 then (0x00, 8) else if k + p ≤ 65536 ∧ len % 2 = 0 then (0x00, 16) else (0x04, 0)

theorem fecResult_reference (streamIdx : Byte) (frameIdx : U64) (k len : Nat) (payloads : List Bytes) :
    (fecResult .reference streamIdx frameIdx k len payloads).status.byte = (referenceReport k (parityCount k) len).1 ∧
      (fecResult .reference streamIdx frameIdx k len payloads).results =
        finalResults k (parityCount k) len (referenceReport k (parityCount k) len).2 := by
  rw [referenceReport]
  by_cases short : k + parityCount k ≤ 256
  · simp only [fecResult, fecCoder, referenceCoder_of_bytes _ _ short, if_pos short, and_true]
    rfl
  · have long : 256 < k + parityCount k := by omega
    by_cases room : k + parityCount k ≤ 65536 ∧ len % 2 = 0
    · simp only [fecResult, fecCoder, referenceCoder_of_words _ long room.1 room.2, if_neg short, if_pos room, and_true]
      rfl
    · simp only [fecResult, fecCoder, referenceCoder_unavailable _ long room, if_neg short, if_neg room, and_true]
      rfl

/-- FS_FINAL is refused, or its response is what `fec_finalize` decides of the shards there are at the end (R218). -/
theorem fsFinal_responds {s t : State} {fr : U64} {dt : I64} {pose : Bytes}
    (runs : exec (.fsFinal fr dt pose) s = .next t) :
    t = s.raise .argError .fsFinal ∨ ∃ (u v : State) (payloads : List Bytes) (r : FecResult),
      r = fecResult s.params.coder u.fs.streamIdx u.fs.frameIdx u.fs.nextIdx.toNat (u.paddedLen u.fs.nextIdx.toNat)
        payloads ∧ t = v.respond r.status r.results := by
  have params := exec_keeps_params runs
  rw [exec, execFsFinal] at runs
  split at runs
  case isTrue accepted =>
    obtain ⟨_, u, -, -, finish⟩ := final_eq_ok (ofExcept_eq_next.mp runs)
    obtain ⟨payloads, -, rfl⟩ := finishFrame_eq_ok finish
    exact .inr ⟨u, _, payloads, _, by rw [← params]; rfl, rfl⟩
  case isFalse refused =>
    cases runs
    exact .inl rfl

/-- The response that comes last is determined by the output. -/
theorem last_response_eq {xs ys : List PortOut} {st st' : Byte} {r r' : Bytes}
    (h : xs ++ [.resp (st :: r)] = ys ++ [.resp (st' :: r')]) : st = st' ∧ r = r' :=
  List.cons.inj (PortOut.resp.inj (List.singleton_inj.mp (List.append_inj_right' h rfl)))

/-- Settles O49: its response is the last of the output, and names k, p and L. -/
theorem fieldChoiceOfTheReferenceCoder : Obligations.FieldChoiceOfTheReferenceCoder := by
  intro s t fr dt pose pre status bits k p len coder runs hk hp hlen output not_refused
  obtain rfl | ⟨u, v, payloads, r, result, rfl⟩ := fsFinal_responds runs
  case inl =>
    rw [raise_output] at output
    exact absurd (last_response_eq output).1.symm not_refused
  case inr =>
    rw [coder] at result
    subst result
    rw [respond_output] at output
    obtain ⟨status_eq, results⟩ := last_response_eq output
    obtain ⟨status_is, results_are⟩ := fecResult_reference u.fs.streamIdx u.fs.frameIdx u.fs.nextIdx.toNat
      (u.paddedLen u.fs.nextIdx.toNat) payloads
    have next_lt := u.fs.nextIdx.isLt
    have parity_lt : parityCount u.fs.nextIdx.toNat < 2 ^ 32 := by rw [parityCount_eq]; omega
    obtain ⟨rfl, rfl, rfl, rfl⟩ := finalResults_injective next_lt hk parity_lt hp (paddedLen_lt u _) hlen
      (results_are.symm.trans results)
    rw [← status_eq, status_is]
    rfl

end Sys2Proof.Machine

/-! PROOF. Runs from power-on (spec/60_exceptions.md R283, spec/70_reset_and_hazards.md R313, R334), the refusals that change
nothing (R95, R155, R272, R276, R278, R281), and the row of the status table of each command (R271). -/

namespace Sys2Proof.Machine

open Sys2Proof.Safety

/-! ### Runs -/

/-- From a state that meets the invariant every run goes on to its end and keeps it. -/
theorem runFrom_keeps_inv {s : State} (h : Inv s) (k : Nat) : ∃ t, runFrom k s = some t ∧ Inv t := by
  induction k generalizing s with
  | zero => exact ⟨s, rfl, h⟩
  | succ k ih =>
    obtain ⟨s1, steps, inv⟩ := step_keeps_inv h
    rw [runFrom_succ_of_step steps]
    exact ih inv

/-- Settles O13: the invariant holds at power-on, whatever has arrived, and every step keeps it. -/
theorem everyEventSequenceRuns : Obligations.EveryEventSequenceRuns := fun _ arrived k valid =>
  runFrom_keeps_inv (inv_setInput (inv_powerOn valid) arrived) k

/-! ### Packets without a defined opcode (R95, R278, R281) -/

theorem ofByte?_eq_none_iff {b : Byte} : Opcode.ofByte? b = none ↔ b ∉ Opcode.all.map Opcode.byte := by
  simp [Opcode.ofByte?, List.find?_eq_none]

theorem decode_of_undefined (poseBytes : Nat) {p : Bytes}
    (undefined : ∀ b, p.head? = some b → b ∉ Opcode.all.map Opcode.byte) : decode poseBytes p = .badOpcode := by
  cases p with
  | nil => rfl
  | cons b rest => rw [decode, ofByte?_eq_none_iff.mpr (undefined b rfl)]

/-- Settles O5: the twelve bytes are those of the opcodes. -/
theorem undefinedOpcodeIsRefused : Obligations.UndefinedOpcodeIsRefused := by
  intro s s1 p taken undefined
  have runs : step s = .next s1.raiseBadOpcode := by
    rw [step_of_command taken, runPacket, decode_of_undefined _ undefined]
  exact ⟨_, runs, sameState_respond .., rfl⟩

/-! ### Refusals of HI_DEC, ECHO_UNPACK and CS_REPLY -/

theorem exec_hiDec_of_short {d : Bytes} (short : d.length < 8) (s : State) :
    exec (.hiDec d) s = .next (s.raise .framingError .hiDec) := by
  rw [exec, execHiDec, if_pos short]

theorem exec_echoUnpack_of_short {d : Bytes} (short : d.length < 32) (s : State) :
    exec (.echoUnpack d) s = .next (s.raise .framingError .echoUnpack) := by
  rw [exec, execEchoUnpack, if_pos short]

/-- Settles O22. -/
theorem undersizedBytesAreFramingErrors : Obligations.UndersizedBytesAreFramingErrors := fun s _ =>
  ⟨fun short => ⟨_, exec_hiDec_of_short short s, sameState_respond .., rfl⟩,
    fun short => ⟨_, exec_echoUnpack_of_short short s, sameState_respond .., rfl⟩⟩

/-- A reply with no exchange pending, or for another one, is refused (R155). -/
theorem exec_csReply_of_stale {s : State} {id : U32} (stale : ¬ s.cs.matchesReply s.params.echoIdBits id = true)
    (now org recv xmt : I64) : exec (.csReply now id org recv xmt) s = .next (s.raise .staleEcho .csReply) := by
  rw [exec, execCsReply, if_neg stale]

/-- Settles O29: each of the three cases fails one test of CS_REPLY. -/
theorem csReplyIgnoresStaleReplies : Obligations.CsReplyIgnoresStaleReplies := by
  intro s now id org recv xmt not_for_pending
  have stale : ¬ s.cs.matchesReply s.params.echoIdBits id = true := by
    rw [matchesReply_iff]
    rintro ⟨pending, own_id, id_fits⟩
    obtain not_pending | other_id | too_wide := not_for_pending
    · exact not_pending pending
    · exact other_id own_id
    · exact Nat.not_lt.mpr too_wide id_fits
  exact ⟨_, exec_csReply_of_stale stale now org recv xmt, sameState_respond .., rfl⟩

/-! ### The status table (R271) -/

/-- From s to t, a command of this opcode has answered with a status of its row, or it lets its response wait for the
handler's return (R188). -/
def EndsInRow (op : Opcode) (s t : State) : Prop :=
  (∃ (u : State) (st : Status) (r : Bytes), t = u.respond st r ∧ st.byte ∈ statusesOf op) ∨ OpensCallout s t

theorem endsInRow_respond (op : Opcode) {st : Status} (row : st.byte ∈ statusesOf op) (s u : State) (r : Bytes) :
    EndsInRow op s (u.respond st r) := .inl ⟨u, st, r, rfl, row⟩

theorem endsInRow_raise (op : Opcode) {st : Status} (row : st.byte ∈ statusesOf op) (s u : State) :
    EndsInRow op s (u.raise st op) := endsInRow_respond op row s u _

/-- OK is in every row. -/
theorem endsInRow_ok (op : Opcode) (s u : State) (r : Bytes) : EndsInRow op s (u.respond .ok r) :=
  endsInRow_respond op (by cases op <;> decide) s u r

/-- A response that is the last output is the one that the command answered. -/
theorem EndsInRow.status_mem {op : Opcode} {s t : State} (h : EndsInRow op s t) {pre : List PortOut} {status : Byte}
    {r : Bytes} (output : t.output = s.output ++ pre ++ [.resp (status :: r)]) : status ∈ statusesOf op := by
  obtain ⟨u, st, r', rfl, row⟩ | ⟨c, n, v, -, sent⟩ := h
  · obtain ⟨-, rfl, -⟩ := respond_output_eq output
    exact row
  · cases (List.append_inj' (sent.symm.trans output) rfl).2

theorem exec_hc_endsInRow {i : Instr} {s t : State} (unit : agentOf i.opcode = .hc) (h : exec i s = .next t) :
    EndsInRow i.opcode s t := by
  cases i <;> try (cases unit; done)
  case hiEnc mt rs ss aux d => cases h; exact endsInRow_ok ..
  case echoPack o r x f => cases h; exact endsInRow_ok ..
  case hiDec d =>
    obtain short | long := Nat.lt_or_ge d.length 8
    · cases (exec_hiDec_of_short short s).symm.trans h
      exact endsInRow_raise .hiDec (by decide) ..
    · cases (exec_hiDec_of_long long s).symm.trans h
      exact endsInRow_ok ..
  case echoUnpack d =>
    obtain short | long := Nat.lt_or_ge d.length 32
    · cases (exec_echoUnpack_of_short short s).symm.trans h
      exact endsInRow_raise .echoUnpack (by decide) ..
    · cases (exec_echoUnpack_of_long long s).symm.trans h
      exact endsInRow_ok ..

theorem exec_cs_endsInRow {i : Instr} {s t : State} (unit : agentOf i.opcode = .cs) (h : exec i s = .next t) :
    EndsInRow i.opcode s t := by
  cases i <;> try (cases unit; done)
  case csSend now => cases h; exact endsInRow_ok ..
  case csExt t l ns => cases h; exact endsInRow_ok ..
  case csReply now id org recv xmt =>
    by_cases accepted : s.cs.matchesReply s.params.echoIdBits id = true
    · obtain ⟨pending, rfl, id_fits⟩ := matchesReply_iff.mp accepted
      cases (exec_csReply_of_pending pending id_fits now org recv xmt).symm.trans h
      exact endsInRow_ok ..
    · cases (exec_csReply_of_stale accepted now org recv xmt).symm.trans h
      exact endsInRow_raise .csReply (by decide) ..

/-- The append of SR_FEED answers OK, or opens the callout (R186, R188). -/
theorem feed_endsInRow {s t : State} {c : Channel} {d : Bytes} (h : s.feed c d = .ok t) (op : Opcode) :
    EndsInRow op s t := by
  rw [State.feed] at h
  split at h
  case h_1 => cases h
  case h_2 s1 wrote =>
    obtain ⟨-, rfl⟩ := segWrite_eq_ok wrote
    simp only [State.feedDone] at h
    split at h
    case isTrue full =>
      split at h
      case h_1 => cases h
      case h_2 view read =>
        cases h
        exact .inr ⟨c, _, view, by simp, by simp; rfl⟩
    case isFalse partly => cases h; exact endsInRow_ok ..

theorem exec_sr_endsInRow {i : Instr} {s t : State} (unit : agentOf i.opcode = .sr) (h : exec i s = .next t) :
    EndsInRow i.opcode s t := by
  cases i <;> try (cases unit; done)
  case srBegin b n =>
    simp only [exec, execSrBegin] at h
    split at h
    case h_1 => cases h; exact endsInRow_raise .srBegin (by decide) ..
    case h_2 c names =>
      split at h
      case isTrue above => cases h; exact endsInRow_raise .srBegin (by decide) ..
      case isFalse fits => cases h; exact endsInRow_ok ..
  case srFeed b d =>
    simp only [exec, execSrFeed] at h
    split at h
    case h_1 => cases h; exact endsInRow_raise .srFeed (by decide) ..
    case h_2 c names =>
      split at h
      case isTrue idle =>
        split at h
        case isTrue empty => cases h; exact endsInRow_ok ..
        case isFalse nonempty => cases h; exact endsInRow_raise .srFeed (by decide) ..
      case isFalse begun =>
        split at h
        case isTrue above => cases h; exact endsInRow_raise .srFeed (by decide) ..
        case isFalse fits => exact feed_endsInRow (ofExcept_eq_next.mp h) _

theorem exec_fs_endsInRow {i : Instr} {s t : State} (unit : agentOf i.opcode = .fs) (h : exec i s = .next t) :
    EndsInRow i.opcode s t := by
  cases i <;> try (cases unit; done)
  case fsPush st fr mp d =>
    by_cases accepted : s.pushAccepted st fr mp d.length = true
    · obtain ⟨u, r, rfl, -⟩ := loop_of_fsPush_accepted accepted h
      exact endsInRow_ok ..
    · cases (exec_fsPush_of_refused accepted).symm.trans h
      exact endsInRow_raise .fsPush (by decide) ..
  case fsFinal fr dt pose =>
    obtain rfl | ⟨u, v, payloads, result, rfl, rfl⟩ := fsFinal_responds h
    · exact endsInRow_raise .fsFinal (by decide) ..
    · obtain ok | unavailable := fecResult_status s.params.coder u.fs.streamIdx u.fs.frameIdx u.fs.nextIdx.toNat
        (u.paddedLen u.fs.nextIdx.toNat) payloads
      · exact endsInRow_respond .fsFinal (by rw [ok]; decide) ..
      · exact endsInRow_respond .fsFinal (by rw [unavailable]; decide) ..

theorem exec_endsInRow {i : Instr} {s t : State} (h : exec i s = .next t) : EndsInRow i.opcode s t := by
  cases unit : agentOf i.opcode with
  | hc => exact exec_hc_endsInRow unit h
  | cs => exact exec_cs_endsInRow unit h
  | sr => exact exec_sr_endsInRow unit h
  | fs => exact exec_fs_endsInRow unit h
  | block =>
    obtain rfl := eq_reset_of_agentOf_block unit
    cases h
    exact endsInRow_ok ..

/-- Settles O18, unit by unit. -/
theorem statusesOfEachCommand : Obligations.StatusesOfEachCommand := fun _ _ _ _ _ _ h output =>
  (exec_endsInRow h).status_mem output

end Sys2Proof.Machine

/-! PROOF. The command RESET (spec/70_reset_and_hazards.md R311, R312): it writes registers alone, and answers. -/

namespace Sys2Proof.Machine

/-! ### What the reset of the registers writes in each unit, and what it keeps -/

@[simp] theorem resetRegisters_cs (s : State) : s.resetRegisters.cs = .atReset := rfl

/-- The frame context keeps its row lengths and STORE alone (R312, log 9). -/
@[simp] theorem resetRegisters_fs (s : State) :
    s.resetRegisters.fs = { Sharder.atReset with rowlen := s.fs.rowlen, store := s.fs.store } := rfl

@[simp] theorem resetRegisters_input (s : State) : s.resetRegisters.input = s.input := rfl

@[simp] theorem resetRegisters_output (s : State) : s.resetRegisters.output = s.output := rfl

/-- A segment keeps its buffer alone (R312). -/
theorem cleared_eq (g : Segment) : g.cleared = { Segment.atReset with buf := g.buf } := rfl

/-! ### The command -/

/-- RESET goes on in every state, and its response has neither results nor data (R107, R311). -/
theorem exec_reset (s : State) : exec .reset s = .next (s.resetRegisters.respond .ok []) := rfl

/-- Settles O54, unit by unit: a response writes no register, so that each one is as the reset of the registers leaves it. -/
theorem resetClearsRegisters : Obligations.ResetClearsRegisters := by
  intro s
  refine ⟨_, exec_reset s, ?clockSync, fun c => ?segment, ?frame⟩
  case clockSync =>
    rw [respond_cs, resetRegisters_cs, ClockSync.atReset]
  case segment =>
    rw [respond_seg, resetRegisters_seg, cleared_eq]
    exact ⟨rfl, rfl, rfl, rfl, rfl⟩
  case frame =>
    rw [respond_fs, resetRegisters_fs]
    refine ⟨rfl, rfl, rfl, rfl, rfl, rfl, rfl, rfl, ?params, ?input, ?output⟩
    case params => rw [respond_params, resetRegisters_params]
    case input => rw [respond_input, resetRegisters_input]
    case output => rw [respond_output, resetRegisters_output, Status.byte]

end Sys2Proof.Machine
